-- ==== Sys2Proof/Word.lean ====
section
/-! DEFINITION. The widths of the core (spec/00_scope.md R7, R9 to R12): 64-bit registers, byte symbols, bit
strings, and a table with one entry per byte value. -/

namespace Sys2Proof

/-- A host register, 64 bits (R7 `REG_BITS`). -/
abbrev Word := BitVec 64

/-- A byte of memory, or a symbol (R7 `SYM_BITS`). -/
abbrev Byte := BitVec 8

/-- A bit string, first bit emitted first (R11). -/
abbrev Bits := List Bool

/-- One entry per byte value 0..255 (R7 `ALPHABET`). -/
abbrev Table (α : Type) := Vector α 256

end Sys2Proof
end

