-- ==== Sys2Proof/Config.lean ====
section
/-! DEFINITION. What the platform fixes (spec/00_scope.md R7) and the free values: constants with no body, so that
nothing is provable of them. -/

namespace Sys2Proof

/-- What answers at the addresses of a region of system memory. -/
inductive RegionKind where
  /-- Ordinary memory (spec/20_memory.md R44); whether it answers an engine's read and an engine's write (R45). -/
  | memory (admitsRead admitsWrite : Bool)
  /-- A device whose reads have side effects (R44). -/
  | sideEffects
  /-- The register aperture seen as memory (spec/70_reset_and_hazards.md R151). -/
  | aperture
  /-- A buffer of another core (spec/60_exceptions.md R142). -/
  | otherCore
  deriving DecidableEq, Repr

/-- The addresses `base .. base + len - 1`. -/
structure Region where
  base : Nat
  len  : Nat
  kind : RegionKind
  deriving DecidableEq, Repr

/-- The parameters of R7: `ADDR_W`, `MAX_SRC_LEN`, and `MEM_ADMITS` as the platform's memory map. The first region
that holds an address decides; an address in none of them answers no engine access. -/
structure Config where
  addrW     : Nat
  maxSrcLen : Nat
  regions   : List Region
  deriving DecidableEq, Repr

/-- The defaults of R7. `MEM_ADMITS` is OPEN there.
DESIGN CHOICE (log entry 6, unsafe): at reset the whole space is ordinary memory that answers. -/
def Config.default : Config where
  addrW     := 64
  maxSrcLen := 2 ^ 56 - 1
  regions   := [⟨0, 2 ^ 64, .memory true true⟩]

/-- FREE VALUE (log entry 8): the byte of system memory at an address that nothing has written. -/
opaque Config.initByte : Nat → Byte

/-- FREE VALUE (log entry 9): draw `d` for the byte at an address (R134, R145, R48). -/
opaque Config.drawByte : Nat → Nat → Byte

/-- FREE VALUE (log entry 9): draw `d` for the window word at an aperture offset (R32). -/
opaque Config.drawWindow : Nat → Nat → Word

end Sys2Proof
end

