-- ==== Sys2Proof/Syntax.lean ====
section
/-! DEFINITION. The commands of spec/opcode_table.json and the lines of a host program (spec/30_encoding.md R66). -/

namespace Sys2Proof

/-- The four commands (R55). A command word has no operand field: the operands are registers (R54). -/
inductive Instr where
  | nop
  | compress
  | decompress
  | analyze
  deriving DecidableEq, Repr

/-- The host registers of spec/10_state.md R20. -/
inductive Reg where
  | id | ctrl | cmd | status
  | srcBase | srcLen | dstBase | dstCap
  | dstLen | errInfo | bitLen | symCount | padCount
  deriving DecidableEq, Repr

/-- How wide a host's register access is. Only 64 bits is inside the interface (R21). -/
inductive AccessWidth where
  | w8 | w16 | w32 | w64
  deriving DecidableEq, Repr

/-- One operation of the host (R66). A register access names an offset in the 16 KiB aperture (R20); `CMD` and
`CLR` are writes (`HostOp.issue`, `HostOp.clear`). -/
inductive HostOp where
  /-- `RD`: a register or window read (spec/40_host_access.md R68). -/
  | read (offset : BitVec 14) (width : AccessWidth)
  /-- `WR`: a register write (R69 to R72). -/
  | write (offset : BitVec 14) (width : AccessWidth) (value : Word)
  /-- `MEM`: store bytes into system memory, the first at the address. -/
  | store (address : Nat) (bytes : List Byte)
  /-- A read of one byte of system memory (spec/20_memory.md R48). -/
  | load (address : Nat)
  /-- `WAIT`: read `STATUS` until `DONE` is 1. -/
  | wait
  deriving DecidableEq, Repr

end Sys2Proof
end

