-- ==== Sys2Proof/WellFormed.lean ====
section
/-! DEFINITION. The checks on commands, host operations and parameters that the spec states of their form. -/

namespace Sys2Proof

/-- Every command is well formed: a command word has no operand field (spec/30_encoding.md R54). -/
def Instr.wf (_ : Instr) : Bool := true

/-- A register access is 64 bits wide at a multiple of 8 (spec/10_state.md R21). -/
def accessWf (offset : BitVec 14) (width : AccessWidth) : Bool :=
  decide (width = .w64) && offset.toNat % 8 == 0

/-- The host operations inside the interface. -/
def HostOp.wf : HostOp → Bool
  | .read o w    => accessWf o w
  | .write o w _ => accessWf o w
  | .store _ _   => true
  | .load _      => true
  | .wait        => true

/-- The constraints of spec/00_scope.md R7 on the parameters. -/
def Config.wf (c : Config) : Bool :=
  decide (1 ≤ c.addrW) && decide (c.addrW ≤ 64) &&
  decide (c.maxSrcLen * 255 < 2 ^ 64) && decide (c.maxSrcLen < 2 ^ c.addrW)

end Sys2Proof
end

