-- ==== Sys2Proof/Decode.lean ====
section
/-! DEFINITION. The command word (spec/30_encoding.md R54, R55, R65): decoder, encoder, and the host operations
that issue a command or acknowledge a completion (R66). -/

namespace Sys2Proof

/-- Why a word is no command (R65); the engine completes it with ILLEGAL_CMD (spec/46_codec_commands.md R111). -/
inductive DecodeError where
  /-- Bits 63:8 are not zero. -/
  | mbzNotZero
  /-- `OPCODE` is 0x04 to 0xFF. -/
  | opcodeUnassigned
  deriving DecidableEq, Repr

/-- Field `OPCODE`, bits 7:0 (R54). -/
def opcodeField (w : Word) : BitVec 8 := w.extractLsb' 0 8

/-- Field `MBZ`, bits 63:8 (R54). -/
def mbzField (w : Word) : BitVec 56 := w.extractLsb' 8 56

/-- `OPCODE` of each command (R55). -/
def opcodeOf : Instr → BitVec 8
  | .nop        => 0x00
  | .compress   => 0x01
  | .decompress => 0x02
  | .analyze    => 0x03

/-- The command an `OPCODE` selects (R55). -/
def ofOpcode (b : BitVec 8) : Option Instr :=
  if b = 0x00 then some .nop
  else if b = 0x01 then some .compress
  else if b = 0x02 then some .decompress
  else if b = 0x03 then some .analyze
  else none

/-- The decoder of R55, total on 64-bit words. -/
def decode (w : Word) : Except DecodeError Instr :=
  if mbzField w = 0 then
    match ofOpcode (opcodeField w) with
    | some i => .ok i
    | none   => .error .opcodeUnassigned
  else .error .mbzNotZero

/-- `legal(w)` of R55. -/
def legal (w : Word) : Bool :=
  match decode w with
  | .ok _    => true
  | .error _ => false

/-- The full legal word of a command (R55): `MBZ` zero above `OPCODE`. -/
def encode (i : Instr) : Word := (0 : BitVec 56) ++ opcodeOf i

/-- What the decoder reads from a command word of `nbits` bits whose value is `w` (opcode_table.json numbers bit 0
the least significant): the bits above are zero. -/
def decodeTableWord (nbits w : Nat) : Option Instr :=
  match decode (BitVec.ofNat 64 (w % 2 ^ nbits)) with
  | .ok i    => some i
  | .error _ => none

/-- `CMD <MNEMONIC>` expands to `WR CMD, <legal word>` (R66). -/
def HostOp.issue (i : Instr) : HostOp := .write 0x010 .w64 (encode i)

/-- `CLR` expands to `WR STATUS, 0x2` (R66). -/
def HostOp.clear : HostOp := .write 0x018 .w64 0x2

end Sys2Proof
end

