-- ==== Sys2Proof/Machine/State.lean ====
section
/-! DEFINITION. The state of the machine (spec/10_state.md, INVENTORY.md '## State'), its stops, and reset. -/

namespace Sys2Proof.Machine

open Sys2Proof

/-- The engine's sequencer (R33). -/
inductive Phase where
  | idle | check | count | tree | codes | plan | writeHdr | encode | readHdr | decode | finish
  deriving DecidableEq, Repr

/-- The error codes of spec/60_exceptions.md R130; no other code is ever reported. -/
inductive ErrCode where
  | success
  | illegalCmd
  | badBuffer
  | outputOverflow
  | emptyInput
  | corruptPadding
  | undecodableStream
  | unsupportedSymbol
  | malformedHeader
  | lengthMismatch
  deriving DecidableEq, Repr

/-- A node of the tree arena (R34): `kind`, `tag` and the children are the constructor's. -/
inductive Node where
  | leaf (freq : Nat) (symbol : Byte)
  | internal (freq : Nat) (tag : Nat) (left right : Nat)
  deriving DecidableEq, Repr

/-- `len` addresses from `base`; no wrap (spec/20_memory.md R38). -/
structure Span where
  base : Nat
  len  : Nat
  deriving DecidableEq, Repr

/-- Whose step is next (spec/40_host_access.md R67), or the platform's reset (spec/70_reset_and_hazards.md R145). -/
inductive Turn where
  | engine
  | host
  | reset
  deriving DecidableEq, Repr

/-- The host registers (R20 to R28). `ID` is a constant (R23), `STATUS` and `CTRL` are kept by their fields. -/
structure Regs where
  irqEn    : Bool
  cmd      : Word
  busy     : Bool
  done     : Bool
  err      : ErrCode
  srcBase  : Word
  srcLen   : Word
  dstBase  : Word
  dstCap   : Word
  dstLen   : Word
  errInfo  : Word
  bitLen   : Word
  symCount : Word
  padCount : Word
  deriving DecidableEq, Repr

/-- The engine (R33, R34). The last seven fields are the loop variables of the rules' pseudocode (log entry 16). -/
structure Engine where
  phase    : Phase
  freq     : Table Word
  n        : Nat
  /-- `NODE`, the entries written so far. -/
  nodes    : List Node
  /-- `Q`, in increasing order. -/
  queue    : List Nat
  seq      : Nat
  root     : Nat
  /-- `CODE`; `CODE_LEN[s]` is the length of `CODE[s]` (log entry 21). -/
  codes    : Table Bits
  /-- `DECODE`, the newest entry first. -/
  decode   : List (Bits × Byte)
  /-- `T`. -/
  total    : Nat
  /-- `B`. -/
  bits     : Nat
  pad      : Nat
  /-- `P`. -/
  payload  : Nat
  shift    : Byte
  nb       : Nat
  out      : Nat
  cur      : Byte
  acc      : Bits
  accStart : Nat
  /-- `k`. -/
  emitted  : Nat
  /-- The index of the running loop: `i` (R74, R118), the header offset (R106), `t` (R123). -/
  idx      : Nat
  /-- `E` of R118. -/
  packed   : Nat
  /-- What is left of the code handed to `pack_code` (R97). -/
  pending  : Bits
  /-- The bytes of the header field read so far, as `from_be` of them (R106). -/
  field    : Nat
  /-- `s` of R106. -/
  sym      : Nat
  /-- `prev` of R106. -/
  prev     : Option Nat
  /-- Whether `CUR` holds the byte of the next stream bit (R99). -/
  fetched  : Bool
  deriving DecidableEq, Repr

/-- The core, the memory it works on, and what lies outside it: the host's program and the order of the agents'
steps (log entries 1, 19). `cfg` holds the parameters; no step changes it. -/
structure State where
  cfg       : Config
  regs      : Regs
  eng       : Engine
  /-- System memory: the bytes written so far, in increasing order of address. -/
  mem       : List Host.Cell
  /-- `some d`: every window word reads draw `d` (R32). -/
  winDraw   : Option Nat
  /-- The spans of engine writes the host is not promised to see yet, that of the last completed command first
  (spec/20_memory.md R48). -/
  unseen    : List Span
  /-- The draws made so far (log entry 9). -/
  draws     : Nat
  /-- The host's remaining operations. -/
  host      : List HostOp
  /-- The next turns; when it is empty no agent contests the engine (log entry 1). -/
  sched     : List Turn
  /-- What host reads returned, newest first. -/
  hostReads : List Word
  deriving DecidableEq, Repr

/-- Why the machine stops. None is the core's own: its errors are completions (spec/60_exceptions.md R133). -/
inductive Fault where
  /-- An access at an address outside the `2^ADDR_W` bytes (spec/20_memory.md R37): raised by a host store or load,
  and by an engine access in states no command reaches (R38). Safe: the machine stops. -/
  | noSuchAddress
  /-- A command's meaning was asked for a phase that is not in the command's sequence (spec/46_codec_commands.md
  R116, R120, R125); no run from reset reaches it. Safe: the machine stops. -/
  | phaseOutOfSequence
  /-- The TREE phase found `Q` empty; no command builds such a queue (spec/42_tree_builder.md R80). Safe: the
  machine stops. -/
  | emptyQueue
  deriving DecidableEq, Repr

/-- What the model gives no meaning. -/
inductive Refusal where
  /-- `exec` has no meaning for the command yet; raised by no arm. Safe. -/
  | notModelled (mnemonic : String)
  /-- A register access narrower than 64 bits or at an offset not a multiple of 8 (spec/10_state.md R21): raised by
  the host's read and write. Safe. -/
  | narrowAccess
  /-- A host access to a buffer of the running command (spec/70_reset_and_hazards.md R148): raised by the host's
  store and load. Safe where the host keeps its duty, unsafe for a host that breaks it (log entry 12). -/
  | busyBufferAccess
  /-- An access to a device whose reads have side effects (spec/20_memory.md R44): raised by engine and host. Safe. -/
  | sideEffectRegion
  /-- An access to the register aperture as memory (spec/70_reset_and_hazards.md R151): raised by engine and host.
  Safe. -/
  | apertureAsMemory
  /-- An access to another core's buffer (spec/60_exceptions.md R142): raised by engine and host. Safe. -/
  | otherCoreBuffer
  deriving DecidableEq, Repr

/-- Every register at its reset value (R36). -/
def Regs.reset : Regs where
  irqEn := false
  cmd := 0
  busy := false
  done := false
  err := .success
  srcBase := 0
  srcLen := 0
  dstBase := 0
  dstCap := 0
  dstLen := 0
  errInfo := 0
  bitLen := 0
  symCount := 0
  padCount := 0

/-- `PHASE = IDLE` and the tables zero (R36). The rest has no specified reset value (R36).
DESIGN CHOICE (log entry 15, unsafe): zero or empty. -/
def Engine.reset : Engine where
  phase := .idle
  freq := Vector.replicate 256 0
  n := 0
  nodes := []
  queue := []
  seq := 0
  root := 0
  codes := Vector.replicate 256 []
  decode := []
  total := 0
  bits := 0
  pad := 0
  payload := 0
  shift := 0
  nb := 0
  out := 0
  cur := 0
  acc := []
  accStart := 0
  emitted := 0
  idx := 0
  packed := 0
  pending := []
  field := 0
  sym := 0
  prev := none
  fetched := false

/-- The machine right after reset (R36, R145, R146): the core at its reset values, memory with nothing listed, no
host program and no schedule. -/
def State.reset : State where
  cfg := Config.default
  regs := Regs.reset
  eng := Engine.reset
  mem := []
  winDraw := none
  unseen := []
  draws := 0
  host := []
  sched := []
  hostReads := []

end Sys2Proof.Machine
end

