-- ==== Sys2Proof/Machine/Ops.lean ====
section
/-! DEFINITION. The shared operations: tables, system memory, the engine's one-byte accesses (spec/20_memory.md),
draws, completion, error termination and the return from it (spec/60_exceptions.md R133 to R135), the issue of a
command (spec/40_host_access.md R71), and running the engine. -/

namespace Sys2Proof.Machine

open Sys2Proof

/-! ## Tables with one entry per byte value -/

/-- Entry `b` of a table. -/
def tableGet {α : Type} (t : Table α) (b : Byte) : α := t[b.toNat]'(b.isLt)

/-- Table `t` with entry `b` set to `x`. -/
def tablePut {α : Type} (t : Table α) (b : Byte) (x : α) : Table α := Vector.set t b.toNat x b.isLt

/-- The 256 symbols in ascending order, the order of `for s in 0 .. 255` (spec/00_scope.md R14). -/
def allSymbols : List Byte := (List.range 256).map (BitVec.ofNat 8)

/-! ## System memory as a sorted list -/

/-- The byte stored at address `a`, none where nothing has been written. -/
def memFind : List Host.Cell → Nat → Option Byte
  | [], _ => none
  | (k, v) :: m, a => if k = a then some v else memFind m a

/-- Memory with byte `v` at address `a`. -/
def memPut : List Host.Cell → Nat → Byte → List Host.Cell
  | [], a, v => [(a, v)]
  | (k, w) :: m, a, v =>
    if a < k then (a, v) :: (k, w) :: m
    else if a = k then (a, v) :: m
    else (k, w) :: memPut m a v

/-- The canonical form: addresses strictly rising. An unlisted address holds no written byte, so no entry can equal
what it reads as (log entry 8). -/
def memWf : List Host.Cell → Bool
  | [] => true
  | [_] => true
  | (a, _) :: (b, w) :: m => decide (a < b) && memWf ((b, w) :: m)

/-- The byte of system memory at `a` (R37). What nothing has written is arbitrary and stable: a free value (log
entry 8). -/
def State.byteAt (s : State) (a : Nat) : Byte := (memFind s.mem a).getD (Config.initByte a)

/-- Whether an address lies in a span. -/
def Span.contains (p : Span) (a : Nat) : Bool := decide (p.base ≤ a) && decide (a < p.base + p.len)

/-- What lies in span `p` and not in span `q`: the part in front of `q` and the part behind it. -/
def Span.minus (p q : Span) : List Span :=
  if q.len = 0 then [p]
  else [⟨p.base, min p.len (q.base - p.base)⟩,
    ⟨max p.base (q.base + q.len), p.base + p.len - max p.base (q.base + q.len)⟩].filter fun r => decide (0 < r.len)

/-- Whether an address lies in a region. -/
def regionHas (r : Region) (a : Nat) : Bool := decide (r.base ≤ a) && decide (a < r.base + r.len)

/-- What answers at an address (R45). -/
def kindAt (c : Config) (a : Nat) : Option RegionKind := (c.regions.find? fun r => regionHas r a).map (·.kind)

/-! ## What one engine step answers -/

/-- The answer of one engine step or access. `stuck`: the engine has no step (R45). -/
inductive Answer (α : Type) where
  | ok (v : α)
  | stuck
  | fault (f : Fault)
  | refused (r : Refusal)
  deriving DecidableEq, Repr

/-- Go on with the value, if there is one. -/
def Answer.andThen {α β : Type} (x : Answer α) (f : α → Answer β) : Answer β :=
  match x with
  | .ok v => f v
  | .stuck => .stuck
  | .fault e => .fault e
  | .refused r => .refused r

/-- Whether memory at `a` takes the engine's access, a write when `isWrite` (R37, R45, R44, R151, R142). -/
def State.access (s : State) (a : Nat) (isWrite : Bool) : Answer Unit :=
  if 2 ^ s.cfg.addrW ≤ a then .fault .noSuchAddress
  else match kindAt s.cfg a with
    | some (.memory r w) => if (if isWrite then w else r) then .ok () else .stuck
    | some .sideEffects  => .refused .sideEffectRegion
    | some .aperture     => .refused .apertureAsMemory
    | some .otherCore    => .refused .otherCoreBuffer
    | none               => .stuck

/-- `MemRead(a, 1)` of the engine (R40). -/
def State.memRead (s : State) (a : Nat) : Answer Byte :=
  (s.access a false).andThen fun _ => .ok (s.byteAt a)

/-- `MemWrite(a, 1, v)` of the engine (R40). -/
def State.memWrite (s : State) (a : Nat) (v : Byte) : Answer State :=
  (s.access a true).andThen fun _ => .ok { s with mem := memPut s.mem a v }

/-- The address of source byte `i` (R37, R38). -/
def State.srcAddr (s : State) (i : Nat) : Nat := s.regs.srcBase.toNat + i

/-- The address of destination byte `o` (R37, R38). -/
def State.dstAddr (s : State) (o : Nat) : Nat := s.regs.dstBase.toNat + o

/-! ## Draws -/

/-- Memory with the `len` bytes from `base` set to draw `d`. -/
def memDraw (d base : Nat) : Nat → List Host.Cell → List Host.Cell
  | 0, m => m
  | k + 1, m => memPut (memDraw d base k m) (base + k) (Config.drawByte d (base + k))

/-- The first `len` bytes of the destination, as far as the address space goes, hold unconstrained values (R134,
spec/70_reset_and_hazards.md R145). -/
def State.drawDestination (s : State) (len : Nat) : State :=
  { s with
    mem := memDraw s.draws s.regs.dstBase.toNat (min len (2 ^ s.cfg.addrW - s.regs.dstBase.toNat)) s.mem
    draws := s.draws + 1 }

/-- Every window word holds an unconstrained value, fixed from now on (spec/10_state.md R32). -/
def State.drawWindows (s : State) : State := { s with winDraw := some s.draws, draws := s.draws + 1 }

/-- The windows show the engine's tables (R32). -/
def State.showTables (s : State) : State := { s with winDraw := none }

/-! ## Completion -/

/-- The command that ends wrote `len` destination bytes, which the host is not promised to see before it has read
`DONE = 1` (spec/20_memory.md R48; log entry 13). -/
def State.publish (s : State) (len : Nat) : State :=
  { s with
    unseen := match s.unseen with
      | ⟨_, 0⟩ :: rest => ⟨s.regs.dstBase.toNat, len⟩ :: rest
      | spans => ⟨s.regs.dstBase.toNat, len⟩ :: spans }

/-- The host has read `STATUS` with `DONE = 1`: it sees every write of the last command, also where an earlier command
whose completion it has not read wrote too (R48; log entry 13). -/
def State.observeDone (s : State) : State :=
  { s with
    unseen := match s.unseen with
      | p :: rest => ⟨p.base, 0⟩ :: rest.flatMap fun q => q.minus p
      | [] => [] }

/-- The result registers of a command (spec/10_state.md R28). -/
def State.setResults (s : State) (dstLen bitLen symCount padCount : Nat) : State :=
  { s with regs := { s.regs with
      dstLen := BitVec.ofNat 64 dstLen
      bitLen := BitVec.ofNat 64 bitLen
      symCount := BitVec.ofNat 64 symCount
      padCount := BitVec.ofNat 64 padCount } }

/-- Successful completion (spec/46_codec_commands.md R112). -/
def State.complete (s : State) : State :=
  ({ s with
    regs := { s.regs with busy := false, done := true, err := .success, errInfo := 0 }
    eng := { s.eng with phase := .idle } } : State).publish s.regs.dstLen.toNat

/-- The errors after which the planned range holds unconstrained values (spec/60_exceptions.md R134). -/
def ErrCode.spoilsDestination : ErrCode → Bool
  | .unsupportedSymbol | .lengthMismatch | .undecodableStream => true
  | _ => false

/-- The errors after which the windows are as before the issue (spec/10_state.md R32). -/
def ErrCode.keepsWindows : ErrCode → Bool
  | .illegalCmd | .badBuffer => true
  | _ => false

/-- The register writes of error termination (spec/60_exceptions.md R133). -/
def State.endWithError (s : State) (code : ErrCode) (info : Nat) : State :=
  { s with
    regs := { s.regs with
      err := code
      errInfo := BitVec.ofNat 64 info
      dstLen := 0
      bitLen := 0
      symCount := 0
      padCount := 0
      busy := false
      done := true }
    eng := { s.eng with phase := .idle } }

/-- `raise Error(code, info)`: error termination (R133), with the destination of R134 and the windows of R32.
`planned` is the number of bytes of the command's planned range. -/
def State.raise (s : State) (code : ErrCode) (info planned : Nat) : State :=
  let ended := s.endWithError code info
  let dest := if code.spoilsDestination then (ended.drawDestination planned).publish planned else ended.publish 0
  if code.keepsWindows then dest else dest.drawWindows

/-- Return from an error or a success, and from nothing else (spec/60_exceptions.md R135): the host's write of `v`
to `STATUS` (spec/40_host_access.md R70). -/
def State.acknowledge (s : State) (v : Word) : State :=
  if !s.regs.busy && v.getLsbD 1 then { s with regs := { s.regs with done := false } } else s

/-- The issue of a command word (spec/40_host_access.md R71). The operand registers are latched by being left alone
while `BUSY = 1` (spec/10_state.md R22, R27; log entry 4). -/
def State.issue (s : State) (w : Word) : State :=
  { s with
    regs := { s.regs with
      cmd := w
      busy := true
      done := false
      err := .success
      dstLen := 0
      errInfo := 0
      bitLen := 0
      symCount := 0
      padCount := 0 }
    eng := { s.eng with phase := .check } }

/-- `PHASE <- p` (spec/00_scope.md R13). -/
def State.goto (s : State) (p : Phase) : State := { s with eng := { s.eng with phase := p } }

/-! ## Running the engine -/

/-- What an engine step leaves: a stuck engine stays where it is, `BUSY = 1` (spec/20_memory.md R45). -/
def settle (s : State) : Answer State → Host.Outcome State Fault Refusal
  | .ok t => .next t
  | .stuck => .next s
  | .fault f => .fault f
  | .refused r => .refused r

/-- Engine steps until the command has ended, the engine is stuck, or `k` steps are made. -/
def runToEnd (f : State → Answer State) : Nat → State → Host.Outcome State Fault Refusal
  | 0, s => .next s
  | k + 1, s =>
    if s.eng.phase = .idle then .next s
    else match f s with
      | .ok t => runToEnd f k t
      | .stuck => .next s
      | .fault e => .fault e
      | .refused r => .refused r

/-- More steps than any command on the latched buffers takes (spec/46_codec_commands.md R127): COMPRESS makes fewer
than `257 L + 4000`, DECOMPRESS fewer than `17 M + 4000`. -/
def State.allSteps (s : State) : Nat := 512 * (s.regs.srcLen.toNat + 16)

/-- The engine's turn on a command whose single step is `f`: one step when the schedule says so, and every step to
the command's end when nothing is scheduled against it (log entries 1, 3). -/
def State.engineRun (s : State) (f : State → Answer State) : Host.Outcome State Fault Refusal :=
  match s.sched with
  | .engine :: rest => settle { s with sched := rest } (f { s with sched := rest })
  | _ => runToEnd f s.allSteps s

end Sys2Proof.Machine
end

