-- ==== Sys2Proof/Machine/Flags.lean ====
section
/-! DEFINITION. The flags and the words they are read as: `ID`, `CTRL`, `STATUS` (spec/10_state.md R23, R24, R26), the
error codes (spec/60_exceptions.md R130) and the interrupt output (R138). -/

namespace Sys2Proof.Machine

open Sys2Proof

/-- `ID_VALUE` (R23). -/
def idWord : Word := 0x0000000148554646

/-- A flag as a 64-bit number. -/
def flagWord (b : Bool) : Word := if b then 1 else 0

/-- The code reported in `STATUS.ERR` (R130). -/
def ErrCode.code : ErrCode → BitVec 8
  | .success           => 0x00
  | .illegalCmd        => 0x01
  | .badBuffer         => 0x02
  | .outputOverflow    => 0x03
  | .emptyInput        => 0x10
  | .corruptPadding    => 0x11
  | .undecodableStream => 0x12
  | .unsupportedSymbol => 0x13
  | .malformedHeader   => 0x20
  | .lengthMismatch    => 0x21

/-- `CTRL`: `IRQ_EN` in bit 0, the rest reads 0 (R24). -/
def Regs.ctrlWord (r : Regs) : Word := flagWord r.irqEn

/-- `STATUS`: `BUSY` in bit 0, `DONE` in bit 1, `ERR` in bits 15:8, the rest reads 0 (R26). -/
def Regs.statusWord (r : Regs) : Word :=
  flagWord r.busy ||| (flagWord r.done <<< 1) ||| ((r.err.code.setWidth 64) <<< 8)

/-- The output `irq` (spec/10_state.md R35, spec/60_exceptions.md R138). -/
def State.irq (s : State) : Bool := s.regs.done && s.regs.irqEn

/-- `CTRL.IRQ_EN <- v[0]` (spec/40_host_access.md R69). -/
def Regs.writeCtrl (r : Regs) (v : Word) : Regs := { r with irqEn := v.getLsbD 0 }

end Sys2Proof.Machine
end

