-- ==== Sys2Proof/Machine/Operands.lean ====
section
/-! DEFINITION. The operand forms: the buffers and their checks (spec/46_codec_commands.md R110), the register map and
the windows (spec/10_state.md R20, R29 to R31), and the big-endian fields of the container
(spec/30_encoding.md R57). -/

namespace Sys2Proof.Machine

open Sys2Proof

/-! ## Buffers -/

/-- The source buffer (spec/10_state.md R27). -/
def Regs.source (r : Regs) : Span := ⟨r.srcBase.toNat, r.srcLen.toNat⟩

/-- The destination buffer (spec/10_state.md R27). -/
def Regs.dest (r : Regs) : Span := ⟨r.dstBase.toNat, r.dstCap.toNat⟩

/-- Two ranges share an address; an empty range shares none (R110). -/
def Span.overlaps (p q : Span) : Bool :=
  decide (0 < p.len) && decide (0 < q.len) &&
  decide (p.base < q.base + q.len) && decide (q.base < p.base + p.len)

/-- `check_src()` of R110: the `ERR_INFO` of the BAD_BUFFER it raises. -/
def State.checkSrc (s : State) : Option Nat :=
  if 2 ^ s.cfg.addrW < s.regs.source.base + s.regs.source.len then some 1
  else if s.cfg.maxSrcLen < s.regs.source.len then some 2
  else none

/-- `check_dst()` of R110. -/
def State.checkDst (s : State) : Option Nat :=
  if 2 ^ s.cfg.addrW < s.regs.dest.base + s.regs.dest.len then some 3
  else if s.regs.source.overlaps s.regs.dest then some 4
  else none

/-- `check_src(); check_dst()`, the first failure wins (spec/60_exceptions.md R132). -/
def State.checkBoth (s : State) : Option Nat :=
  match s.checkSrc with
  | some k => some k
  | none => s.checkDst

/-! ## The register map -/

/-- The offset of a register (R20). -/
def regOffset : Reg → Nat
  | .id       => 0x000
  | .ctrl     => 0x008
  | .cmd      => 0x010
  | .status   => 0x018
  | .srcBase  => 0x020
  | .srcLen   => 0x028
  | .dstBase  => 0x030
  | .dstCap   => 0x038
  | .dstLen   => 0x040
  | .errInfo  => 0x048
  | .bitLen   => 0x050
  | .symCount => 0x058
  | .padCount => 0x060

/-- Every register. -/
def allRegs : List Reg :=
  [.id, .ctrl, .cmd, .status, .srcBase, .srcLen, .dstBase, .dstCap, .dstLen, .errInfo, .bitLen, .symCount, .padCount]

/-- The register at an offset (R20). -/
def regAt (o : Nat) : Option Reg := allRegs.find? fun r => regOffset r == o

/-- The word of a register (R20, R68). -/
def Regs.word (r : Regs) : Reg → Word
  | .id       => idWord
  | .ctrl     => r.ctrlWord
  | .cmd      => r.cmd
  | .status   => r.statusWord
  | .srcBase  => r.srcBase
  | .srcLen   => r.srcLen
  | .dstBase  => r.dstBase
  | .dstCap   => r.dstCap
  | .dstLen   => r.dstLen
  | .errInfo  => r.errInfo
  | .bitLen   => r.bitLen
  | .symCount => r.symCount
  | .padCount => r.padCount

/-! ## The windows -/

/-- A bit string read as a number, first bit most significant. -/
def bitsToNat (bs : Bits) : Nat := bs.foldl (fun v b => 2 * v + b.toNat) 0

/-- Word `w` of the `CODE_BITS` entry of a code: bit `k` of the code is in word `k div 64` at position
`63 - k mod 64`, and the bits beyond the code read 0 (R31). -/
def codeBitsWord (c : Bits) (w : Nat) : Word :=
  BitVec.ofNat 64 (bitsToNat ((List.range 64).map fun j => c.getD (64 * w + j) false))

/-- The window word at an offset in 0x1000 .. 0x3FFF (R29, R30, R31). -/
def Engine.windowWord (e : Engine) (o : Nat) : Word :=
  if o < 0x1800 then tableGet e.freq (BitVec.ofNat 8 ((o - 0x1000) / 8))
  else if o < 0x2000 then BitVec.ofNat 64 (tableGet e.codes (BitVec.ofNat 8 ((o - 0x1800) / 8))).length
  else codeBitsWord (tableGet e.codes (BitVec.ofNat 8 ((o - 0x2000) / 32))) ((o - 0x2000) / 8 % 4)

/-! ## The container's fields -/

/-- The `k`-byte big-endian form of a number (spec/00_scope.md R12 `be_N`, spec/30_encoding.md R57). -/
def beBytes (k v : Nat) : List Byte := (List.range k).map fun j => BitVec.ofNat 8 (v / 256 ^ (k - 1 - j))

/-- `from_be` (R12): one more byte of a big-endian field. -/
def fromBeStep (v : Nat) (b : Byte) : Nat := v * 256 + b.toNat

/-- The header length `H = 6 + 12n` (spec/30_encoding.md R56). -/
def headerLen (n : Nat) : Nat := 6 + 12 * n

/-- The padding of `B` bits (spec/30_encoding.md R62, spec/44_bit_packer.md R96). -/
def padOf (b : Nat) : Nat := (8 - b % 8) % 8

end Sys2Proof.Machine
end

