-- ==== Sys2Proof/Machine/Frequency.lean ====
section
/-! DEFINITION. The FrequencyTable stage, the COUNT phase (spec/41_frequency_table.md). -/

namespace Sys2Proof.Machine

open Sys2Proof

/-- The table of no symbols (R76). -/
def zeroFreq : Table Word := Vector.replicate 256 0

/-- The symbols with `FREQ[s] >= 1`, ascending. -/
def present (t : Table Word) : List Byte := allSymbols.filter fun s => tableGet t s != 0

/-- The number of symbols with `FREQ[s] >= 1` (R74 `n`). -/
def distinct (t : Table Word) : Nat := (present t).length

/-- `FREQ[b] <- FREQ[b] + 1` (R74). -/
def countByte (t : Table Word) (b : Byte) : Table Word := tablePut t b (tableGet t b + 1)

/-- FrequencyTable.build as a function of the bytes (R74, R77). -/
def countBytes (bytes : List Byte) : Table Word := bytes.foldl countByte zeroFreq

/-- The sum of the counts. -/
def freqSum (t : Table Word) : Nat := (allSymbols.map fun s => (tableGet t s).toNat).sum

/-- Entering COUNT: every entry is cleared first (R74, R77). -/
def Engine.startCount (e : Engine) : Engine := { e with phase := .count, freq := zeroFreq, idx := 0 }

/-- The windows' tables cleared, the empty input's terminal case (R76). -/
def Engine.clearTables (e : Engine) : Engine :=
  { e with
    freq := zeroFreq
    codes := Vector.replicate 256 []
    n := 0
    total := 0
    bits := 0
    pad := 0
    payload := 0 }

end Sys2Proof.Machine
end

