-- ==== Sys2Proof/Machine/Tree.lean ====
section
/-! DEFINITION. The TreeBuilder stage, the TREE phase (spec/42_tree_builder.md). -/

namespace Sys2Proof.Machine

open Sys2Proof

/-- `NODE[x].freq`. -/
def Node.freq : Node → Nat
  | .leaf f _         => f
  | .internal f _ _ _ => f

/-- `key(x) = (x.freq, x.kind, x.tag)` (R79). -/
def Node.key : Node → Nat × Nat × Nat
  | .leaf f s         => (f, 0, s.toNat)
  | .internal f t _ _ => (f, 1, t)

/-- The lexicographic order of keys (R79). -/
def keyLt (x y : Nat × Nat × Nat) : Bool :=
  decide (x.1 < y.1) ||
  (x.1 == y.1 && (decide (x.2.1 < y.2.1) || (x.2.1 == y.2.1 && decide (x.2.2 < y.2.2))))

/-- `NODE[x]`; every index the engine holds is in the arena (R84). -/
def nodeAt (nodes : List Node) (x : Nat) : Node := nodes.getD x (.leaf 0 0)

/-- The element of `x :: q` with the smallest key (R79). -/
def minFrom (nodes : List Node) : Nat → List Nat → Nat
  | x, [] => x
  | x, y :: q =>
    if keyLt (nodeAt nodes y).key (nodeAt nodes x).key then minFrom nodes y q else minFrom nodes x q

/-- `min_key(Q)`, none for the empty set. -/
def minKey (nodes : List Node) : List Nat → Option Nat
  | [] => none
  | x :: q => some (minFrom nodes x q)

/-- The leaves, in ascending symbol order (R78). -/
def leaves (t : Table Word) : List Node := (present t).map fun s => .leaf (tableGet t s).toNat s

/-- The internal node of a merge: the first extracted is the left child (R80, R81). -/
def mergeNode (nodes : List Node) (seq a b : Nat) : Node :=
  .internal ((nodeAt nodes a).freq + (nodeAt nodes b).freq) seq a b

/-- Leaf creation, and `Q <- {0 .. n-1}`, `SEQ <- 0` (R78, R80). -/
def Engine.startTree (e : Engine) : Engine :=
  { e with phase := .tree, nodes := leaves e.freq, queue := List.range e.n, seq := 0 }

/-- One merge of nodes `a` and `b`, the first and second extracted (R80). The new node's index `n + SEQ` is the number
of nodes written so far, larger than every index in `Q`. -/
def Engine.merge (e : Engine) (a b : Nat) : Engine :=
  { e with
    nodes := e.nodes ++ [mergeNode e.nodes e.seq a b]
    queue := (e.queue.erase a).erase b ++ [e.nodes.length]
    seq := e.seq + 1 }

/-- `ROOT <- x`, and on to CODES. -/
def Engine.setRoot (e : Engine) (x : Nat) : Engine := { e with root := x, phase := .codes }

/-- One step of the TREE phase: a merge, or the root (R80, R82, R83). -/
def treeStep (s : State) : Answer State :=
  if s.eng.n = 0 then .ok (s.raise .emptyInput 0 0)
  else if s.eng.n = 1 then .ok { s with eng := s.eng.setRoot 0 }
  else match minKey s.eng.nodes s.eng.queue with
    | none => .fault .emptyQueue
    | some a =>
      match minKey s.eng.nodes (s.eng.queue.erase a) with
      | none => .ok { s with eng := s.eng.setRoot a }
      | some b => .ok { s with eng := s.eng.merge a b }

/-- The arena, `Q` and `SEQ` after at most `k` merges. -/
def mergeAll : Nat → List Node → List Nat → Nat → List Node × List Nat
  | 0, nodes, q, _ => (nodes, q)
  | k + 1, nodes, q, seq =>
    match minKey nodes q with
    | none => (nodes, q)
    | some a =>
      match minKey nodes (q.erase a) with
      | none => (nodes, q)
      | some b =>
        mergeAll k (nodes ++ [mergeNode nodes seq a b]) ((q.erase a).erase b ++ [nodes.length]) (seq + 1)

/-- TreeBuilder.build as a function of the table (R80, R86): the arena and `ROOT`. -/
def buildTree (t : Table Word) : List Node × Nat :=
  let r := mergeAll (distinct t) (leaves t) (List.range (distinct t)) 0
  (r.1, r.2.headD 0)

end Sys2Proof.Machine
end

