-- ==== Sys2Proof/Machine/Codes.lean ====
section
/-! DEFINITION. The CodeTable stage, the CODES phase, and the lookups (spec/43_code_table.md). -/

namespace Sys2Proof.Machine

open Sys2Proof

/-- `visit(x, p)` of R87: each leaf under node `x` with its path. The fuel bounds the depth by the arena's size. -/
def visit (nodes : List Node) : Nat → Nat → Bits → List (Byte × Bits)
  | 0, _, _ => []
  | k + 1, x, p =>
    match nodeAt nodes x with
    | .leaf _ s => [(s, p)]
    | .internal _ _ l r => visit nodes k l (p ++ [false]) ++ visit nodes k r (p ++ [true])

/-- The assignments of CodeTable.derive (R87): a tree of one leaf has the code "0" (R88). -/
def assignments (nodes : List Node) (root : Nat) : List (Byte × Bits) :=
  match nodeAt nodes root with
  | .leaf _ s => [(s, [false])]
  | .internal _ _ _ _ => visit nodes nodes.length root []

/-- `CODE` after the assignments, from the empty table (R87). -/
def codeTable (as : List (Byte × Bits)) : Table Bits :=
  as.foldl (fun t a => tablePut t a.1 a.2) (Vector.replicate 256 [])

/-- `DECODE` after the assignments, from the empty map; the newest entry comes first (R87). -/
def decodeMap (as : List (Byte × Bits)) : List (Bits × Byte) := as.foldl (fun d a => (a.2, a.1) :: d) []

/-- Reverse lookup `DECODE[c]` (R94). -/
def reverseLookup : List (Bits × Byte) → Bits → Option Byte
  | [], _ => none
  | (c, s) :: d, x => if c = x then some s else reverseLookup d x

/-- `CODE_LEN[s]` (R34, log entry 21). -/
def codeLen (codes : Table Bits) (s : Byte) : Nat := (tableGet codes s).length

/-- CodeTable.derive (R87). -/
def Engine.derive (e : Engine) : Engine :=
  { e with
    codes := codeTable (assignments e.nodes e.root)
    decode := decodeMap (assignments e.nodes e.root) }

/-- The CODES phase, one step; what follows depends on the command (R87). -/
def codesStep (after : Engine → Engine) (s : State) : Answer State := .ok { s with eng := after s.eng.derive }

/-- The code table of a frequency table, as a function (R86, R87). -/
def codesOf (t : Table Word) : Table Bits := codeTable (assignments (buildTree t).1 (buildTree t).2)

/-- `B`, the payload bit length (R92). -/
def payloadBits (t : Table Word) (codes : Table Bits) : Nat :=
  (allSymbols.map fun s => (tableGet t s).toNat * codeLen codes s).sum

end Sys2Proof.Machine
end

