-- ==== Sys2Proof/Machine/Packer.lean ====
section
/-! DEFINITION. The BitPacker stage: pack and unpack as functions and as the engine runs them
(spec/44_bit_packer.md). -/

namespace Sys2Proof.Machine

open Sys2Proof

/-- A byte from its bits, most significant first (spec/30_encoding.md R62). -/
def byteOfBits (bs : Bits) : Byte := BitVec.ofNat 8 (bitsToNat bs)

/-- The bits of a byte, most significant first (R98). -/
def bitsOfByte (b : Byte) : Bits := (List.range 8).map fun q => b.getLsbD (7 - q)

/-- Groups of 8 bits as bytes, `k` of them. -/
def packBytes : Nat → Bits → List Byte
  | 0, _ => []
  | k + 1, bs => byteOfBits (bs.take 8) :: packBytes k (bs.drop 8)

/-- pack, the function (R95): the payload and `pad`. -/
def pack (bs : Bits) : List Byte × Nat :=
  let pad := padOf bs.length
  (packBytes ((bs.length + pad) / 8) (bs ++ List.replicate pad false), pad)

/-- unpack, the function (R98): none is CORRUPT_PADDING. -/
def unpack (payload : List Byte) (pad : Nat) : Option Bits :=
  if 8 * payload.length < pad then none
  else some ((payload.flatMap bitsOfByte).take (8 * payload.length - pad))

/-- `pack_start()` with `OUT <- H` (R97), entering ENCODE with `E <- 0` and `i <- 0`
(spec/46_codec_commands.md R118). -/
def Engine.startEncode (e : Engine) : Engine :=
  { e with
    phase := .encode
    shift := 0
    nb := 0
    out := headerLen e.n
    packed := 0
    idx := 0
    pending := [] }

/-- `SHIFT` and `NB` after a bit (R97). -/
def Engine.shiftIn (e : Engine) (x : Bool) : Engine :=
  { e with shift := BitVec.ofNat 8 (2 * e.shift.toNat + x.toNat), nb := e.nb + 1 }

/-- `SHIFT <- 0; NB <- 0; OUT <- OUT + 1` after a payload byte is written (R97). -/
def Engine.byteDone (e : Engine) : Engine := { e with shift := 0, nb := 0, out := e.out + 1 }

/-- `pack_bit(x)` (R97): the eighth bit writes the byte. -/
def packBit (x : Bool) (s : State) : Answer State :=
  let e := s.eng.shiftIn x
  if e.nb = 8 then
    (s.memWrite (s.dstAddr e.out) e.shift).andThen fun t => .ok { t with eng := e.byteDone }
  else .ok { s with eng := e }

/-- `pack_finish()` (R97): the last partial byte, with zero padding bits. -/
def packFinish (s : State) : Answer State :=
  if 0 < s.eng.nb then
    (s.memWrite (s.dstAddr s.eng.out) (BitVec.ofNat 8 (s.eng.shift.toNat * 2 ^ (8 - s.eng.nb)))).andThen fun t =>
      .ok { t with eng := { t.eng with out := t.eng.out + 1 } }
  else .ok s

end Sys2Proof.Machine
end

