-- ==== Sys2Proof/Machine/Container.lean ====
section
/-! DEFINITION. The container's serializer (WRITE_HDR) and deserializer (READ_HDR) (spec/45_container.md). -/

namespace Sys2Proof.Machine

open Sys2Proof

/-! ## Serializer -/

/-- One header entry: the symbol as `be_32`, the frequency as `be_64` (R103). -/
def entryBytes (t : Table Word) (s : Byte) : List Byte := beBytes 4 s.toNat ++ beBytes 8 (tableGet t s).toNat

/-- The header bytes in order (R103; R104 with the empty table and `emptyFlag = 1`). -/
def headerBytes (t : Table Word) (n pad : Nat) (empty : Bool) : List Byte :=
  beBytes 4 n ++ (present t).flatMap (entryBytes t) ++ [BitVec.ofNat 8 pad, if empty then 1 else 0]

/-- The artifact of a byte sequence, as a function (R103, R104, spec/30_encoding.md R56, R60). -/
def artifact (bytes : List Byte) : List Byte :=
  let t := countBytes bytes
  let p := pack (bytes.flatMap (tableGet (codesOf t)))
  headerBytes t (distinct t) p.2 bytes.isEmpty ++ p.1

/-- Entering WRITE_HDR: `OUT <- 0` (R103). -/
def Engine.startHeader (e : Engine) : Engine := { e with phase := .writeHdr, out := 0 }

/-- Whether the latched source is empty: the artifact is then the empty one (R104). -/
def State.emptySource (s : State) : Bool := s.regs.srcLen == 0

/-- One step of WRITE_HDR: `emit` of the byte at `OUT`, or on to what follows the header (R103, R104). -/
def writeHdrStep (s : State) : Answer State :=
  match (headerBytes s.eng.freq s.eng.n s.eng.pad s.emptySource)[s.eng.out]? with
  | some b =>
    (s.memWrite (s.dstAddr s.eng.out) b).andThen fun t => .ok { t with eng := { t.eng with out := t.eng.out + 1 } }
  | none => if s.emptySource then .ok (s.goto .finish) else .ok { s with eng := s.eng.startEncode }

/-! ## Deserializer -/

/-- Entering READ_HDR: every `FREQ[s]` is cleared (R106). -/
def Engine.startRead (e : Engine) : Engine :=
  { e with phase := .readHdr, freq := zeroFreq, idx := 0, field := 0, total := 0, prev := none }

/-- A header field is complete: the next one starts. -/
def Engine.nextField (e : Engine) : Engine := { e with field := 0 }

/-- After `symbolCount`: steps 2 and 3 of R106 (`m` is the artifact's length). -/
def afterCount (m v : Nat) (s : State) : State :=
  if 256 < v then s.raise .malformedHeader 0 0
  else if m < headerLen v then s.raise .malformedHeader m 0
  else { s with eng := { s.eng.nextField with n := v, total := 0, prev := none } }

/-- After `symbol[i]`: steps 4 and 5 of R106. -/
def afterSymbol (i v : Nat) (s : State) : State :=
  if 255 < v then s.raise .malformedHeader (4 + 12 * i) 0
  else if s.eng.prev.any (fun p => v ≤ p) then s.raise .malformedHeader (4 + 12 * i) 0
  else { s with eng := { s.eng.nextField with sym := v } }

/-- After `freq[i]`: steps 6 and 7 of R106. -/
def afterFreq (i f : Nat) (s : State) : State :=
  if f = 0 then s.raise .malformedHeader (8 + 12 * i) 0
  else if s.cfg.maxSrcLen < s.eng.total + f then s.raise .malformedHeader (8 + 12 * i) 0
  else { s with eng := { s.eng.nextField with
    total := s.eng.total + f
    freq := tablePut s.eng.freq (BitVec.ofNat 8 s.eng.sym) (BitVec.ofNat 64 f)
    prev := some s.eng.sym } }

/-- After `emptyFlag`: steps 8 to 12 of R106, with the results EMPTY (spec/46_codec_commands.md R121) and TABLE. -/
def afterFlag (m flag : Nat) (s : State) : State :=
  let n := s.eng.n
  let pad := s.eng.pad
  let p := m - headerLen n
  if 7 < pad then s.raise .corruptPadding (4 + 12 * n) 0
  else if 1 < flag then s.raise .malformedHeader (5 + 12 * n) 0
  else if flag = 1 then
    if n ≠ 0 ∨ pad ≠ 0 then s.raise .malformedHeader (5 + 12 * n) 0
    else if p ≠ 0 then s.raise .malformedHeader (6 + 12 * n) 0
    else { s with eng := { s.eng with payload := 0, codes := Vector.replicate 256 [], phase := .finish } }
  else if n = 0 then s.raise .emptyInput 0 0
  else if 8 * p < pad then s.raise .corruptPadding (4 + 12 * n) 0
  else { s with eng := { s.eng with payload := p, phase := .plan } }

/-- What the header byte at offset `o` does, once it is read: `v` is its field so far (R106). -/
def headerByte (o v : Nat) (b : Byte) (s : State) : State :=
  let m := s.regs.srcLen.toNat
  if o < 3 then s
  else if o = 3 then afterCount m v s
  else if o < 4 + 12 * s.eng.n then
    let i := (o - 4) / 12
    if (o - 4) % 12 = 3 then afterSymbol i v s
    else if (o - 4) % 12 = 11 then afterFreq i v s
    else s
  else if o = 4 + 12 * s.eng.n then { s with eng := { s.eng.nextField with pad := b.toNat } }
  else afterFlag m b.toNat s

/-- One step of READ_HDR: step 1 of R106 before any read, else one byte. -/
def readHdrStep (s : State) : Answer State :=
  let o := s.eng.idx
  if s.regs.srcLen.toNat < 4 then .ok (s.raise .malformedHeader s.regs.srcLen.toNat 0)
  else
    (s.memRead (s.srcAddr o)).andThen fun b =>
      let v := fromBeStep s.eng.field b
      .ok (headerByte o v b { s with eng := { s.eng with idx := o + 1, field := v } })

/-! ## Deserializer as a function of the artifact -/

/-- A big-endian field as a number (spec/00_scope.md R12 `from_be`). -/
def fromBe (bs : List Byte) : Nat := bs.foldl fromBeStep 0

/-- The field of `k` bytes at offset `o` of artifact `a`. -/
def fieldAt (a : List Byte) (o k : Nat) : Nat := fromBe ((a.drop o).take k)

/-- What the deserializer finds (R106). -/
inductive HeaderResult where
  | error (code : ErrCode) (info : Nat)
  | empty
  | table (freq : Table Word) (n total pad payload : Nat)
  deriving DecidableEq, Repr

/-- Steps 4 to 7 of R106 on entries `i ..`, `k` of them left; the error's `ERR_INFO`, or the table and `T`. -/
def parseEntries (maxLen : Nat) (a : List Byte) :
    Nat → Nat → Table Word → Nat → Option Nat → Except Nat (Table Word × Nat)
  | 0, _, t, total, _ => .ok (t, total)
  | k + 1, i, t, total, prev =>
    let s := fieldAt a (4 + 12 * i) 4
    let f := fieldAt a (8 + 12 * i) 8
    if 255 < s then .error (4 + 12 * i)
    else if prev.any (fun p => s ≤ p) then .error (4 + 12 * i)
    else if f = 0 then .error (8 + 12 * i)
    else if maxLen < total + f then .error (8 + 12 * i)
    else parseEntries maxLen a k (i + 1) (tablePut t (BitVec.ofNat 8 s) (BitVec.ofNat 64 f)) (total + f) (some s)

/-- Steps 8 to 12 of R106. -/
def parseTail (m n pad flag : Nat) (t : Table Word) (total : Nat) : HeaderResult :=
  let p := m - headerLen n
  if 7 < pad then .error .corruptPadding (4 + 12 * n)
  else if 1 < flag then .error .malformedHeader (5 + 12 * n)
  else if flag = 1 then
    if n ≠ 0 ∨ pad ≠ 0 then .error .malformedHeader (5 + 12 * n)
    else if p ≠ 0 then .error .malformedHeader (6 + 12 * n)
    else .empty
  else if n = 0 then .error .emptyInput 0
  else if 8 * p < pad then .error .corruptPadding (4 + 12 * n)
  else .table t n total pad p

/-- The deserializer as a function of the artifact `a` (R106). -/
def parseHeader (maxLen : Nat) (a : List Byte) : HeaderResult :=
  let m := a.length
  let n := fieldAt a 0 4
  if m < 4 then .error .malformedHeader m
  else if 256 < n then .error .malformedHeader 0
  else if m < headerLen n then .error .malformedHeader m
  else match parseEntries maxLen a n 0 zeroFreq 0 none with
    | .error o => .error .malformedHeader o
    | .ok (t, total) => parseTail m n (fieldAt a (4 + 12 * n) 1) (fieldAt a (5 + 12 * n) 1) t total

end Sys2Proof.Machine
end

