-- ==== Sys2Proof/Machine/Decoder.lean ====
section
/-! DEFINITION. The decode walk, the DECODE phase of DECOMPRESS (spec/46_codec_commands.md R123, spec/44_bit_packer.md
R99). -/

namespace Sys2Proof.Machine

open Sys2Proof

/-- `N`, the number of stream bits (R99). -/
def Engine.streamBits (e : Engine) : Nat := 8 * e.payload - e.pad

/-- Entering DECODE (R123). -/
def Engine.startDecode (e : Engine) : Engine :=
  { e with phase := .decode, acc := [], accStart := 0, emitted := 0, idx := 0, fetched := false }

/-- `bit(t)` from the payload byte in `CUR` (R99). -/
def Engine.streamBit (e : Engine) : Bool := e.cur.getLsbD (7 - e.idx % 8)

/-- Past bit `t`: the next byte is fetched when its first bit is asked for (R99). -/
def Engine.nextBit (e : Engine) : Engine :=
  { e with idx := e.idx + 1, fetched := decide ((e.idx + 1) % 8 ≠ 0) }

/-- The accumulator has matched at bit `t`: one symbol emitted (R123). -/
def Engine.matched (e : Engine) : Engine :=
  { e.nextBit with emitted := e.emitted + 1, acc := [], accStart := e.idx + 1 }

/-- One bit of the walk (R123). -/
def walkBit (s : State) : Answer State :=
  let acc := s.eng.acc ++ [s.eng.streamBit]
  match reverseLookup s.eng.decode acc with
  | none => .ok { s with eng := { s.eng.nextBit with acc := acc } }
  | some sym =>
    if s.eng.emitted = s.eng.total then .ok (s.raise .lengthMismatch (s.eng.total + 1) s.eng.total)
    else (s.memWrite (s.dstAddr s.eng.emitted) sym).andThen fun t => .ok { t with eng := t.eng.matched }

/-- The end of the stream (R123). -/
def walkEnd (s : State) : State :=
  if s.eng.acc ≠ [] then s.raise .undecodableStream s.eng.accStart s.eng.total
  else if s.eng.emitted ≠ s.eng.total then s.raise .lengthMismatch s.eng.emitted s.eng.total
  else s.goto .finish

/-- One step of DECODE: a payload byte is read, or a stream bit is walked, or the stream has ended. -/
def decodeStep (s : State) : Answer State :=
  if s.eng.idx < s.eng.streamBits then
    if s.eng.fetched then walkBit s
    else
      (s.memRead (s.srcAddr (headerLen s.eng.n + s.eng.idx / 8))).andThen fun b =>
        .ok { s with eng := { s.eng with cur := b, fetched := true } }
  else .ok (walkEnd s)

/-- How the walk of a whole stream ends: the symbols, or the error with its `ERR_INFO`. -/
inductive WalkResult where
  | output (bytes : List Byte)
  | lengthMismatch (info : Nat)
  | undecodable (info : Nat)
  deriving DecidableEq, Repr

/-- The decode walk as a function of the stream (R123): `t` is the index of the next bit, `out` what is emitted. -/
def walk (d : List (Bits × Byte)) (total : Nat) : Bits → Nat → Bits → Nat → List Byte → WalkResult
  | [], _, acc, start, out =>
    if acc ≠ [] then .undecodable start
    else if out.length ≠ total then .lengthMismatch out.length
    else .output out
  | x :: bs, t, acc, start, out =>
    match reverseLookup d (acc ++ [x]) with
    | none => walk d total bs (t + 1) (acc ++ [x]) start out
    | some sym =>
      if out.length = total then .lengthMismatch (total + 1)
      else walk d total bs (t + 1) [] (t + 1) (out ++ [sym])

/-- What DECOMPRESS decodes from artifact `a` with the table its header holds: the codes rebuilt from it (R120,
spec/45_container.md R102), then the walk over the unpacked payload (R123). -/
def decodeArtifact (a : List Byte) (t : Table Word) (n total pad : Nat) : WalkResult :=
  let d := decodeMap (assignments (buildTree t).1 (buildTree t).2)
  walk d total ((unpack (a.drop (headerLen n)) pad).getD []) 0 [] 0 []

end Sys2Proof.Machine
end

