-- ==== Sys2Proof/Machine/Compress.lean ====
section
/-! DEFINITION. COMPRESS (spec/46_codec_commands.md R114 to R118), and the COUNT step ANALYZE shares. -/

namespace Sys2Proof.Machine

open Sys2Proof

/-- One step of COUNT: a source byte is counted, or `n`, `T` are set and TREE is entered
(spec/41_frequency_table.md R74). -/
def countStep (s : State) : Answer State :=
  if s.eng.idx < s.regs.srcLen.toNat then
    (s.memRead (s.srcAddr s.eng.idx)).andThen fun b =>
      .ok { s with eng := { s.eng with freq := countByte s.eng.freq b, idx := s.eng.idx + 1 } }
  else
    .ok { s with eng :=
      ({ s.eng with n := distinct s.eng.freq, total := s.regs.srcLen.toNat } : Engine).startTree }

/-- `B`, `pad` and `P` from the tables (R117, R125). -/
def Engine.planned (e : Engine) : Engine :=
  let b := payloadBits e.freq e.codes
  { e with bits := b, pad := padOf b, payload := (b + padOf b) / 8 }

/-- The planned range of COMPRESS in bytes, `size` of R117; 6 for the empty input (R115). -/
def Engine.artifactSize (e : Engine) : Nat := headerLen e.n + e.payload

/-- The planning step (R117). -/
def planCompress (s : State) : State :=
  let e := s.eng.planned
  if s.regs.dstCap.toNat < e.artifactSize then
    ({ s with eng := e } : State).raise .outputOverflow e.artifactSize 0
  else { s with eng := e.startHeader }

/-- The next source byte of the encoding pass is `b` (R118). -/
def encodeByte (b : Byte) (s : State) : State :=
  let e := s.eng
  let len := codeLen e.codes b
  if len = 0 then s.raise .unsupportedSymbol e.idx e.artifactSize
  else if e.bits < e.packed + len then s.raise .lengthMismatch e.idx e.artifactSize
  else { s with eng := { e with pending := tableGet e.codes b, packed := e.packed + len, idx := e.idx + 1 } }

/-- One step of ENCODE (R118): a bit of the code in hand is packed, or the next source byte is read, or the pass
ends. -/
def encodeStep (s : State) : Answer State :=
  match s.eng.pending with
  | x :: rest => packBit x { s with eng := { s.eng with pending := rest } }
  | [] =>
    if s.eng.idx < s.regs.srcLen.toNat then
      (s.memRead (s.srcAddr s.eng.idx)).andThen fun b => .ok (encodeByte b s)
    else if s.eng.packed ≠ s.eng.bits then
      .ok (s.raise .lengthMismatch s.regs.srcLen.toNat s.eng.artifactSize)
    else (packFinish s).andThen fun t => .ok (t.goto .finish)

/-- `compress_empty()` up to the header (R115). -/
def compressEmpty (s : State) : State :=
  let t : State := { s with eng := s.eng.clearTables }
  if s.regs.dstCap.toNat < 6 then t.raise .outputOverflow 6 0
  else { t with eng := t.eng.startHeader }

/-- Dispatch of COMPRESS (R109, R114). -/
def checkCompress (s : State) : State :=
  match s.checkBoth with
  | some k => s.raise .badBuffer k 0
  | none => if s.emptySource then compressEmpty s else { s with eng := s.eng.startCount }

/-- The FINISH step of COMPRESS (R116; R115 for the empty input). -/
def finishCompress (s : State) : State :=
  ((s.setResults s.eng.artifactSize s.eng.bits s.eng.n s.eng.pad).showTables).complete

/-- One engine step of COMPRESS, the phase sequence of R116. -/
def compressStep (s : State) : Answer State :=
  match s.eng.phase with
  | .idle => .ok s
  | .check => .ok (checkCompress s)
  | .count => countStep s
  | .tree => treeStep s
  | .codes => codesStep (fun e => { e with phase := .plan }) s
  | .plan => .ok (planCompress s)
  | .writeHdr => writeHdrStep s
  | .encode => encodeStep s
  | .finish => .ok (finishCompress s)
  | .readHdr | .decode => .fault .phaseOutOfSequence

/-- COMPRESS (R114). -/
def execCompress (s : State) : Host.Outcome State Fault Refusal := s.engineRun compressStep

end Sys2Proof.Machine
end

