-- ==== Sys2Proof/Machine/Analyze.lean ====
section
/-! DEFINITION. ANALYZE (spec/46_codec_commands.md R125). -/

namespace Sys2Proof.Machine

open Sys2Proof

/-- Dispatch of ANALYZE: only the source is checked (R109, R125). -/
def checkAnalyze (s : State) : State :=
  match s.checkSrc with
  | some k => s.raise .badBuffer k 0
  | none =>
    if s.emptySource then { s with eng := { s.eng.clearTables with phase := .finish } }
    else { s with eng := s.eng.startCount }

/-- The planning step: `B` and `pad`, no capacity check (R125). -/
def planAnalyze (s : State) : State := { s with eng := { s.eng.planned with phase := .finish } }

/-- The FINISH step of ANALYZE: `DST_LEN` stays 0 (R125). -/
def finishAnalyze (s : State) : State :=
  ((s.setResults 0 s.eng.bits s.eng.n s.eng.pad).showTables).complete

/-- One engine step of ANALYZE, the phase sequence of R125. -/
def analyzeStep (s : State) : Answer State :=
  match s.eng.phase with
  | .idle => .ok s
  | .check => .ok (checkAnalyze s)
  | .count => countStep s
  | .tree => treeStep s
  | .codes => codesStep (fun e => { e with phase := .plan }) s
  | .plan => .ok (planAnalyze s)
  | .finish => .ok (finishAnalyze s)
  | .writeHdr | .encode | .readHdr | .decode => .fault .phaseOutOfSequence

/-- ANALYZE (R125). -/
def execAnalyze (s : State) : Host.Outcome State Fault Refusal := s.engineRun analyzeStep

end Sys2Proof.Machine
end

