-- ==== Sys2Proof/Machine/Decompress.lean ====
section
/-! DEFINITION. DECOMPRESS (spec/46_codec_commands.md R119 to R123). -/

namespace Sys2Proof.Machine

open Sys2Proof

/-- Dispatch of DECOMPRESS (R109). -/
def checkDecompress (s : State) : State :=
  match s.checkBoth with
  | some k => s.raise .badBuffer k 0
  | none => { s with eng := s.eng.startRead }

/-- The planning step (R122). -/
def planDecompress (s : State) : State :=
  if s.regs.dstCap.toNat < s.eng.total then s.raise .outputOverflow s.eng.total 0
  else { s with eng := s.eng.startTree }

/-- The FINISH step of DECOMPRESS (R120; R121 for the empty artifact). -/
def finishDecompress (s : State) : State :=
  ((s.setResults s.eng.total s.eng.streamBits s.eng.n s.eng.pad).showTables).complete

/-- One engine step of DECOMPRESS, the phase sequence of R120. -/
def decompressStep (s : State) : Answer State :=
  match s.eng.phase with
  | .idle => .ok s
  | .check => .ok (checkDecompress s)
  | .readHdr => readHdrStep s
  | .plan => .ok (planDecompress s)
  | .tree => treeStep s
  | .codes => codesStep Engine.startDecode s
  | .decode => decodeStep s
  | .finish => .ok (finishDecompress s)
  | .count | .writeHdr | .encode => .fault .phaseOutOfSequence

/-- DECOMPRESS (R119). -/
def execDecompress (s : State) : Host.Outcome State Fault Refusal := s.engineRun decompressStep

end Sys2Proof.Machine
end

