-- ==== Sys2Proof/Machine/Nop.lean ====
section
/-! DEFINITION. NOP (spec/46_codec_commands.md R113) and the illegal command words (R111). -/

namespace Sys2Proof.Machine

open Sys2Proof

/-- One engine step of NOP: CHECK, then FINISH; the result registers stay as the issue left them, 0 (R113). -/
def nopStep (s : State) : Answer State :=
  match s.eng.phase with
  | .idle => .ok s
  | .check => .ok (s.goto .finish)
  | .finish => .ok s.complete
  | .count | .tree | .codes | .plan | .writeHdr | .encode | .readHdr | .decode => .fault .phaseOutOfSequence

/-- NOP (R113). -/
def execNop (s : State) : Host.Outcome State Fault Refusal := s.engineRun nopStep

/-- One engine step of a word that is no command: `raise Error(ILLEGAL_CMD, w)` at dispatch (R109, R111). -/
def illegalStep (s : State) : Answer State :=
  match s.eng.phase with
  | .idle => .ok s
  | _ => .ok (s.raise .illegalCmd s.regs.cmd.toNat 0)

/-- An illegal command word (R111). -/
def execIllegal (s : State) : Host.Outcome State Fault Refusal := s.engineRun illegalStep

end Sys2Proof.Machine
end

