-- ==== Sys2Proof/Machine/Dispatch.lean ====
section
/-! DEFINITION. The engine's turn on a command (spec/46_codec_commands.md R109): one arm per command. -/

namespace Sys2Proof.Machine

open Sys2Proof

/-- The engine's turn on command `i`. -/
def exec (i : Instr) (s : State) : Host.Outcome State Fault Refusal :=
  match i with
  | .nop => Sys2Proof.Machine.execNop s
  | .compress => Sys2Proof.Machine.execCompress s
  | .decompress => Sys2Proof.Machine.execDecompress s
  | .analyze => Sys2Proof.Machine.execAnalyze s

end Sys2Proof.Machine
end

