-- ==== Sys2Proof/Machine/HostAccess.lean ====
section
/-! DEFINITION. The host's operations: register accesses (spec/40_host_access.md R67 to R72) and its own accesses to
system memory (spec/30_encoding.md R66, spec/20_memory.md R48, spec/70_reset_and_hazards.md R148). -/

namespace Sys2Proof.Machine

open Sys2Proof

/-! ## Register accesses -/

/-- The value of an aperture offset that is no window word drawn at the read (R68). -/
def State.apertureWord (s : State) (o : Nat) : Word :=
  match regAt o with
  | some r => s.regs.word r
  | none =>
    if o < 0x1000 then 0
    else match s.winDraw with
      | some d => Config.drawWindow d o
      | none => s.eng.windowWord o

/-- Whether a read draws its value: a window read while `BUSY = 1` (spec/10_state.md R32). -/
def State.readDraws (s : State) (o : Nat) : Bool := s.regs.busy && decide (0x1000 ≤ o)

/-- The value a register read returns (R68). -/
def State.readValue (s : State) (o : Nat) : Word :=
  if s.readDraws o then Config.drawWindow s.draws o else s.apertureWord o

/-- A read has no side effect on the core (R68). A draw is used up, and a read of `STATUS` with `DONE = 1` lets the
host see the command's writes (spec/20_memory.md R48).
DESIGN CHOICE (log entry 25, safe): a read of `STATUS` after the host has seen `irq = 1` and acknowledged it shows
`DONE = 0` and releases nothing. -/
def State.afterRead (s : State) (o : Nat) : State :=
  let t : State := if s.readDraws o then { s with draws := s.draws + 1 } else s
  if o = 0x018 ∧ s.regs.done then t.observeDone else t

/-- A value returned to the host. -/
def State.answerHost (s : State) (v : Word) : State := { s with hostReads := v :: s.hostReads }

/-- A register read (R68). -/
def hostRead (o : Nat) (s : State) : State := (s.afterRead o).answerHost (s.readValue o)

/-- The registers after a write of `v` at offset `o` to an operand register (R69). -/
def Regs.writeOperand (r : Regs) (o : Nat) (v : Word) : Regs :=
  match regAt o with
  | some .srcBase => { r with srcBase := v }
  | some .srcLen  => { r with srcLen := v }
  | some .dstBase => { r with dstBase := v }
  | some .dstCap  => { r with dstCap := v }
  | _ => r

/-- A register write (R69 to R72): `CTRL` at any time, everything else only while `BUSY = 0`; a write to an unmapped
offset, a read-only register or a window has no effect (spec/10_state.md R21). -/
def hostWrite (o : Nat) (v : Word) (s : State) : State :=
  if o = 0x008 then { s with regs := s.regs.writeCtrl v }
  else if s.regs.busy then s
  else if o = 0x010 then s.issue v
  else if o = 0x018 then s.acknowledge v
  else { s with regs := s.regs.writeOperand o v }

/-! ## System memory -/

/-- Whether the host may touch memory at `a`: it exists (spec/20_memory.md R37) and is ordinary memory. -/
def State.hostAccess (s : State) (a : Nat) : Answer Unit :=
  if 2 ^ s.cfg.addrW ≤ a then .fault .noSuchAddress
  else match kindAt s.cfg a with
    | some .sideEffects => .refused .sideEffectRegion
    | some .aperture    => .refused .apertureAsMemory
    | some .otherCore   => .refused .otherCoreBuffer
    | some (.memory _ _) => .ok ()
    | none => .ok ()

/-- While `BUSY = 1` the host writes no byte of either buffer (R148). -/
def State.mayStore (s : State) (a : Nat) : Bool :=
  !(s.regs.busy && (s.regs.source.contains a || s.regs.dest.contains a))

/-- While `BUSY = 1` the host reads no byte of the destination (R148). -/
def State.mayLoad (s : State) (a : Nat) : Bool := !(s.regs.busy && s.regs.dest.contains a)

/-- A host store of one byte. -/
def hostStore (a : Nat) (v : Byte) (s : State) : Answer State :=
  if s.mayStore a then (s.hostAccess a).andThen fun _ => .ok { s with mem := memPut s.mem a v }
  else .refused .busyBufferAccess

/-- Whether the byte at `a` was written by a command whose completion the host has not read (R48). -/
def State.notSeen (s : State) (a : Nat) : Bool := s.unseen.any fun p => p.contains a

/-- A host read of one byte; a byte the host is not promised to see is a draw (R48). -/
def hostLoad (a : Nat) (s : State) : Answer State :=
  if s.mayLoad a then
    (s.hostAccess a).andThen fun _ =>
      if s.notSeen a then
        .ok (({ s with draws := s.draws + 1 } : State).answerHost ((Config.drawByte s.draws a).setWidth 64))
      else .ok (s.answerHost ((s.byteAt a).setWidth 64))
  else .refused .busyBufferAccess

/-! ## The host's turn -/

/-- The host has `ops` left to do. -/
def State.setHost (s : State) (ops : List HostOp) : State := { s with host := ops }

/-- One host step (R67): the next operation of its program. A `MEM` line stores one byte a step; `WAIT` reads
`STATUS` and stays until bit 1 is 1. A host with no program does nothing. -/
def hostStep (s : State) : Host.Outcome State Fault Refusal :=
  match s.host with
  | [] => .next s
  | .read o w :: rest =>
    if (HostOp.read o w).wf then .next (hostRead o.toNat (s.setHost rest)) else .refused .narrowAccess
  | .write o w v :: rest =>
    if (HostOp.write o w v).wf then .next (hostWrite o.toNat v (s.setHost rest)) else .refused .narrowAccess
  | .store _ [] :: rest => .next (s.setHost rest)
  | .store a (b :: bs) :: rest => settle s (hostStore a b (s.setHost (.store (a + 1) bs :: rest)))
  | .load a :: rest => settle s (hostLoad a (s.setHost rest))
  | .wait :: rest =>
    .next (hostRead 0x018 (s.setHost (if (s.regs.statusWord).getLsbD 1 then rest else .wait :: rest)))

end Sys2Proof.Machine
end

