-- ==== Sys2Proof/Machine/Reset.lean ====
section
/-! DEFINITION. The reset input (spec/70_reset_and_hazards.md R145). -/

namespace Sys2Proof.Machine

open Sys2Proof

/-- The destination bytes that an abandoned COMPRESS leaves unconstrained: the whole destination buffer before
`PLAN` is done, the planned range after it (R145). -/
def abandonedCompress (s : State) : Nat :=
  match s.eng.phase with
  | .writeHdr | .encode | .finish => s.eng.artifactSize
  | .idle => 0
  | .check | .count | .tree | .codes | .plan | .readHdr | .decode => s.regs.dstCap.toNat

/-- The same of DECOMPRESS, whose `PLAN` comes before `TREE` (R120, R122). -/
def abandonedDecompress (s : State) : Nat :=
  match s.eng.phase with
  | .tree | .codes | .decode | .finish => s.eng.total
  | .idle => 0
  | .check | .readHdr | .plan | .count | .writeHdr | .encode => s.regs.dstCap.toNat

/-- The destination bytes a reset leaves unconstrained. NOP, ANALYZE and illegal words write no byte
(spec/20_memory.md R46; log entry 14). -/
def abandonedLen (s : State) : Nat :=
  match decode s.regs.cmd with
  | .ok .compress => abandonedCompress s
  | .ok .decompress => abandonedDecompress s
  | .ok .nop => 0
  | .ok .analyze => 0
  | .error _ => 0

/-- Reset as one step (R145): the core takes its reset values, a running command is abandoned, and what lies outside
the core stays. -/
def State.assertReset (s : State) : State :=
  let t := if 0 < abandonedLen s then s.drawDestination (abandonedLen s) else s
  { t with regs := Regs.reset, eng := Engine.reset, winDraw := none }

end Sys2Proof.Machine
end

