-- ==== Sys2Proof/Machine/Turns.lean ====
section
/-! DEFINITION. Whose turn it is (spec/40_host_access.md R67): the engine's, the host's, or the reset input's. -/

namespace Sys2Proof.Machine

open Sys2Proof

/-- The schedule after its first turn. -/
def State.popTurn (s : State) : State := { s with sched := s.sched.tail }

/-- The engine's turn: the command in `CMD` runs, a word that is no command is the illegal command (R109, R111), and
an idle engine does nothing (spec/60_exceptions.md R144). -/
def engineTurn (s : State) : Host.Outcome State Fault Refusal :=
  match s.regs.busy with
  | true =>
    match decode s.regs.cmd with
    | .ok i => exec i s
    | .error _ => execIllegal s
  | false => .next s.popTurn

/-- The turn the schedule names; with nothing scheduled, the engine while it is busy, else the host. -/
def turn (s : State) : Host.Outcome State Fault Refusal :=
  match s.sched with
  | .engine :: _ => engineTurn s
  | .host :: _ => hostStep s.popTurn
  | .reset :: _ => .next s.popTurn.assertReset
  | [] =>
    match s.regs.busy with
    | true => engineTurn s
    | false => hostStep s

/-- The state in which word `w` is the issued command and nothing contests the engine (log entry 2). -/
def State.withCommand (s : State) (w : Word) : State := { s.issue w with sched := [] }

end Sys2Proof.Machine
end

