-- ==== Sys2Proof/Machine/Step.lean ====
section
/-! DEFINITION. One step of the machine, and the placing of a command word where the engine takes it. -/

namespace Sys2Proof.Machine

open Sys2Proof

/-- One step: one turn of one agent. -/
def step (s : State) : Host.Outcome State Fault Refusal := turn s

/-- The command word `w` of `nbits` bits issued (spec/40_host_access.md R71; log entry 2). -/
def State.withFetchWord (s : State) (nbits w : Nat) : State := s.withCommand (BitVec.ofNat 64 (w % 2 ^ nbits))

end Sys2Proof.Machine
end

