-- ==== Sys2Proof/Safety.lean ====
section
/-! DEFINITION. The terms the statements use: which states a command builds, which accesses are answered, and what a
step may leave. -/

namespace Sys2Proof.Machine

open Sys2Proof

/-! ## The sequencer and the status flags -/

/-- The phases a command passes through (spec/46_codec_commands.md R113, R115, R116, R120, R125). -/
def phasesOf : Instr → List Phase
  | .nop        => [.check, .finish]
  | .compress   => [.check, .count, .tree, .codes, .plan, .writeHdr, .encode, .finish]
  | .decompress => [.check, .readHdr, .plan, .tree, .codes, .decode, .finish]
  | .analyze    => [.check, .count, .tree, .codes, .plan, .finish]

/-- The phases of a command word: a word that is no command ends in CHECK (R109, R111). -/
def phasesOfWord (w : Word) : List Phase :=
  match decode w with
  | .ok i    => phasesOf i
  | .error _ => [.check]

/-- `PHASE = IDLE` exactly when `BUSY = 0` (spec/10_state.md R33), `BUSY` and `DONE` are never both 1, a running
command shows `ERR = 0` and results 0 (R26, R28, R71), and its phase is one of its sequence. -/
abbrev State.ControlWf (s : State) : Prop :=
  (s.eng.phase = .idle ↔ s.regs.busy = false) ∧
  (s.regs.busy = true → s.regs.done = false) ∧
  (s.regs.busy = true → s.regs.err = .success) ∧
  (s.regs.busy = true → s.regs.dstLen = 0 ∧ s.regs.errInfo = 0 ∧ s.regs.bitLen = 0 ∧ s.regs.symCount = 0 ∧
    s.regs.padCount = 0) ∧
  (s.regs.busy = true → s.eng.phase ∈ phasesOfWord s.regs.cmd)

/-! ## The engine's working state while a command runs -/

/-- While TREE runs, each merge has taken one node off `Q` (spec/42_tree_builder.md R84). -/
abbrev Engine.TreeWf (e : Engine) : Prop := e.queue.length + e.seq = e.n ∧ (e.n = 0 ∨ e.seq < e.n)

/-- What PLAN has settled: `pad`, `P` and that the artifact fits (spec/46_codec_commands.md R117, R115). -/
abbrev State.PlannedWf (s : State) : Prop :=
  s.eng.payload = (s.eng.bits + padOf s.eng.bits) / 8 ∧ s.eng.artifactSize ≤ s.regs.dstCap.toNat

/-- The packer during ENCODE: the bytes written, the bits in `SHIFT` and the bits in hand are the bits packed
(spec/44_bit_packer.md R97, spec/46_codec_commands.md R118). -/
abbrev Engine.PackerWf (e : Engine) : Prop :=
  headerLen e.n ≤ e.out ∧ e.nb < 8 ∧ 8 * (e.out - headerLen e.n) + e.nb + e.pending.length = e.packed ∧
  e.packed ≤ e.bits

/-- The working state of a running COMPRESS, by phase. -/
def State.CompressWf (s : State) : Prop :=
  match s.eng.phase with
  | .count => s.checkBoth = none ∧ s.eng.idx ≤ s.regs.srcLen.toNat
  | .tree => s.checkBoth = none ∧ s.eng.n = distinct s.eng.freq ∧ s.eng.TreeWf
  | .codes | .plan => s.checkBoth = none ∧ s.eng.n = distinct s.eng.freq
  | .writeHdr =>
    s.checkBoth = none ∧ s.eng.n = distinct s.eng.freq ∧ s.PlannedWf ∧ s.eng.out ≤ headerLen s.eng.n
  | .encode => s.checkBoth = none ∧ s.PlannedWf ∧ s.eng.PackerWf ∧ s.eng.idx ≤ s.regs.srcLen.toNat
  | .finish => s.checkBoth = none ∧ s.PlannedWf
  | .idle | .check | .readHdr | .decode => True

/-- The artifact's parts lie inside the source buffer (spec/45_container.md R106 step 3). -/
abbrev State.PartsWf (s : State) : Prop := headerLen s.eng.n + s.eng.payload = s.regs.srcLen.toNat

/-- The working state of a running DECOMPRESS, by phase. -/
def State.DecompressWf (s : State) : Prop :=
  match s.eng.phase with
  | .readHdr =>
    s.checkBoth = none ∧
    (s.eng.idx ≤ 3 ∨
      (headerLen s.eng.n ≤ s.regs.srcLen.toNat ∧ s.eng.idx < headerLen s.eng.n ∧ (s.eng.n = 0 → s.eng.total = 0)))
  | .plan => s.checkBoth = none ∧ s.PartsWf
  | .tree => s.checkBoth = none ∧ s.PartsWf ∧ s.eng.total ≤ s.regs.dstCap.toNat ∧ s.eng.TreeWf
  | .codes => s.checkBoth = none ∧ s.PartsWf ∧ s.eng.total ≤ s.regs.dstCap.toNat
  | .decode =>
    s.checkBoth = none ∧ s.PartsWf ∧ s.eng.total ≤ s.regs.dstCap.toNat ∧ s.eng.emitted ≤ s.eng.total
  | .finish => s.checkBoth = none ∧ s.eng.total ≤ s.regs.dstCap.toNat
  | .idle | .check | .count | .writeHdr | .encode => True

/-- The working state of a running ANALYZE, by phase. -/
def State.AnalyzeWf (s : State) : Prop :=
  match s.eng.phase with
  | .count => s.checkSrc = none ∧ s.eng.idx ≤ s.regs.srcLen.toNat
  | .tree => s.checkSrc = none ∧ s.eng.TreeWf
  | .codes | .plan | .finish => s.checkSrc = none
  | .idle | .check | .writeHdr | .encode | .readHdr | .decode => True

/-- The working state of the running command; nothing is asked of an idle engine. -/
def State.EngineWf (s : State) : Prop :=
  match decode s.regs.cmd with
  | .ok .compress   => s.CompressWf
  | .ok .decompress => s.DecompressWf
  | .ok .analyze    => s.AnalyzeWf
  | .ok .nop        => True
  | .error _        => True

/-! ## Single engine steps -/

/-- `k` engine steps of a command whose single step is `f`. -/
def engineSteps (f : State → Answer State) : Nat → State → Answer State
  | 0, s => .ok s
  | k + 1, s => (f s).andThen (engineSteps f k)

/-- The single step of each command. -/
def stepOf : Instr → State → Answer State
  | .nop        => nopStep
  | .compress   => compressStep
  | .decompress => decompressStep
  | .analyze    => analyzeStep

/-! ## The access of a single engine step -/

/-- The source read of COUNT (spec/41_frequency_table.md R74). -/
def State.countAccess (s : State) : Option (Nat × Bool) :=
  if s.eng.idx < s.regs.srcLen.toNat then some (s.srcAddr s.eng.idx, false) else none

/-- The header byte of WRITE_HDR, one of `4 + 12n + 2` (spec/45_container.md R103, R104). -/
def State.writeHdrAccess (s : State) : Option (Nat × Bool) :=
  if s.eng.out < headerLen (distinct s.eng.freq) then some (s.dstAddr s.eng.out, true) else none

/-- The access of ENCODE: the payload byte that the next bit fills, the next source byte, or the last partial payload
byte (spec/44_bit_packer.md R97, spec/46_codec_commands.md R118). -/
def State.encodeAccess (s : State) : Option (Nat × Bool) :=
  match s.eng.pending with
  | _ :: _ => if s.eng.nb = 7 then some (s.dstAddr s.eng.out, true) else none
  | [] =>
    if s.eng.idx < s.regs.srcLen.toNat then some (s.srcAddr s.eng.idx, false)
    else if s.eng.packed = s.eng.bits ∧ 0 < s.eng.nb then some (s.dstAddr s.eng.out, true)
    else none

/-- The header byte of READ_HDR (spec/45_container.md R106). -/
def State.readHdrAccess (s : State) : Option (Nat × Bool) :=
  if 4 ≤ s.regs.srcLen.toNat then some (s.srcAddr s.eng.idx, false) else none

/-- The access of DECODE: the payload byte of the next bit, or the symbol that bit completes
(spec/44_bit_packer.md R99, spec/46_codec_commands.md R123). -/
def State.decodeAccess (s : State) : Option (Nat × Bool) :=
  if s.eng.idx < s.eng.streamBits then
    if s.eng.fetched = false then some (s.srcAddr (headerLen s.eng.n + s.eng.idx / 8), false)
    else if reverseLookup s.eng.decode (s.eng.acc ++ [s.eng.streamBit]) ≠ none ∧ s.eng.emitted ≠ s.eng.total then
      some (s.dstAddr s.eng.emitted, true)
    else none
  else none

/-- The memory access of a command's next engine step: its address, and whether it writes. -/
def State.nextAccess (i : Instr) (s : State) : Option (Nat × Bool) :=
  match i with
  | .nop => none
  | .analyze => if s.eng.phase = .count then s.countAccess else none
  | .compress =>
    match s.eng.phase with
    | .count => s.countAccess
    | .writeHdr => s.writeHdrAccess
    | .encode => s.encodeAccess
    | .idle | .check | .tree | .codes | .plan | .readHdr | .decode | .finish => none
  | .decompress =>
    match s.eng.phase with
    | .readHdr => s.readHdrAccess
    | .decode => s.decodeAccess
    | .idle | .check | .count | .tree | .codes | .plan | .writeHdr | .encode | .finish => none

/-! ## The buffers of a command -/

/-- The bytes of the source buffer. -/
def State.sourceBytes (s : State) : List Byte :=
  (List.range s.regs.srcLen.toNat).map fun i => s.byteAt (s.srcAddr i)

/-- Every source byte answers the engine's reads (spec/70_reset_and_hazards.md R147 step 2). -/
abbrev State.AdmitsSource (s : State) : Prop :=
  ∀ i, i < s.regs.srcLen.toNat → s.access (s.srcAddr i) false = .ok ()

/-- The first `len` destination bytes answer the engine's writes. -/
abbrev State.AdmitsDest (s : State) (len : Nat) : Prop := ∀ o, o < len → s.access (s.dstAddr o) true = .ok ()

/-- The destination's first bytes are `bytes`. -/
abbrev State.Holds (s : State) (bytes : List Byte) : Prop :=
  ∀ o, o < bytes.length → s.byteAt (s.dstAddr o) = bytes.getD o 0

/-- Every byte outside the first `len` bytes of the destination is as in `s`. -/
def State.KeepsOutside (s t : State) (len : Nat) : Prop :=
  ∀ a, ¬ (s.dstAddr 0 ≤ a ∧ a < s.dstAddr len) → t.byteAt a = s.byteAt a

/-- The engine is about to dispatch the issued command and nothing is scheduled against it. -/
abbrev State.Fresh (s : State) : Prop := s.sched = [] ∧ s.eng.phase = .check

/-! ## What a command leaves alone -/

/-- The registers no command writes (spec/10_state.md R25, R27), the parameters, and what is the host's. -/
abbrev State.SameOperands (s t : State) : Prop :=
  t.cfg = s.cfg ∧ t.regs.irqEn = s.regs.irqEn ∧ t.regs.cmd = s.regs.cmd ∧
  t.regs.srcBase = s.regs.srcBase ∧ t.regs.srcLen = s.regs.srcLen ∧
  t.regs.dstBase = s.regs.dstBase ∧ t.regs.dstCap = s.regs.dstCap ∧
  t.host = s.host ∧ t.hostReads = s.hostReads

/-- The windows show a frequency table and a code table (spec/10_state.md R32). -/
abbrev State.Shows (s : State) (freq : Table Word) (codes : Table Bits) : Prop :=
  s.winDraw = none ∧ s.eng.freq = freq ∧ s.eng.codes = codes

/-- The registers of a completion (spec/10_state.md R26, R28, spec/46_codec_commands.md R112). -/
abbrev Regs.Completed (r : Regs) (dstLen bitLen symCount padCount : Nat) : Prop :=
  r.busy = false ∧ r.done = true ∧ r.err = .success ∧ r.errInfo = 0 ∧
  r.dstLen = BitVec.ofNat 64 dstLen ∧ r.bitLen = BitVec.ofNat 64 bitLen ∧
  r.symCount = BitVec.ofNat 64 symCount ∧ r.padCount = BitVec.ofNat 64 padCount

/-- The registers of an error termination (spec/60_exceptions.md R133). -/
abbrev Regs.Failed (r : Regs) (code : ErrCode) (info : Nat) : Prop :=
  r.busy = false ∧ r.done = true ∧ r.err = code ∧ r.errInfo = BitVec.ofNat 64 info ∧
  r.dstLen = 0 ∧ r.bitLen = 0 ∧ r.symCount = 0 ∧ r.padCount = 0

end Sys2Proof.Machine
end

