-- ==== Sys2Proof/Certificates/Slice0/Obligations.lean ====
section
/-! DEFINITION. The statements for the provers. Each docstring names the rules of spec/ the statement rests on. -/

open Sys2Proof Sys2Proof.Machine

/-! ## The command word -/

/-- Words written out from R55, and words R65 calls illegal. -/
def Obligations.CommandWordsDecode : Prop :=
  decode 0x0000000000000000 = .ok .nop ∧
  decode 0x0000000000000001 = .ok .compress ∧
  decode 0x0000000000000002 = .ok .decompress ∧
  decode 0x0000000000000003 = .ok .analyze ∧
  decode 0x0000000000000004 = .error .opcodeUnassigned ∧
  decode 0x0000000000000104 = .error .mbzNotZero ∧
  decode 0x0000000100000001 = .error .mbzNotZero

/-- R54, R55, R65: a word decodes to a command exactly when it is that command's legal word, so `decode (encode i)` is
`i` and every other word is illegal. -/
def Obligations.OnlyLegalWordsDecode : Prop := ∀ (w : Word) (i : Instr), decode w = .ok i ↔ w = encode i

/-! ## Turns -/

/-- R67, R109: while `BUSY = 1`, the engine's turn is `exec` of the command in `CMD`. -/
def Obligations.StepRunsDecodedCommand : Prop :=
  ∀ (s : State) (i : Instr), i.wf = true → s.regs.busy = true → decode s.regs.cmd = .ok i →
    (s.sched = [] ∨ s.sched.head? = some .engine) → step s = exec i s

/-- R67, R144, R145: what the schedule names is what moves; an idle engine does nothing, and neither does a host
with no program. -/
def Obligations.StepFollowsSchedule : Prop :=
  ∀ (s : State) (rest : List Turn),
    (s.sched = .host :: rest → step s = hostStep { s with sched := rest }) ∧
    (s.sched = .reset :: rest → step s = .next ({ s with sched := rest } : State).assertReset) ∧
    (s.sched = .engine :: rest → s.regs.busy = false → step s = .next { s with sched := rest }) ∧
    (s.sched = [] → s.regs.busy = false → step s = hostStep s) ∧
    (s.sched = [] → s.regs.busy = false → s.host = [] → step s = .next s)

/-- R71: placing a command's word where the engine takes it runs that command in the next step. -/
def Obligations.PlacedCommandRuns : Prop :=
  ∀ (s : State) (i : Instr), i.wf = true →
    step (s.withFetchWord 64 (encode i).toNat) = exec i (s.withFetchWord 64 (encode i).toNat) ∧
    (s.withFetchWord 64 (encode i).toNat).mem = s.mem ∧
    (s.withFetchWord 64 (encode i).toNat).regs.srcBase = s.regs.srcBase ∧
    (s.withFetchWord 64 (encode i).toNat).regs.srcLen = s.regs.srcLen ∧
    (s.withFetchWord 64 (encode i).toNat).regs.dstBase = s.regs.dstBase ∧
    (s.withFetchWord 64 (encode i).toNat).regs.dstCap = s.regs.dstCap

/-- R67, R127: a command that runs with nothing scheduled against it does what some number of single engine steps
does, and one scheduled engine turn is one engine step. -/
def Obligations.ExecIsEngineSteps : Prop :=
  ∀ (s t : State) (i : Instr),
    (s.sched = [] → exec i s = .next t → ∃ k, k ≤ s.allSteps ∧ engineSteps (stepOf i) k s = .ok t) ∧
    (∀ rest, s.sched = .engine :: rest → stepOf i { s with sched := rest } = .ok t → exec i s = .next t)

/-! ## Host register access -/

/-- R68: a register read of 64 bits at a multiple of 8 returns the value and has no side effect on the core. -/
def Obligations.RegisterReadHasNoSideEffect : Prop :=
  ∀ (s : State) (rest : List Turn) (o : BitVec 14) (ops : List HostOp),
    s.sched = .host :: rest → s.host = .read o .w64 :: ops → o.toNat % 8 = 0 →
    ∃ t, step s = .next t ∧ t.regs = s.regs ∧ t.eng = s.eng ∧ t.mem = s.mem ∧ t.winDraw = s.winDraw ∧
      t.cfg = s.cfg ∧ t.host = ops ∧ t.sched = rest ∧ t.hostReads = s.readValue o.toNat :: s.hostReads

/-- R20, R21, R68: the value at each register's offset, and 0 at the unmapped offsets. -/
def Obligations.RegisterReadValues : Prop :=
  ∀ s : State,
    s.readValue 0x000 = 0x0000000148554646 ∧
    s.readValue 0x008 = (if s.regs.irqEn then 1 else 0) ∧
    s.readValue 0x010 = s.regs.cmd ∧
    s.readValue 0x018 = s.regs.statusWord ∧
    s.readValue 0x020 = s.regs.srcBase ∧
    s.readValue 0x028 = s.regs.srcLen ∧
    s.readValue 0x030 = s.regs.dstBase ∧
    s.readValue 0x038 = s.regs.dstCap ∧
    s.readValue 0x040 = s.regs.dstLen ∧
    s.readValue 0x048 = s.regs.errInfo ∧
    s.readValue 0x050 = s.regs.bitLen ∧
    s.readValue 0x058 = s.regs.symCount ∧
    s.readValue 0x060 = s.regs.padCount ∧
    ∀ o, 0x068 ≤ o → o < 0x1000 → s.readValue o = 0

/-- R29, R30, R31, R32: while `BUSY = 0` and no error has spoilt them, the windows read the frequency table, the
lengths of the codes and their bits, left-justified; while `BUSY = 1` every read of a window word is a fresh draw. -/
def Obligations.WindowsReadTheTables : Prop :=
  ∀ s : State,
    (∀ b : Byte, s.regs.busy = false → s.winDraw = none →
      s.readValue (0x1000 + 8 * b.toNat) = tableGet s.eng.freq b ∧
      s.readValue (0x1800 + 8 * b.toNat) = BitVec.ofNat 64 (tableGet s.eng.codes b).length ∧
      ∀ w j, w < 4 → j < 64 →
        (s.readValue (0x2000 + 32 * b.toNat + 8 * w)).getLsbD (63 - j) =
          (tableGet s.eng.codes b).getD (64 * w + j) false) ∧
    (∀ o, s.regs.busy = true → 0x1000 ≤ o →
      s.readValue o = Config.drawWindow s.draws o ∧ (hostRead o s).draws = s.draws + 1)

/-- R21: a narrower access, or one at an offset that is not a multiple of 8, is refused. -/
def Obligations.NarrowAccessRefused : Prop :=
  ∀ (s : State) (rest : List Turn) (o : BitVec 14) (w : AccessWidth) (v : Word) (ops : List HostOp),
    s.sched = .host :: rest → (s.host = .read o w :: ops ∨ s.host = .write o w v :: ops) →
    (w ≠ .w64 ∨ o.toNat % 8 ≠ 0) → step s = .refused .narrowAccess

/-- R24, R26, R130: the fields of `CTRL` and `STATUS`, every other bit 0, and the codes `ERR` shows. -/
def Obligations.StatusAndCtrlFields : Prop :=
  (∀ r : Regs,
    r.statusWord.getLsbD 0 = r.busy ∧ r.statusWord.getLsbD 1 = r.done ∧
    r.statusWord.extractLsb' 8 8 = r.err.code ∧
    (∀ i, (2 ≤ i ∧ i < 8) ∨ 16 ≤ i → r.statusWord.getLsbD i = false) ∧
    r.ctrlWord.getLsbD 0 = r.irqEn ∧ (∀ i, 1 ≤ i → r.ctrlWord.getLsbD i = false)) ∧
  ErrCode.success.code = 0x00 ∧ ErrCode.illegalCmd.code = 0x01 ∧ ErrCode.badBuffer.code = 0x02 ∧
  ErrCode.outputOverflow.code = 0x03 ∧ ErrCode.emptyInput.code = 0x10 ∧ ErrCode.corruptPadding.code = 0x11 ∧
  ErrCode.undecodableStream.code = 0x12 ∧ ErrCode.unsupportedSymbol.code = 0x13 ∧
  ErrCode.malformedHeader.code = 0x20 ∧ ErrCode.lengthMismatch.code = 0x21

/-- R35, R138: `irq` is `DONE AND IRQ_EN`: it rises with a completion when enabled, falls with the acknowledgement
and with the next issue, and follows a write of `CTRL` at once. -/
def Obligations.InterruptFollowsDoneAndEnable : Prop :=
  ∀ s : State,
    s.irq = (s.regs.done && s.regs.irqEn) ∧
    (∀ code info planned, (s.raise code info planned).irq = s.regs.irqEn) ∧ s.complete.irq = s.regs.irqEn ∧
    (∀ w, (s.issue w).irq = false) ∧
    (s.regs.busy = false → ∀ v : Word, v.getLsbD 1 = true → (s.acknowledge v).irq = false) ∧
    (∀ v : Word, (hostWrite 0x008 v s).irq = (s.regs.done && v.getLsbD 0)) ∧ State.reset.irq = false

/-- R22, R72: while `BUSY = 1` a register write changes nothing of the core but `CTRL.IRQ_EN`, which it may change at
any time. -/
def Obligations.WritesIgnoredWhileBusy : Prop :=
  ∀ (s : State) (rest : List Turn) (o : BitVec 14) (v : Word) (ops : List HostOp),
    s.sched = .host :: rest → s.host = .write o .w64 v :: ops → o.toNat % 8 = 0 → s.regs.busy = true →
    ∃ t, step s = .next t ∧ t.eng = s.eng ∧ t.mem = s.mem ∧ t.winDraw = s.winDraw ∧ t.host = ops ∧
      t.regs = (if o = 0x008 then { s.regs with irqEn := v.getLsbD 0 } else s.regs)

/-- R69, R21: while `BUSY = 0` a write of an operand register stores all 64 bits, a write of `CTRL` its bit 0, and a
write to a read-only register, an unmapped offset or a window has no effect. -/
def Obligations.IdleWrites : Prop :=
  ∀ (s : State) (o : Nat) (v : Word), s.regs.busy = false →
    hostWrite 0x020 v s = { s with regs := { s.regs with srcBase := v } } ∧
    hostWrite 0x028 v s = { s with regs := { s.regs with srcLen := v } } ∧
    hostWrite 0x030 v s = { s with regs := { s.regs with dstBase := v } } ∧
    hostWrite 0x038 v s = { s with regs := { s.regs with dstCap := v } } ∧
    hostWrite 0x008 v s = { s with regs := { s.regs with irqEn := v.getLsbD 0 } } ∧
    (o ∉ [0x008, 0x010, 0x018, 0x020, 0x028, 0x030, 0x038] → hostWrite o v s = s)

/-- R70: a write of 1 to `STATUS` bit 1 while `BUSY = 0` clears `DONE` and nothing else; every other write of
`STATUS` has no effect. -/
def Obligations.AcknowledgeClearsDone : Prop :=
  ∀ (s : State) (v : Word),
    hostWrite 0x018 v s =
      if s.regs.busy = false ∧ v.getLsbD 1 = true then { s with regs := { s.regs with done := false } } else s

/-- R71, R32: a write to `CMD` while `BUSY = 0` issues the word, legal or not: one step of the host. Of the engine it
writes the phase alone, and what the windows show is left as it is. -/
def Obligations.WriteToCmdIssues : Prop :=
  ∀ (s : State) (rest : List Turn) (v : Word) (ops : List HostOp),
    s.sched = .host :: rest → s.host = .write 0x010 .w64 v :: ops → s.regs.busy = false →
    ∃ t, step s = .next t ∧ t.regs.cmd = v ∧ t.regs.busy = true ∧ t.regs.done = false ∧ t.regs.err = .success ∧
      t.regs.dstLen = 0 ∧ t.regs.errInfo = 0 ∧ t.regs.bitLen = 0 ∧ t.regs.symCount = 0 ∧ t.regs.padCount = 0 ∧
      t.regs.srcBase = s.regs.srcBase ∧ t.regs.srcLen = s.regs.srcLen ∧ t.regs.dstBase = s.regs.dstBase ∧
      t.regs.dstCap = s.regs.dstCap ∧ t.eng = { s.eng with phase := .check } ∧ t.winDraw = s.winDraw ∧
      t.mem = s.mem ∧ t.irq = false

/-! ## Host memory access -/

/-- R37, R48, R66: a host store of a byte is what a host load of it returns, where the host is promised to see the
memory, and every other byte stays. On the host's turn a store places its first byte and has the rest left, a load
returns its byte, a byte the host is not promised to see being a draw, and `WAIT` reads `STATUS` and is left to do
until `DONE = 1`. The model's choices: the draw of an unseen byte (log entry 13), one byte a turn (log entry 19), and
the fault of an access past the address space (log entry 20). -/
def Obligations.HostLoadReturnsStore : Prop :=
  (∀ (s : State) (a : Nat) (v : Byte), s.hostAccess a = .ok () → s.mayStore a = true → s.mayLoad a = true →
    s.notSeen a = false →
    ∃ t, hostStore a v s = .ok t ∧ hostLoad a t = .ok (t.answerHost (v.setWidth 64)) ∧
      (∀ b, b ≠ a → t.byteAt b = s.byteAt b) ∧ t.regs = s.regs ∧ t.eng = s.eng) ∧
  ∀ (s : State) (rest : List Turn) (ops : List HostOp) (a : Nat), s.sched = .host :: rest →
    (∀ v vs, s.host = .store a (v :: vs) :: ops → s.mayStore a = true →
      (s.hostAccess a = .ok () →
        ∃ t, step s = .next t ∧ t.byteAt a = v ∧ (∀ b, b ≠ a → t.byteAt b = s.byteAt b) ∧ t.regs = s.regs ∧
          t.eng = s.eng ∧ t.host = .store (a + 1) vs :: ops ∧ t.hostReads = s.hostReads ∧ t.sched = rest) ∧
      (2 ^ s.cfg.addrW ≤ a → step s = .fault .noSuchAddress)) ∧
    (s.host = .store a [] :: ops → step s = .next { s with host := ops, sched := rest }) ∧
    (s.host = .load a :: ops → s.mayLoad a = true →
      (s.hostAccess a = .ok () →
        ∃ t, step s = .next t ∧
          t.hostReads = (if s.notSeen a then Config.drawByte s.draws a else s.byteAt a).setWidth 64 :: s.hostReads ∧
          t.draws = (if s.notSeen a then s.draws + 1 else s.draws) ∧
          t.mem = s.mem ∧ t.regs = s.regs ∧ t.eng = s.eng ∧ t.host = ops ∧ t.sched = rest) ∧
      (2 ^ s.cfg.addrW ≤ a → step s = .fault .noSuchAddress)) ∧
    (s.host = .wait :: ops →
      ∃ t, step s = .next t ∧ t.hostReads = s.regs.statusWord :: s.hostReads ∧
        t.host = (if s.regs.done then ops else .wait :: ops) ∧
        t.mem = s.mem ∧ t.regs = s.regs ∧ t.eng = s.eng ∧ t.sched = rest)

/-- R148: while `BUSY = 1` the host has no move that writes a byte of the source buffer or touches a byte of the
destination buffer. -/
def Obligations.BusyBuffersAreRefused : Prop :=
  ∀ (s : State) (a : Nat) (v : Byte), s.regs.busy = true →
    (s.regs.source.contains a = true → hostStore a v s = .refused .busyBufferAccess) ∧
    (s.regs.dest.contains a = true →
      hostStore a v s = .refused .busyBufferAccess ∧ hostLoad a s = .refused .busyBufferAccess)

/-- R48 item 2, R112, R133: once the host has read `STATUS` with `DONE = 1`, a load of a byte the last command wrote
returns the byte in memory, whatever earlier commands wrote there; so it does for the destination of a successful
completion and for the planned range of a late error. -/
def Obligations.CompletionReleasesWrites : Prop :=
  ∀ (s : State) (a : Nat), s.hostAccess a = .ok () →
    (∀ p rest, s.unseen = p :: rest → s.regs.done = true → s.regs.busy = false →
      (p.contains a = true ∨ ∀ q ∈ rest, q.contains a = false) →
      hostLoad a (hostRead 0x018 s) = .ok ((hostRead 0x018 s).answerHost ((s.byteAt a).setWidth 64))) ∧
    (s.dstAddr 0 ≤ a → a < s.dstAddr s.regs.dstLen.toNat →
      hostLoad a (hostRead 0x018 s.complete) =
        .ok ((hostRead 0x018 s.complete).answerHost ((s.byteAt a).setWidth 64))) ∧
    (∀ code info planned, code ∈ [.unsupportedSymbol, .lengthMismatch, .undecodableStream] →
      s.dstAddr 0 ≤ a → a < s.dstAddr planned →
      hostLoad a (hostRead 0x018 (s.raise code info planned)) =
        .ok ((hostRead 0x018 (s.raise code info planned)).answerHost
          (((s.raise code info planned).byteAt a).setWidth 64)))

/-! ## Reset -/

/-- R36: every register, window word and the interrupt output at reset. -/
def Obligations.ResetValues : Prop :=
  State.reset.readValue 0 = 0x0000000148554646 ∧
  (∀ o, 0 < o → o < 0x4000 → State.reset.readValue o = 0) ∧
  State.reset.eng.phase = .idle ∧ State.reset.irq = false ∧ State.reset.mem = []

/-- R145: the reset input, in one step: the core takes its reset values whatever it was doing, the parameters and what
lies outside the core stay, and memory outside the abandoned range is not changed. -/
def Obligations.ResetInputRestoresTheCore : Prop :=
  ∀ (s : State) (rest : List Turn), s.sched = .reset :: rest →
    ∃ t, step s = .next t ∧ t.regs = State.reset.regs ∧ t.eng.phase = .idle ∧ t.irq = false ∧
      (∀ o, 0 < o → o < 0x4000 → t.readValue o = 0) ∧ t.cfg = s.cfg ∧ t.host = s.host ∧ t.hostReads = s.hostReads ∧
      s.KeepsOutside t (abandonedLen s) ∧ (s.eng.phase = .idle → t.mem = s.mem)

/-- R145, R46: the range a reset leaves unconstrained: the whole destination buffer before PLAN is done, the planned
range after it, nothing for a command that writes no byte or a word that is no command. -/
def Obligations.AbandonedRange : Prop :=
  ∀ s : State,
    (decode s.regs.cmd = .ok .compress → s.eng.phase ∈ [.check, .count, .tree, .codes, .plan] →
      abandonedLen s = s.regs.dstCap.toNat) ∧
    (decode s.regs.cmd = .ok .compress → s.eng.phase ∈ [.writeHdr, .encode, .finish] →
      abandonedLen s = headerLen s.eng.n + s.eng.payload) ∧
    (decode s.regs.cmd = .ok .decompress → s.eng.phase ∈ [.check, .readHdr, .plan] →
      abandonedLen s = s.regs.dstCap.toNat) ∧
    (decode s.regs.cmd = .ok .decompress → s.eng.phase ∈ [.tree, .codes, .decode, .finish] →
      abandonedLen s = s.eng.total) ∧
    (decode s.regs.cmd = .ok .nop ∨ decode s.regs.cmd = .ok .analyze ∨ (∃ e, decode s.regs.cmd = .error e) →
      abandonedLen s = 0)

/-! ## Errors and completion -/

/-- R133: error termination, for every code and every value. -/
def Obligations.ErrorTermination : Prop :=
  ∀ (s : State) (code : ErrCode) (info planned : Nat),
    (s.raise code info planned).regs.Failed code info ∧ (s.raise code info planned).eng.phase = .idle ∧
    s.SameOperands (s.raise code info planned) ∧ (s.raise code info planned).sched = s.sched

/-- R134: after an early error the destination is unchanged, after a late one every byte outside the planned range is
unchanged. -/
def Obligations.DestinationAfterError : Prop :=
  ∀ (s : State) (code : ErrCode) (info planned : Nat),
    s.KeepsOutside (s.raise code info planned) planned ∧
    (code ∉ [.unsupportedSymbol, .lengthMismatch, .undecodableStream] →
      (s.raise code info planned).mem = s.mem)

/-- R32: after ILLEGAL_CMD and BAD_BUFFER the windows read what the state that raised the error shows with `BUSY = 0`
(that an issue leaves the windows' tables and draw alone is `WriteToCmdIssues`); after every other error they read a
draw, the same at every read, that no earlier draw was (log entry 9). -/
def Obligations.WindowsAfterError : Prop :=
  ∀ (s : State) (code : ErrCode) (info planned o : Nat), 0x1000 ≤ o →
    (code ∈ [.illegalCmd, .badBuffer] →
      (s.raise code info planned).readValue o =
        ({ s with regs := { s.regs with busy := false } } : State).readValue o) ∧
    (code ∉ [.illegalCmd, .badBuffer] → ∃ d, s.draws ≤ d ∧ (s.raise code info planned).winDraw = some d ∧
      (s.raise code info planned).readValue o = Config.drawWindow d o ∧
      (hostRead o (s.raise code info planned)).readValue o = Config.drawWindow d o)

/-- R109, R111: a word that is no command completes with ILLEGAL_CMD and itself in `ERR_INFO`; no memory is accessed
and the windows keep their values. -/
def Obligations.IllegalWordCompletes : Prop :=
  ∀ (s : State) (e : DecodeError), s.Fresh → s.regs.busy = true → decode s.regs.cmd = .error e →
    ∃ t, step s = .next t ∧ t.regs.Failed .illegalCmd s.regs.cmd.toNat ∧ t.regs.errInfo = s.regs.cmd ∧
      t.regs.statusWord = 0x102 ∧ t.eng.phase = .idle ∧ t.mem = s.mem ∧ t.winDraw = s.winDraw ∧ t.eng.freq = s.eng.freq ∧
      t.eng.codes = s.eng.codes ∧ s.SameOperands t

/-- R110: the buffer checks in their order, without truncation, and overlap as a shared address of two ranges. -/
def Obligations.BufferChecks : Prop :=
  ∀ s : State,
    let srcEnd := s.regs.srcBase.toNat + s.regs.srcLen.toNat
    let dstEnd := s.regs.dstBase.toNat + s.regs.dstCap.toNat
    (2 ^ s.cfg.addrW < srcEnd → s.checkSrc = some 1 ∧ s.checkBoth = some 1) ∧
    (srcEnd ≤ 2 ^ s.cfg.addrW → s.cfg.maxSrcLen < s.regs.srcLen.toNat →
      s.checkSrc = some 2 ∧ s.checkBoth = some 2) ∧
    (srcEnd ≤ 2 ^ s.cfg.addrW → s.regs.srcLen.toNat ≤ s.cfg.maxSrcLen →
      (s.checkSrc = none) ∧
      (2 ^ s.cfg.addrW < dstEnd → s.checkBoth = some 3) ∧
      (dstEnd ≤ 2 ^ s.cfg.addrW →
        ((∃ a, s.regs.source.contains a = true ∧ s.regs.dest.contains a = true) → s.checkBoth = some 4) ∧
        ((∀ a, s.regs.source.contains a = true → s.regs.dest.contains a = false) → s.checkBoth = none)))

/-- R109, R110: COMPRESS and DECOMPRESS on refused buffers, ANALYZE on a refused source, complete with BAD_BUFFER and
touch no memory and no window. -/
def Obligations.RefusedBuffersComplete : Prop :=
  ∀ (s : State) (k : Nat) (i : Instr), s.Fresh →
    ((i = .compress ∨ i = .decompress) ∧ s.checkBoth = some k ∨ i = .analyze ∧ s.checkSrc = some k) →
    ∃ t, exec i s = .next t ∧ t.regs.Failed .badBuffer k ∧ t.eng.phase = .idle ∧ t.mem = s.mem ∧
      t.winDraw = s.winDraw ∧ t.eng.freq = s.eng.freq ∧ t.eng.codes = s.eng.codes ∧ s.SameOperands t

/-- R45: an engine whose next access, a read or a write in whichever phase, does not answer stays in its phase with
`BUSY = 1`, and nothing is written; a scheduled turn is used up. Nothing else makes it stay. -/
def Obligations.UnansweredAccessIsStuck : Prop :=
  ∀ (s : State) (i : Instr),
    (∀ a w, s.nextAccess i = some (a, w) → s.access a w = .stuck →
      (s.sched = [] → exec i s = .next s) ∧
      (∀ rest, s.sched = .engine :: rest → exec i s = .next { s with sched := rest })) ∧
    (stepOf i s = .stuck → ∃ a w, s.nextAccess i = some (a, w) ∧ s.access a w = .stuck)

/-! ## NOP -/

/-- R113: NOP completes with every result 0; no memory access, the windows keep their values, the operands are not
checked. -/
def Obligations.NopCompletes : Prop :=
  ∀ s : State, s.Fresh → s.ControlWf →
    ∃ t, exec .nop s = .next t ∧ t.regs.Completed 0 0 0 0 ∧ t.eng = { s.eng with phase := .idle } ∧ t.mem = s.mem ∧
      t.winDraw = s.winDraw ∧ s.SameOperands t

/-! ## The stages as functions -/

/-- R75, R77: the counts are how often each byte occurs, they sum to the input's length, and the order in which the
bytes occur does not matter. -/
def Obligations.CountsAreOccurrences : Prop :=
  ∀ bytes : List Byte,
    (bytes.length < 2 ^ 64 →
      (∀ b, (tableGet (countBytes bytes) b).toNat = bytes.count b) ∧ freqSum (countBytes bytes) = bytes.length) ∧
    (∀ other, bytes.Perm other → countBytes other = countBytes bytes)

/-- R79: `min_key(Q)` is an element of `Q`, and no element has a smaller key; the order is the lexicographic one of
`(freq, kind, tag)`, a leaf being of kind 0 with its symbol for a tag and an internal node of kind 1. -/
def Obligations.MinKeyIsLeast : Prop :=
  (∀ (nodes : List Node) (q : List Nat) (a : Nat), minKey nodes q = some a →
    a ∈ q ∧ ∀ b ∈ q, keyLt (nodeAt nodes b).key (nodeAt nodes a).key = false) ∧
  (∀ f k t f' k' t' : Nat, keyLt (f, k, t) (f', k', t') = true ↔
    f < f' ∨ f = f' ∧ (k < k' ∨ k = k' ∧ t < t')) ∧
  (∀ (f : Nat) (s : Byte), (Node.leaf f s).key = (f, 0, s.toNat)) ∧
  (∀ f t l r : Nat, (Node.internal f t l r).key = (f, 1, t))

/-- R79: no two nodes of a tree have the same key. -/
def Obligations.TreeKeysAreDistinct : Prop :=
  ∀ (t : Table Word) (x y : Nat), x < (buildTree t).1.length → y < (buildTree t).1.length →
    (nodeAt (buildTree t).1 x).key = (nodeAt (buildTree t).1 y).key → x = y

/-- R84: a tree of `n` leaves has `2n - 1` nodes; the root is the last of them. -/
def Obligations.TreeSize : Prop :=
  ∀ t : Table Word, 1 ≤ distinct t →
    (buildTree t).1.length = 2 * distinct t - 1 ∧ (buildTree t).2 = 2 * distinct t - 2

/-- R81, R85: every internal node's frequency is the sum of its children's, the child with the smaller key is the
left one, and the root's frequency is `T`. -/
def Obligations.TreeFrequencies : Prop :=
  ∀ t : Table Word,
    (∀ x f k l r, x < (buildTree t).1.length → nodeAt (buildTree t).1 x = .internal f k l r →
      f = (nodeAt (buildTree t).1 l).freq + (nodeAt (buildTree t).1 r).freq ∧ l < x ∧ r < x ∧
      keyLt (nodeAt (buildTree t).1 l).key (nodeAt (buildTree t).1 r).key = true) ∧
    (1 ≤ distinct t → (nodeAt (buildTree t).1 (buildTree t).2).freq = freqSum t)

/-- R89, R91: the symbols that occur have a code, of 1 to `max 1 (n - 1)` bits, and the others have none. -/
def Obligations.CodeLengths : Prop :=
  ∀ (t : Table Word) (s : Byte), 1 ≤ distinct t →
    (tableGet t s ≠ 0 → 1 ≤ codeLen (codesOf t) s ∧ codeLen (codesOf t) s ≤ max 1 (distinct t - 1)) ∧
    (tableGet t s = 0 → codeLen (codesOf t) s = 0)

/-- R90: no symbol's code begins with another's. -/
def Obligations.CodesArePrefixFree : Prop :=
  ∀ (t : Table Word) (x y : Byte), tableGet t x ≠ 0 → tableGet t y ≠ 0 → x ≠ y →
    ¬ (tableGet (codesOf t) x) <+: (tableGet (codesOf t) y)

/-- R90, R88: the codes of two or more symbols are complete, `2^255` times the sum of `2^(-CODE_LEN)` being `2^255`;
a single symbol has the code "0". -/
def Obligations.CodesAreComplete : Prop :=
  ∀ t : Table Word,
    (2 ≤ distinct t → ((present t).map fun s => 2 ^ (255 - codeLen (codesOf t) s)).sum = 2 ^ 255) ∧
    (∀ s, present t = [s] → tableGet (codesOf t) s = [false])

/-- R89, R94: the reverse lookup is the inverse of the code table. -/
def Obligations.ReverseLookupInverts : Prop :=
  ∀ (t : Table Word) (c : Bits) (s : Byte), 1 ≤ distinct t →
    (reverseLookup (decodeMap (assignments (buildTree t).1 (buildTree t).2)) c = some s ↔
      tableGet t s ≠ 0 ∧ tableGet (codesOf t) s = c)

/-- R62, R95, R96: the padding is 0 to 7 bits, 0 for an aligned length, the payload is the bits and the padding, and
bit `t` of the stream is bit `7 - t mod 8` of payload byte `t div 8`, the padding bits zero. -/
def Obligations.PackLength : Prop :=
  ∀ bs : Bits, (pack bs).2 ≤ 7 ∧ 8 * (pack bs).1.length = bs.length + (pack bs).2 ∧
    (bs.length % 8 = 0 → (pack bs).2 = 0) ∧
    ∀ t, t < 8 * (pack bs).1.length → ((pack bs).1.getD (t / 8) 0).getLsbD (7 - t % 8) = bs.getD t false

/-- R101: unpacking what was packed gives the bits back. -/
def Obligations.UnpackInvertsPack : Prop := ∀ bs : Bits, unpack (pack bs).1 (pack bs).2 = some bs

/-- R105, R56, R57, R59, R60: the length of an artifact, its bytes at their offsets, the numbers most significant byte
first, one entry for each symbol of the input in ascending order, and the empty artifact's bytes. -/
def Obligations.ArtifactLength : Prop :=
  (∀ bytes : List Byte, bytes ≠ [] → bytes.length < 2 ^ 64 →
    let a := artifact bytes
    let f := countBytes bytes
    let n := distinct f
    let b := payloadBits f (codesOf f)
    let p := pack (bytes.flatMap (tableGet (codesOf f)))
    a.length = 6 + 12 * n + (b + padOf b) / 8 ∧
    (∀ j, j < 4 → a[j]? = some (BitVec.ofNat 8 (n / 256 ^ (3 - j)))) ∧
    (∀ (i : Nat) (s : Byte), (present f)[i]? = some s →
      (∀ j, j < 3 → a[4 + 12 * i + j]? = some 0) ∧ a[7 + 12 * i]? = some s ∧
      ∀ j, j < 8 → a[8 + 12 * i + j]? = some (BitVec.ofNat 8 ((tableGet f s).toNat / 256 ^ (7 - j)))) ∧
    a[4 + 12 * n]? = some (BitVec.ofNat 8 (padOf b)) ∧ a[5 + 12 * n]? = some 0 ∧ a.drop (6 + 12 * n) = p.1 ∧
    (present f).length = n ∧ (present f).Pairwise (fun x y => x.toNat < y.toNat) ∧
    ∀ s, s ∈ present f ↔ s ∈ bytes) ∧
  artifact [] = [0, 0, 0, 0, 0, 1]

/-- R107: deserializing an artifact gives back its table, `n`, `T`, `pad` and `P`; the empty artifact gives EMPTY. -/
def Obligations.HeaderReadsBack : Prop :=
  (∀ (bytes : List Byte) (maxLen : Nat), bytes ≠ [] → bytes.length ≤ maxLen → maxLen < 2 ^ 64 →
    parseHeader maxLen (artifact bytes) =
      .table (countBytes bytes) (distinct (countBytes bytes)) bytes.length
        (pack (bytes.flatMap (tableGet (codesOf (countBytes bytes))))).2
        (pack (bytes.flatMap (tableGet (codesOf (countBytes bytes))))).1.length) ∧
  ∀ maxLen : Nat, parseHeader maxLen (artifact []) = .empty

/-- R123, R128: the walk over an artifact's own stream gives the input back. -/
def Obligations.WalkDecodesArtifact : Prop :=
  ∀ bytes : List Byte, bytes ≠ [] → bytes.length < 2 ^ 64 →
    decodeArtifact (artifact bytes) (countBytes bytes) (distinct (countBytes bytes)) bytes.length
      (pack (bytes.flatMap (tableGet (codesOf (countBytes bytes))))).2 = .output bytes

/-! ## COMPRESS -/

/-- R114, R115: COMPRESS of the empty input. -/
def Obligations.CompressOfEmptyInput : Prop :=
  ∀ s : State, s.Fresh → s.checkBoth = none → s.regs.srcLen = 0 →
    (6 ≤ s.regs.dstCap.toNat → s.AdmitsDest 6 →
      ∃ t, exec .compress s = .next t ∧ t.regs.Completed 6 0 0 0 ∧ t.eng.phase = .idle ∧
        t.Holds [0x00, 0x00, 0x00, 0x00, 0x00, 0x01] ∧ s.KeepsOutside t 6 ∧
        t.Shows zeroFreq (Vector.replicate 256 []) ∧ s.SameOperands t) ∧
    (s.regs.dstCap.toNat < 6 →
      ∃ t, exec .compress s = .next t ∧ t.regs.Failed .outputOverflow 6 ∧ t.eng.phase = .idle ∧ t.mem = s.mem ∧
        s.SameOperands t)

/-- R114, R116, R117, R118: COMPRESS of a non-empty input writes the artifact and reports its sizes, or ends with
OUTPUT_OVERFLOW before any write. -/
def Obligations.CompressWritesArtifact : Prop :=
  ∀ s : State, s.Fresh → s.cfg.wf = true → s.checkBoth = none → s.regs.srcLen ≠ 0 → s.AdmitsSource →
    let x := s.sourceBytes
    let f := countBytes x
    ((artifact x).length ≤ s.regs.dstCap.toNat → s.AdmitsDest (artifact x).length →
      ∃ t, exec .compress s = .next t ∧
        t.regs.Completed (artifact x).length (payloadBits f (codesOf f)) (distinct f)
          (padOf (payloadBits f (codesOf f))) ∧
        t.eng.phase = .idle ∧ t.Holds (artifact x) ∧ s.KeepsOutside t (artifact x).length ∧
        t.Shows f (codesOf f) ∧ s.SameOperands t) ∧
    (s.regs.dstCap.toNat < (artifact x).length →
      ∃ t, exec .compress s = .next t ∧ t.regs.Failed .outputOverflow (artifact x).length ∧ t.eng.phase = .idle ∧
        t.mem = s.mem ∧ s.SameOperands t)

/-- R118, R93: the encoding pass's checks, which only a source changed under the engine reaches: a byte with no code,
a code past `B` bits, and a final total other than `B`. -/
def Obligations.EncodeChecks : Prop :=
  ∀ s : State, s.sched = [] → s.eng.phase = .encode → s.eng.pending = [] →
    (∀ b, s.eng.idx < s.regs.srcLen.toNat → s.access (s.srcAddr s.eng.idx) false = .ok () →
      s.byteAt (s.srcAddr s.eng.idx) = b →
      (codeLen s.eng.codes b = 0 →
        ∃ t, exec .compress s = .next t ∧ t.regs.Failed .unsupportedSymbol s.eng.idx ∧
          s.KeepsOutside t s.eng.artifactSize) ∧
      (0 < codeLen s.eng.codes b → s.eng.bits < s.eng.packed + codeLen s.eng.codes b →
        ∃ t, exec .compress s = .next t ∧ t.regs.Failed .lengthMismatch s.eng.idx ∧
          s.KeepsOutside t s.eng.artifactSize)) ∧
    (s.eng.idx = s.regs.srcLen.toNat → s.eng.packed ≠ s.eng.bits →
      ∃ t, exec .compress s = .next t ∧ t.regs.Failed .lengthMismatch s.regs.srcLen.toNat ∧
        s.KeepsOutside t s.eng.artifactSize)

/-- R46, R117: what a COMPRESS that goes on leaves alone: the operands, every byte outside the planned range, every
byte outside the destination buffer, and on a scheduled turn in a phase up to PLAN all of memory. -/
def Obligations.CompressFrame : Prop :=
  ∀ s t : State, s.CompressWf → exec .compress s = .next t →
    s.SameOperands t ∧ s.KeepsOutside t t.eng.artifactSize ∧
    (∀ a, s.regs.dest.contains a = false → t.byteAt a = s.byteAt a) ∧
    (∀ rest, s.sched = .engine :: rest → s.eng.phase ∈ [.check, .count, .tree, .codes, .plan] → t.mem = s.mem)

/-! ## DECOMPRESS -/

/-- R119 to R123, R106, R132: DECOMPRESS of any artifact: the first failing header check, or the empty output, or
OUTPUT_OVERFLOW before any write, or the walk's output or error. -/
def Obligations.DecompressFollowsArtifact : Prop :=
  ∀ s : State, s.Fresh → s.cfg.wf = true → s.checkBoth = none → s.AdmitsSource →
    s.AdmitsDest s.regs.dstCap.toNat →
    ∃ t, exec .decompress s = .next t ∧ t.eng.phase = .idle ∧ s.SameOperands t ∧
      match parseHeader s.cfg.maxSrcLen s.sourceBytes with
      | .error code info => t.regs.Failed code info ∧ t.mem = s.mem
      | .empty => t.regs.Completed 0 0 0 0 ∧ t.mem = s.mem ∧ t.Shows zeroFreq (Vector.replicate 256 [])
      | .table f n total pad p =>
        if s.regs.dstCap.toNat < total then t.regs.Failed .outputOverflow total ∧ t.mem = s.mem
        else
          s.KeepsOutside t total ∧
          match decodeArtifact s.sourceBytes f n total pad with
          | .output out => t.regs.Completed total (8 * p - pad) n pad ∧ t.Holds out ∧ t.Shows f (codesOf f)
          | .lengthMismatch info => t.regs.Failed .lengthMismatch info
          | .undecodable info => t.regs.Failed .undecodableStream info

/-- R119, R128: DECOMPRESS of the artifact of an input, the empty one included, gives the input back. -/
def Obligations.DecompressInvertsCompress : Prop :=
  ∀ (s : State) (x : List Byte), s.Fresh → s.cfg.wf = true → s.checkBoth = none → s.AdmitsSource →
    s.AdmitsDest x.length → x.length ≤ s.cfg.maxSrcLen → s.sourceBytes = artifact x →
    x.length ≤ s.regs.dstCap.toNat →
    ∃ t, exec .decompress s = .next t ∧
      t.regs.Completed x.length (payloadBits (countBytes x) (codesOf (countBytes x))) (distinct (countBytes x))
        (padOf (payloadBits (countBytes x) (codesOf (countBytes x)))) ∧
      t.Holds x ∧ s.KeepsOutside t x.length

/-- R120, R121, R46: what a DECOMPRESS that goes on leaves alone; on a scheduled turn in a phase before DECODE, all of
memory. -/
def Obligations.DecompressFrame : Prop :=
  ∀ s t : State, s.DecompressWf → exec .decompress s = .next t →
    s.SameOperands t ∧ s.KeepsOutside t t.eng.total ∧
    (∀ a, s.regs.dest.contains a = false → t.byteAt a = s.byteAt a) ∧
    (∀ rest, s.sched = .engine :: rest → s.eng.phase ∈ [.check, .readHdr, .plan, .tree, .codes] → t.mem = s.mem)

/-! ## ANALYZE -/

/-- R125: ANALYZE of any source: the tables in the windows, the sizes in the result registers, `DST_LEN` 0, no memory
written, the destination registers not looked at. -/
def Obligations.AnalyzeReportsTables : Prop :=
  ∀ s : State, s.Fresh → s.cfg.wf = true → s.checkSrc = none →
    (s.regs.srcLen = 0 →
      ∃ t, exec .analyze s = .next t ∧ t.regs.Completed 0 0 0 0 ∧ t.eng.phase = .idle ∧ t.mem = s.mem ∧
        t.Shows zeroFreq (Vector.replicate 256 []) ∧ s.SameOperands t) ∧
    (s.regs.srcLen ≠ 0 → s.AdmitsSource →
      let f := countBytes s.sourceBytes
      ∃ t, exec .analyze s = .next t ∧
        t.regs.Completed 0 (payloadBits f (codesOf f)) (distinct f) (padOf (payloadBits f (codesOf f))) ∧
        t.eng.phase = .idle ∧ t.mem = s.mem ∧ t.Shows f (codesOf f) ∧ s.SameOperands t)

/-- R113, R125, R46: whatever the phase, a NOP or an ANALYZE that goes on writes no memory byte and no operand, and a
NOP writes nothing of the engine but its phase. -/
def Obligations.NopAndAnalyzeFrame : Prop :=
  ∀ s t : State,
    (exec .nop s = .next t →
      s.SameOperands t ∧ t.mem = s.mem ∧ t.winDraw = s.winDraw ∧ t.draws = s.draws ∧
      t.eng = { s.eng with phase := t.eng.phase }) ∧
    (exec .analyze s = .next t → s.SameOperands t ∧ t.mem = s.mem)

/-! ## Whole-machine rules -/

/-- R37, R7: every step keeps memory in its canonical form, and no step changes the parameters. -/
def Obligations.StepKeepsMemoryCanonical : Prop :=
  ∀ s t : State, step s = .next t → (memWf s.mem = true → memWf t.mem = true) ∧ t.cfg = s.cfg

/-- R26, R33, R116, R120, R125, R136: every step keeps `PHASE = IDLE` exactly when `BUSY = 0`, `BUSY` and `DONE` never
both 1, the results 0 while a command runs, and the phase in the command's sequence. -/
def Obligations.StepKeepsControl : Prop :=
  ∀ s t : State, s.ControlWf → step s = .next t → t.ControlWf

/-- R34, R84, R97, R110, R117: every step keeps the working state of the running command. -/
def Obligations.StepKeepsWorkingState : Prop :=
  ∀ s t : State, s.ControlWf → s.EngineWf → step s = .next t → t.EngineWf

/-- Memory, control and working state hold at reset. -/
def Obligations.ResetMeetsInvariants : Prop :=
  memWf State.reset.mem = true ∧ State.reset.ControlWf ∧ State.reset.EngineWf ∧ State.reset.cfg.wf = true

/-- R38, R46, R148: on the engine's turn no byte outside the destination buffer changes. -/
def Obligations.EngineWritesOnlyTheDestination : Prop :=
  ∀ s t : State, s.ControlWf → s.EngineWf → s.regs.busy = true →
    (s.sched = [] ∨ s.sched.head? = some .engine) → step s = .next t →
    ∀ a, s.regs.dest.contains a = false → t.byteAt a = s.byteAt a

/-- R38, R131: on the engine's turn the machine does not stop with a fault. -/
def Obligations.EngineNeverFaults : Prop :=
  ∀ (s : State) (f : Fault), s.ControlWf → s.EngineWf → s.regs.busy = true →
    (s.sched = [] ∨ s.sched.head? = some .engine) → step s ≠ .fault f

/-- R127: on memory that answers, every command completes in the step that runs it uncontested. -/
def Obligations.EveryCommandCompletes : Prop :=
  ∀ (s : State) (i : Instr), s.Fresh → s.cfg.wf = true →
    (∀ a w, a < 2 ^ s.cfg.addrW → s.access a w = .ok ()) →
    ∃ t, exec i s = .next t ∧ t.eng.phase = .idle ∧ t.regs.busy = false ∧ t.regs.done = true
end

