-- ==== Sys2Proof/Laws/State.lean ====
section
/-! SUPPORT. What each update of the state leaves in each field: one lemma per field, true by rfl. -/

namespace Sys2Proof.Machine

open Sys2Proof

/-! ### goto -/

@[simp] theorem State.goto_cfg (s : State) (p : Phase) : (s.goto p).cfg = s.cfg := rfl
@[simp] theorem State.goto_regs (s : State) (p : Phase) : (s.goto p).regs = s.regs := rfl
@[simp] theorem State.goto_eng (s : State) (p : Phase) : (s.goto p).eng = { s.eng with phase := p } := rfl
@[simp] theorem State.goto_mem (s : State) (p : Phase) : (s.goto p).mem = s.mem := rfl
@[simp] theorem State.goto_winDraw (s : State) (p : Phase) : (s.goto p).winDraw = s.winDraw := rfl
@[simp] theorem State.goto_unseen (s : State) (p : Phase) : (s.goto p).unseen = s.unseen := rfl
@[simp] theorem State.goto_draws (s : State) (p : Phase) : (s.goto p).draws = s.draws := rfl
@[simp] theorem State.goto_host (s : State) (p : Phase) : (s.goto p).host = s.host := rfl
@[simp] theorem State.goto_sched (s : State) (p : Phase) : (s.goto p).sched = s.sched := rfl
@[simp] theorem State.goto_hostReads (s : State) (p : Phase) : (s.goto p).hostReads = s.hostReads := rfl

/-! ### setResults -/

@[simp] theorem State.setResults_cfg (s : State) (a b c d : Nat) : (s.setResults a b c d).cfg = s.cfg := rfl
@[simp] theorem State.setResults_regs (s : State) (a b c d : Nat) : (s.setResults a b c d).regs = { s.regs with dstLen := BitVec.ofNat 64 a, bitLen := BitVec.ofNat 64 b, symCount := BitVec.ofNat 64 c, padCount := BitVec.ofNat 64 d } := rfl
@[simp] theorem State.setResults_eng (s : State) (a b c d : Nat) : (s.setResults a b c d).eng = s.eng := rfl
@[simp] theorem State.setResults_mem (s : State) (a b c d : Nat) : (s.setResults a b c d).mem = s.mem := rfl
@[simp] theorem State.setResults_winDraw (s : State) (a b c d : Nat) : (s.setResults a b c d).winDraw = s.winDraw := rfl
@[simp] theorem State.setResults_unseen (s : State) (a b c d : Nat) : (s.setResults a b c d).unseen = s.unseen := rfl
@[simp] theorem State.setResults_draws (s : State) (a b c d : Nat) : (s.setResults a b c d).draws = s.draws := rfl
@[simp] theorem State.setResults_host (s : State) (a b c d : Nat) : (s.setResults a b c d).host = s.host := rfl
@[simp] theorem State.setResults_sched (s : State) (a b c d : Nat) : (s.setResults a b c d).sched = s.sched := rfl
@[simp] theorem State.setResults_hostReads (s : State) (a b c d : Nat) : (s.setResults a b c d).hostReads = s.hostReads := rfl

/-! ### showTables -/

@[simp] theorem State.showTables_cfg (s : State) : (s.showTables).cfg = s.cfg := rfl
@[simp] theorem State.showTables_regs (s : State) : (s.showTables).regs = s.regs := rfl
@[simp] theorem State.showTables_eng (s : State) : (s.showTables).eng = s.eng := rfl
@[simp] theorem State.showTables_mem (s : State) : (s.showTables).mem = s.mem := rfl
@[simp] theorem State.showTables_winDraw (s : State) : (s.showTables).winDraw = none := rfl
@[simp] theorem State.showTables_unseen (s : State) : (s.showTables).unseen = s.unseen := rfl
@[simp] theorem State.showTables_draws (s : State) : (s.showTables).draws = s.draws := rfl
@[simp] theorem State.showTables_host (s : State) : (s.showTables).host = s.host := rfl
@[simp] theorem State.showTables_sched (s : State) : (s.showTables).sched = s.sched := rfl
@[simp] theorem State.showTables_hostReads (s : State) : (s.showTables).hostReads = s.hostReads := rfl

/-! ### complete -/

@[simp] theorem State.complete_cfg (s : State) : (s.complete).cfg = s.cfg := rfl
@[simp] theorem State.complete_regs (s : State) : (s.complete).regs = { s.regs with busy := false, done := true, err := .success, errInfo := 0 } := rfl
@[simp] theorem State.complete_eng (s : State) : (s.complete).eng = { s.eng with phase := .idle } := rfl
@[simp] theorem State.complete_mem (s : State) : (s.complete).mem = s.mem := rfl
@[simp] theorem State.complete_winDraw (s : State) : (s.complete).winDraw = s.winDraw := rfl
@[simp] theorem State.complete_draws (s : State) : (s.complete).draws = s.draws := rfl
@[simp] theorem State.complete_host (s : State) : (s.complete).host = s.host := rfl
@[simp] theorem State.complete_sched (s : State) : (s.complete).sched = s.sched := rfl
@[simp] theorem State.complete_hostReads (s : State) : (s.complete).hostReads = s.hostReads := rfl

/-! ### publish -/

@[simp] theorem State.publish_cfg (s : State) (k : Nat) : (s.publish k).cfg = s.cfg := rfl
@[simp] theorem State.publish_regs (s : State) (k : Nat) : (s.publish k).regs = s.regs := rfl
@[simp] theorem State.publish_eng (s : State) (k : Nat) : (s.publish k).eng = s.eng := rfl
@[simp] theorem State.publish_mem (s : State) (k : Nat) : (s.publish k).mem = s.mem := rfl
@[simp] theorem State.publish_winDraw (s : State) (k : Nat) : (s.publish k).winDraw = s.winDraw := rfl
@[simp] theorem State.publish_draws (s : State) (k : Nat) : (s.publish k).draws = s.draws := rfl
@[simp] theorem State.publish_host (s : State) (k : Nat) : (s.publish k).host = s.host := rfl
@[simp] theorem State.publish_sched (s : State) (k : Nat) : (s.publish k).sched = s.sched := rfl
@[simp] theorem State.publish_hostReads (s : State) (k : Nat) : (s.publish k).hostReads = s.hostReads := rfl

/-! ### observeDone -/

@[simp] theorem State.observeDone_cfg (s : State) : (s.observeDone).cfg = s.cfg := rfl
@[simp] theorem State.observeDone_regs (s : State) : (s.observeDone).regs = s.regs := rfl
@[simp] theorem State.observeDone_eng (s : State) : (s.observeDone).eng = s.eng := rfl
@[simp] theorem State.observeDone_mem (s : State) : (s.observeDone).mem = s.mem := rfl
@[simp] theorem State.observeDone_winDraw (s : State) : (s.observeDone).winDraw = s.winDraw := rfl
@[simp] theorem State.observeDone_draws (s : State) : (s.observeDone).draws = s.draws := rfl
@[simp] theorem State.observeDone_host (s : State) : (s.observeDone).host = s.host := rfl
@[simp] theorem State.observeDone_sched (s : State) : (s.observeDone).sched = s.sched := rfl
@[simp] theorem State.observeDone_hostReads (s : State) : (s.observeDone).hostReads = s.hostReads := rfl

/-! ### drawDestination -/

@[simp] theorem State.drawDestination_cfg (s : State) (k : Nat) : (s.drawDestination k).cfg = s.cfg := rfl
@[simp] theorem State.drawDestination_regs (s : State) (k : Nat) : (s.drawDestination k).regs = s.regs := rfl
@[simp] theorem State.drawDestination_eng (s : State) (k : Nat) : (s.drawDestination k).eng = s.eng := rfl
@[simp] theorem State.drawDestination_mem (s : State) (k : Nat) : (s.drawDestination k).mem = memDraw s.draws s.regs.dstBase.toNat (min k (2 ^ s.cfg.addrW - s.regs.dstBase.toNat)) s.mem := rfl
@[simp] theorem State.drawDestination_winDraw (s : State) (k : Nat) : (s.drawDestination k).winDraw = s.winDraw := rfl
@[simp] theorem State.drawDestination_unseen (s : State) (k : Nat) : (s.drawDestination k).unseen = s.unseen := rfl
@[simp] theorem State.drawDestination_draws (s : State) (k : Nat) : (s.drawDestination k).draws = s.draws + 1 := rfl
@[simp] theorem State.drawDestination_host (s : State) (k : Nat) : (s.drawDestination k).host = s.host := rfl
@[simp] theorem State.drawDestination_sched (s : State) (k : Nat) : (s.drawDestination k).sched = s.sched := rfl
@[simp] theorem State.drawDestination_hostReads (s : State) (k : Nat) : (s.drawDestination k).hostReads = s.hostReads := rfl

/-! ### drawWindows -/

@[simp] theorem State.drawWindows_cfg (s : State) : (s.drawWindows).cfg = s.cfg := rfl
@[simp] theorem State.drawWindows_regs (s : State) : (s.drawWindows).regs = s.regs := rfl
@[simp] theorem State.drawWindows_eng (s : State) : (s.drawWindows).eng = s.eng := rfl
@[simp] theorem State.drawWindows_mem (s : State) : (s.drawWindows).mem = s.mem := rfl
@[simp] theorem State.drawWindows_winDraw (s : State) : (s.drawWindows).winDraw = some s.draws := rfl
@[simp] theorem State.drawWindows_unseen (s : State) : (s.drawWindows).unseen = s.unseen := rfl
@[simp] theorem State.drawWindows_draws (s : State) : (s.drawWindows).draws = s.draws + 1 := rfl
@[simp] theorem State.drawWindows_host (s : State) : (s.drawWindows).host = s.host := rfl
@[simp] theorem State.drawWindows_sched (s : State) : (s.drawWindows).sched = s.sched := rfl
@[simp] theorem State.drawWindows_hostReads (s : State) : (s.drawWindows).hostReads = s.hostReads := rfl

/-! ### endWithError -/

@[simp] theorem State.endWithError_cfg (s : State) (c : ErrCode) (i : Nat) : (s.endWithError c i).cfg = s.cfg := rfl
@[simp] theorem State.endWithError_regs (s : State) (c : ErrCode) (i : Nat) : (s.endWithError c i).regs = { s.regs with err := c, errInfo := BitVec.ofNat 64 i, dstLen := 0, bitLen := 0, symCount := 0, padCount := 0, busy := false, done := true } := rfl
@[simp] theorem State.endWithError_eng (s : State) (c : ErrCode) (i : Nat) : (s.endWithError c i).eng = { s.eng with phase := .idle } := rfl
@[simp] theorem State.endWithError_mem (s : State) (c : ErrCode) (i : Nat) : (s.endWithError c i).mem = s.mem := rfl
@[simp] theorem State.endWithError_winDraw (s : State) (c : ErrCode) (i : Nat) : (s.endWithError c i).winDraw = s.winDraw := rfl
@[simp] theorem State.endWithError_unseen (s : State) (c : ErrCode) (i : Nat) : (s.endWithError c i).unseen = s.unseen := rfl
@[simp] theorem State.endWithError_draws (s : State) (c : ErrCode) (i : Nat) : (s.endWithError c i).draws = s.draws := rfl
@[simp] theorem State.endWithError_host (s : State) (c : ErrCode) (i : Nat) : (s.endWithError c i).host = s.host := rfl
@[simp] theorem State.endWithError_sched (s : State) (c : ErrCode) (i : Nat) : (s.endWithError c i).sched = s.sched := rfl
@[simp] theorem State.endWithError_hostReads (s : State) (c : ErrCode) (i : Nat) : (s.endWithError c i).hostReads = s.hostReads := rfl

/-! ### issue -/

@[simp] theorem State.issue_cfg (s : State) (w : Word) : (s.issue w).cfg = s.cfg := rfl
@[simp] theorem State.issue_regs (s : State) (w : Word) : (s.issue w).regs = { s.regs with cmd := w, busy := true, done := false, err := .success, dstLen := 0, errInfo := 0, bitLen := 0, symCount := 0, padCount := 0 } := rfl
@[simp] theorem State.issue_eng (s : State) (w : Word) : (s.issue w).eng = { s.eng with phase := .check } := rfl
@[simp] theorem State.issue_mem (s : State) (w : Word) : (s.issue w).mem = s.mem := rfl
@[simp] theorem State.issue_winDraw (s : State) (w : Word) : (s.issue w).winDraw = s.winDraw := rfl
@[simp] theorem State.issue_unseen (s : State) (w : Word) : (s.issue w).unseen = s.unseen := rfl
@[simp] theorem State.issue_draws (s : State) (w : Word) : (s.issue w).draws = s.draws := rfl
@[simp] theorem State.issue_host (s : State) (w : Word) : (s.issue w).host = s.host := rfl
@[simp] theorem State.issue_sched (s : State) (w : Word) : (s.issue w).sched = s.sched := rfl
@[simp] theorem State.issue_hostReads (s : State) (w : Word) : (s.issue w).hostReads = s.hostReads := rfl

/-! ### setHost -/

@[simp] theorem State.setHost_cfg (s : State) (ops : List HostOp) : (s.setHost ops).cfg = s.cfg := rfl
@[simp] theorem State.setHost_regs (s : State) (ops : List HostOp) : (s.setHost ops).regs = s.regs := rfl
@[simp] theorem State.setHost_eng (s : State) (ops : List HostOp) : (s.setHost ops).eng = s.eng := rfl
@[simp] theorem State.setHost_mem (s : State) (ops : List HostOp) : (s.setHost ops).mem = s.mem := rfl
@[simp] theorem State.setHost_winDraw (s : State) (ops : List HostOp) : (s.setHost ops).winDraw = s.winDraw := rfl
@[simp] theorem State.setHost_unseen (s : State) (ops : List HostOp) : (s.setHost ops).unseen = s.unseen := rfl
@[simp] theorem State.setHost_draws (s : State) (ops : List HostOp) : (s.setHost ops).draws = s.draws := rfl
@[simp] theorem State.setHost_host (s : State) (ops : List HostOp) : (s.setHost ops).host = ops := rfl
@[simp] theorem State.setHost_sched (s : State) (ops : List HostOp) : (s.setHost ops).sched = s.sched := rfl
@[simp] theorem State.setHost_hostReads (s : State) (ops : List HostOp) : (s.setHost ops).hostReads = s.hostReads := rfl

/-! ### popTurn -/

@[simp] theorem State.popTurn_cfg (s : State) : (s.popTurn).cfg = s.cfg := rfl
@[simp] theorem State.popTurn_regs (s : State) : (s.popTurn).regs = s.regs := rfl
@[simp] theorem State.popTurn_eng (s : State) : (s.popTurn).eng = s.eng := rfl
@[simp] theorem State.popTurn_mem (s : State) : (s.popTurn).mem = s.mem := rfl
@[simp] theorem State.popTurn_winDraw (s : State) : (s.popTurn).winDraw = s.winDraw := rfl
@[simp] theorem State.popTurn_unseen (s : State) : (s.popTurn).unseen = s.unseen := rfl
@[simp] theorem State.popTurn_draws (s : State) : (s.popTurn).draws = s.draws := rfl
@[simp] theorem State.popTurn_host (s : State) : (s.popTurn).host = s.host := rfl
@[simp] theorem State.popTurn_sched (s : State) : (s.popTurn).sched = s.sched.tail := rfl
@[simp] theorem State.popTurn_hostReads (s : State) : (s.popTurn).hostReads = s.hostReads := rfl

/-! ### answerHost -/

@[simp] theorem State.answerHost_cfg (s : State) (v : Word) : (s.answerHost v).cfg = s.cfg := rfl
@[simp] theorem State.answerHost_regs (s : State) (v : Word) : (s.answerHost v).regs = s.regs := rfl
@[simp] theorem State.answerHost_eng (s : State) (v : Word) : (s.answerHost v).eng = s.eng := rfl
@[simp] theorem State.answerHost_mem (s : State) (v : Word) : (s.answerHost v).mem = s.mem := rfl
@[simp] theorem State.answerHost_winDraw (s : State) (v : Word) : (s.answerHost v).winDraw = s.winDraw := rfl
@[simp] theorem State.answerHost_unseen (s : State) (v : Word) : (s.answerHost v).unseen = s.unseen := rfl
@[simp] theorem State.answerHost_draws (s : State) (v : Word) : (s.answerHost v).draws = s.draws := rfl
@[simp] theorem State.answerHost_host (s : State) (v : Word) : (s.answerHost v).host = s.host := rfl
@[simp] theorem State.answerHost_sched (s : State) (v : Word) : (s.answerHost v).sched = s.sched := rfl
@[simp] theorem State.answerHost_hostReads (s : State) (v : Word) : (s.answerHost v).hostReads = v :: s.hostReads := rfl

/-! ### withCommand -/

@[simp] theorem State.withCommand_cfg (s : State) (w : Word) : (s.withCommand w).cfg = s.cfg := rfl
@[simp] theorem State.withCommand_regs (s : State) (w : Word) : (s.withCommand w).regs = (s.issue w).regs := rfl
@[simp] theorem State.withCommand_eng (s : State) (w : Word) : (s.withCommand w).eng = { s.eng with phase := .check } := rfl
@[simp] theorem State.withCommand_mem (s : State) (w : Word) : (s.withCommand w).mem = s.mem := rfl
@[simp] theorem State.withCommand_winDraw (s : State) (w : Word) : (s.withCommand w).winDraw = s.winDraw := rfl
@[simp] theorem State.withCommand_unseen (s : State) (w : Word) : (s.withCommand w).unseen = s.unseen := rfl
@[simp] theorem State.withCommand_draws (s : State) (w : Word) : (s.withCommand w).draws = s.draws := rfl
@[simp] theorem State.withCommand_host (s : State) (w : Word) : (s.withCommand w).host = s.host := rfl
@[simp] theorem State.withCommand_sched (s : State) (w : Word) : (s.withCommand w).sched = [] := rfl
@[simp] theorem State.withCommand_hostReads (s : State) (w : Word) : (s.withCommand w).hostReads = s.hostReads := rfl

/-! ### raise -/

@[simp] theorem State.raise_cfg (s : State) (code : ErrCode) (info planned : Nat) :
    (s.raise code info planned).cfg = s.cfg := by
  unfold State.raise
  cases code.spoilsDestination <;> cases code.keepsWindows <;> rfl

@[simp] theorem State.raise_regs (s : State) (code : ErrCode) (info planned : Nat) :
    (s.raise code info planned).regs = (s.endWithError code info).regs := by
  unfold State.raise
  cases code.spoilsDestination <;> cases code.keepsWindows <;> rfl

@[simp] theorem State.raise_eng (s : State) (code : ErrCode) (info planned : Nat) :
    (s.raise code info planned).eng = { s.eng with phase := .idle } := by
  unfold State.raise
  cases code.spoilsDestination <;> cases code.keepsWindows <;> rfl

@[simp] theorem State.raise_host (s : State) (code : ErrCode) (info planned : Nat) :
    (s.raise code info planned).host = s.host := by
  unfold State.raise
  cases code.spoilsDestination <;> cases code.keepsWindows <;> rfl

@[simp] theorem State.raise_sched (s : State) (code : ErrCode) (info planned : Nat) :
    (s.raise code info planned).sched = s.sched := by
  unfold State.raise
  cases code.spoilsDestination <;> cases code.keepsWindows <;> rfl

@[simp] theorem State.raise_hostReads (s : State) (code : ErrCode) (info planned : Nat) :
    (s.raise code info planned).hostReads = s.hostReads := by
  unfold State.raise
  cases code.spoilsDestination <;> cases code.keepsWindows <;> rfl

/-- An error that spoils no destination leaves memory as it was (R134). -/
theorem State.raise_mem_early (s : State) (code : ErrCode) (info planned : Nat)
    (h : code.spoilsDestination = false) : (s.raise code info planned).mem = s.mem := by
  unfold State.raise
  cases code.keepsWindows <;> simp [h]

/-- An error that spoils the destination draws its planned range (R134). -/
theorem State.raise_mem_late (s : State) (code : ErrCode) (info planned : Nat)
    (h : code.spoilsDestination = true) : (s.raise code info planned).mem = (s.drawDestination planned).mem := by
  unfold State.raise
  cases code.keepsWindows <;> simp [h]

end Sys2Proof.Machine
end

