-- ==== Sys2Proof/Laws/Memory.lean ====
section
/-! SUPPORT. Laws of the tables, of memory and of the engine's one-byte accesses. -/

namespace Sys2Proof.Machine

open Sys2Proof

/-! ## Tables -/

@[simp] theorem tableGet_tablePut_self {α : Type} (t : Table α) (b : Byte) (x : α) :
    tableGet (tablePut t b x) b = x := by
  simp [tableGet, tablePut]

theorem tableGet_tablePut_of_ne {α : Type} (t : Table α) {b c : Byte} (x : α) (h : c ≠ b) :
    tableGet (tablePut t b x) c = tableGet t c := by
  have hne : b.toNat ≠ c.toNat := fun he => h (BitVec.eq_of_toNat_eq he.symm)
  simp [tableGet, tablePut, Vector.getElem_set_ne, hne]

theorem tableGet_tablePut {α : Type} (t : Table α) (b c : Byte) (x : α) :
    tableGet (tablePut t b x) c = if c = b then x else tableGet t c := by
  by_cases h : c = b
  · subst h; simp
  · simp [h, tableGet_tablePut_of_ne]

@[simp] theorem tableGet_replicate {α : Type} (x : α) (b : Byte) :
    tableGet (Vector.replicate 256 x) b = x := by
  simp [tableGet]

@[simp] theorem tableGet_zeroFreq (b : Byte) : tableGet zeroFreq b = 0 := tableGet_replicate 0 b

/-- Two tables with the same entries are the same table. -/
theorem table_ext {α : Type} {t u : Table α} (h : ∀ b : Byte, tableGet t b = tableGet u b) : t = u := by
  apply Vector.ext
  intro i hi
  have := h (BitVec.ofNat 8 i)
  simpa [tableGet, Nat.mod_eq_of_lt hi] using this

/-- Every byte value is a symbol. -/
theorem mem_allSymbols (b : Byte) : b ∈ allSymbols := by
  refine List.mem_map.2 ⟨b.toNat, List.mem_range.2 b.isLt, ?_⟩
  simp

theorem allSymbols_nodup : allSymbols.Nodup := by
  refine (List.nodup_map_iff_inj_on List.nodup_range).2 ?_
  intro x hx y hy he
  have := congrArg BitVec.toNat he
  simpa [Nat.mod_eq_of_lt (List.mem_range.1 hx), Nat.mod_eq_of_lt (List.mem_range.1 hy)] using this

@[simp] theorem length_allSymbols : allSymbols.length = 256 := by simp [allSymbols]

/-! ## Memory -/

@[simp] theorem memFind_memPut_self (m : List Host.Cell) (a : Nat) (v : Byte) :
    memFind (memPut m a v) a = some v := by
  induction m with
  | nil => simp [memPut, memFind]
  | cons c m ih =>
    obtain ⟨k, w⟩ := c
    unfold memPut
    split
    · simp [memFind]
    · split
      · simp [memFind]
      · have : k ≠ a := by omega
        simp [memFind, this, ih]

theorem memFind_memPut_of_ne (m : List Host.Cell) {a b : Nat} (v : Byte) (h : b ≠ a) :
    memFind (memPut m a v) b = memFind m b := by
  induction m with
  | nil => simp [memPut, memFind, Ne.symm h]
  | cons c m ih =>
    obtain ⟨k, w⟩ := c
    unfold memPut
    split
    · simp [memFind, Ne.symm h]
    · split
      · rename_i hk
        subst hk
        simp [memFind, Ne.symm h]
      · simp [memFind, ih]

/-- The canonical form, in Mathlib's words. -/
theorem memWf_iff_pairwise (m : List Host.Cell) : memWf m = true ↔ m.Pairwise (fun x y => x.1 < y.1) := by
  rw [← List.isChain_iff_pairwise]
  induction m with
  | nil => simp [memWf]
  | cons x m ih =>
    cases m with
    | nil => simp [memWf]
    | cons y m => simp [memWf, ih, List.isChain_cons_cons]

theorem memPut_keys (m : List Host.Cell) (a : Nat) (v : Byte) :
    ∀ c ∈ memPut m a v, c.1 = a ∨ c ∈ m := by
  induction m with
  | nil => simp [memPut]
  | cons x m ih =>
    obtain ⟨k, w⟩ := x
    unfold memPut
    intro c hc
    split at hc
    · simp at hc; rcases hc with h | h | h <;> simp [h]
    · split at hc
      · simp at hc; rcases hc with h | h <;> simp [h]
      · simp only [List.mem_cons] at hc
        rcases hc with h | h
        · simp [h]
        · rcases ih c h with h | h <;> simp [h]

/-- A write keeps the canonical form. -/
theorem memWf_memPut {m : List Host.Cell} (h : memWf m = true) (a : Nat) (v : Byte) :
    memWf (memPut m a v) = true := by
  rw [memWf_iff_pairwise] at *
  induction m with
  | nil => simp [memPut]
  | cons x m ih =>
    obtain ⟨k, w⟩ := x
    have hx := List.pairwise_cons.1 h
    unfold memPut
    split
    · rename_i hk
      refine List.pairwise_cons.2 ⟨?_, h⟩
      intro c hc
      rcases List.mem_cons.1 hc with h | h
      · simp [h, hk]
      · have := hx.1 c h
        simp at this ⊢; omega
    · split
      · rename_i hk
        subst hk
        exact List.pairwise_cons.2 ⟨hx.1, hx.2⟩
      · refine List.pairwise_cons.2 ⟨?_, ih hx.2⟩
        intro c hc
        rcases memPut_keys m a v c hc with h | h
        · simp [h]; omega
        · exact hx.1 c h

/-- A draw keeps the canonical form. -/
theorem memWf_memDraw {m : List Host.Cell} (h : memWf m = true) (d base k : Nat) :
    memWf (memDraw d base k m) = true := by
  induction k with
  | zero => exact h
  | succ k ih => exact memWf_memPut ih _ _

/-- A draw of `k` bytes changes none outside them. -/
theorem memFind_memDraw_outside (m : List Host.Cell) (d base k a : Nat) (h : a < base ∨ base + k ≤ a) :
    memFind (memDraw d base k m) a = memFind m a := by
  induction k with
  | zero => rfl
  | succ k ih =>
    unfold memDraw
    rw [memFind_memPut_of_ne _ _ (by omega), ih (by omega)]

/-- Two states with the same memory read the same bytes. -/
theorem State.byteAt_congr {s t : State} (h : t.mem = s.mem) (a : Nat) : t.byteAt a = s.byteAt a := by
  simp [State.byteAt, h]

/-- The draw of a destination changes no byte outside its first `len` bytes. -/
theorem State.drawDestination_outside (s : State) (len a : Nat)
    (h : ¬ (s.dstAddr 0 ≤ a ∧ a < s.dstAddr len)) : (s.drawDestination len).byteAt a = s.byteAt a := by
  simp only [State.dstAddr] at h
  simp only [State.byteAt, State.drawDestination_mem]
  rw [memFind_memDraw_outside _ _ _ _ _ (by omega)]

theorem Span.contains_iff {p : Span} {a : Nat} : p.contains a = true ↔ p.base ≤ a ∧ a < p.base + p.len := by
  simp [Span.contains]

/-- What is left of a span without another. -/
theorem Span.any_minus (p q : Span) (a : Nat) :
    ((p.minus q).any fun r => r.contains a) = (p.contains a && !q.contains a) := by
  rw [Bool.eq_iff_iff]
  unfold Span.minus
  split
  · simp only [List.any_cons, List.any_nil, Bool.or_false, Bool.and_eq_true, Bool.not_eq_true', Span.contains_iff,
      ← Bool.not_eq_true]
    omega
  · simp only [List.any_eq_true, List.mem_filter, List.mem_cons, List.not_mem_nil, or_false, decide_eq_true_eq,
      and_assoc, or_and_right, exists_or, exists_eq_left, Span.contains_iff, Bool.and_eq_true, Bool.not_eq_true',
      ← Bool.not_eq_true]
    omega

/-- What is left of several spans without another. -/
theorem Span.any_flatMap_minus (p : Span) (l : List Span) (a : Nat) :
    ((l.flatMap fun q => q.minus p).any fun r => r.contains a) = ((l.any fun q => q.contains a) && !p.contains a) := by
  induction l with
  | nil => rfl
  | cons q l ih => rw [List.flatMap_cons, List.any_append, ih, List.any_cons, Span.any_minus, Bool.and_or_distrib_right]

/-! ## What the host is promised to see -/

/-- After the last command's `DONE = 1` has been read, a byte is unseen exactly when an earlier command whose completion
has not been read wrote it and the last one did not (spec/20_memory.md R48). -/
theorem State.observeDone_notSeen {s : State} {p : Span} {rest : List Span} (h : s.unseen = p :: rest) (a : Nat) :
    s.observeDone.notSeen a = ((rest.any fun q => q.contains a) && !p.contains a) := by
  have h0 : (Span.mk p.base 0).contains a = false := by
    rw [← Bool.not_eq_true, Span.contains_iff]
    exact fun hc => by dsimp only at hc; omega
  simp only [State.notSeen, State.observeDone, h, List.any_cons, h0, Bool.false_or, Span.any_flatMap_minus]

/-- A command that ends with `len` bytes written leaves them as the range its completion releases. -/
theorem State.publish_unseen_head (s : State) (len : Nat) :
    ∃ rest, (s.publish len).unseen = ⟨s.regs.dstBase.toNat, len⟩ :: rest := by
  unfold State.publish
  dsimp only
  split <;> exact ⟨_, rfl⟩

/-! ## Engine accesses -/

/-- What an answered read answers, and that it needs the access to be answered. -/
theorem State.memRead_eq_ok {s : State} {a : Nat} {b : Byte} :
    s.memRead a = .ok b ↔ s.access a false = .ok () ∧ b = s.byteAt a := by
  unfold State.memRead
  cases h : s.access a false <;> simp [Answer.andThen, eq_comm]

/-- What an answered write leaves, and that it needs the access to be answered. -/
theorem State.memWrite_eq_ok {s t : State} {a : Nat} {v : Byte} :
    s.memWrite a v = .ok t ↔ s.access a true = .ok () ∧ t = { s with mem := memPut s.mem a v } := by
  unfold State.memWrite
  cases h : s.access a true <;> simp [Answer.andThen, eq_comm]

/-- An engine access faults only outside the address space (R38). -/
theorem State.access_ne_fault {s : State} {a : Nat} (h : a < 2 ^ s.cfg.addrW) (w : Bool) (f : Fault) :
    s.access a w ≠ .fault f := by
  unfold State.access
  rw [if_neg (by omega)]
  cases kindAt s.cfg a with
  | none => simp
  | some k =>
    cases k with
    | memory r w' => cases w <;> cases r <;> cases w' <;> simp
    | sideEffects => simp
    | aperture => simp
    | otherCore => simp

/-- An access depends on the parameters alone. -/
theorem State.access_congr {s t : State} (h : t.cfg = s.cfg) (a : Nat) (w : Bool) : t.access a w = s.access a w := by
  simp [State.access, h]

/-- A chain of answers that ends well: both parts end well. -/
theorem Answer.andThen_eq_ok {α β : Type} {x : Answer α} {f : α → Answer β} {y : β} :
    x.andThen f = .ok y ↔ ∃ v, x = .ok v ∧ f v = .ok y := by
  cases x <;> simp [Answer.andThen]

/-- A chain of answers that faults: one of the parts faults. -/
theorem Answer.andThen_eq_fault {α β : Type} {x : Answer α} {f : α → Answer β} {e : Fault} :
    x.andThen f = .fault e ↔ x = .fault e ∨ ∃ v, x = .ok v ∧ f v = .fault e := by
  cases x <;> simp [Answer.andThen]

end Sys2Proof.Machine
end

