-- ==== Sys2Proof/Laws/Frequency.lean ====
section
/-! SUPPORT. Laws of the frequency table (spec/41_frequency_table.md): counts, sums over the symbols, the symbols
present. -/

namespace Sys2Proof.Machine

open Sys2Proof

/-! ## Sums over the symbols -/

theorem sum_map_congr {l : List Byte} {f g : Byte → Nat} (h : ∀ s ∈ l, f s = g s) : (l.map f).sum = (l.map g).sum := by
  rw [List.map_congr_left h]

/-- A sum that changes at one symbol. -/
theorem sum_map_update : ∀ {l : List Byte} {f g : Byte → Nat} {b : Byte}, l.Nodup → b ∈ l →
    (∀ s ∈ l, s ≠ b → g s = f s) → (l.map g).sum + f b = (l.map f).sum + g b
  | [], _, _, _, _, hb, _ => by simp at hb
  | x :: l, f, g, b, hn, hb, h => by
    rw [List.nodup_cons] at hn
    simp only [List.map_cons, List.sum_cons]
    by_cases hx : x = b
    · subst hx
      have : (l.map g).sum = (l.map f).sum :=
        sum_map_congr fun s hs => h s (List.mem_cons_of_mem _ hs) (fun he => hn.1 (he ▸ hs))
      omega
    · have hb' : b ∈ l := by
        rcases List.mem_cons.1 hb with h' | h'
        · exact absurd h'.symm hx
        · exact h'
      have := sum_map_update (f := f) (g := g) hn.2 hb' (fun s hs => h s (List.mem_cons_of_mem _ hs))
      rw [h x List.mem_cons_self hx]
      omega

/-- A symbol's part of a sum is at most the sum. -/
theorem le_sum_of_mem {l : List Byte} {f : Byte → Nat} {b : Byte} (hb : b ∈ l) : f b ≤ (l.map f).sum :=
  List.single_le_sum (by simp) _ (List.mem_map_of_mem hb)

theorem tableGet_le_freqSum (t : Table Word) (b : Byte) : (tableGet t b).toNat ≤ freqSum t :=
  le_sum_of_mem (f := fun s => (tableGet t s).toNat) (mem_allSymbols b)

@[simp] theorem freqSum_zeroFreq : freqSum zeroFreq = 0 := by
  unfold freqSum
  refine List.sum_eq_zero fun x hx => ?_
  obtain ⟨s, _, rfl⟩ := List.mem_map.1 hx
  rw [tableGet_zeroFreq]; rfl

/-! ## Counting -/

/-- Counting a byte whose count does not wrap. -/
theorem countByte_toNat (t : Table Word) (b s : Byte) (h : (tableGet t b).toNat + 1 < 2 ^ 64) :
    (tableGet (countByte t b) s).toNat = (tableGet t s).toNat + if s = b then 1 else 0 := by
  unfold countByte
  rw [tableGet_tablePut]
  by_cases hs : s = b
  · subst hs
    rw [if_pos rfl, if_pos rfl, BitVec.toNat_add]
    have : (1 : Word).toNat = 1 := rfl
    omega
  · rw [if_neg hs, if_neg hs, Nat.add_zero]

theorem freqSum_countByte (t : Table Word) (b : Byte) (h : freqSum t + 1 < 2 ^ 64) :
    freqSum (countByte t b) = freqSum t + 1 := by
  have hb := tableGet_le_freqSum t b
  have := sum_map_update (f := fun s => (tableGet t s).toNat) (g := fun s => (tableGet (countByte t b) s).toNat)
    allSymbols_nodup (mem_allSymbols b) (fun s _ hs => by
      rw [countByte_toNat t b s (by omega), if_neg hs, Nat.add_zero])
  simp only [countByte_toNat t b b (show (tableGet t b).toNat + 1 < 2 ^ 64 by omega), if_true] at this
  simp only [freqSum]
  omega

/-- Counting a byte sequence from a table: each count grows by its occurrences, and the sum by the length. -/
theorem countFrom_spec (bytes : List Byte) : ∀ t : Table Word, freqSum t + bytes.length < 2 ^ 64 →
    (∀ s, (tableGet (bytes.foldl countByte t) s).toNat = (tableGet t s).toNat + bytes.count s) ∧
    freqSum (bytes.foldl countByte t) = freqSum t + bytes.length := by
  induction bytes with
  | nil => intro t _; simp
  | cons b bytes ih =>
    intro t h
    rw [List.length_cons] at h
    have hs := freqSum_countByte t b (by omega)
    obtain ⟨h1, h2⟩ := ih (countByte t b) (by omega)
    have hb := tableGet_le_freqSum t b
    refine ⟨fun s => ?_, ?_⟩
    · rw [List.foldl_cons, h1, countByte_toNat t b s (by omega), List.count_cons]
      by_cases hsb : s = b
      · subst hsb; simp; omega
      · simp [hsb, Ne.symm hsb]
    · rw [List.foldl_cons, h2, hs, List.length_cons]; omega

/-- The order in which two bytes are counted does not matter. -/
theorem countByte_comm (t : Table Word) (a b : Byte) : countByte (countByte t a) b = countByte (countByte t b) a := by
  apply table_ext
  intro s
  unfold countByte
  simp only [tableGet_tablePut]
  by_cases h1 : s = a <;> by_cases h2 : s = b <;> simp_all

/-! ## The symbols present -/

theorem mem_present {t : Table Word} {s : Byte} : s ∈ present t ↔ tableGet t s ≠ 0 := by
  simp [present, mem_allSymbols]

theorem present_nodup (t : Table Word) : (present t).Nodup := allSymbols_nodup.filter _

theorem distinct_le (t : Table Word) : distinct t ≤ 256 := by
  have := List.length_filter_le (fun s => tableGet t s != 0) allSymbols
  simpa [distinct, present] using this

/-- A sum over the symbols is the sum over those present, where the others contribute nothing. -/
theorem sum_present (t : Table Word) (f : Byte → Nat) (h : ∀ s, tableGet t s = 0 → f s = 0) :
    ((present t).map f).sum = (allSymbols.map f).sum := by
  unfold present
  induction allSymbols with
  | nil => rfl
  | cons s l ih =>
    by_cases hs : tableGet t s = 0
    · rw [List.filter_cons_of_neg (by simp [hs]), ih, List.map_cons, List.sum_cons, h s hs, Nat.zero_add]
    · rw [List.filter_cons_of_pos (by simpa using hs), List.map_cons, List.sum_cons, ih, List.map_cons, List.sum_cons]

theorem freqSum_eq_present (t : Table Word) : freqSum t = ((present t).map fun s => (tableGet t s).toNat).sum :=
  (sum_present t _ (fun s hs => by simp [hs])).symm

theorem distinct_pos_of_mem {t : Table Word} {s : Byte} (h : tableGet t s ≠ 0) : 1 ≤ distinct t :=
  List.length_pos_of_mem (mem_present.2 h)

end Sys2Proof.Machine
end

