-- ==== Sys2Proof/Laws/Run.lean ====
section
/-! SUPPORT. Running the engine: what one uncontested run can do, said once, and how runs of a known number of steps
compose. -/

namespace Sys2Proof.Machine

open Sys2Proof

variable {f : State → Answer State}

/-! ## Induction along a run -/

/-- What every engine step keeps, an uncontested run keeps. -/
theorem runToEnd_induction {P : State → Prop} (hf : ∀ s t, P s → f s = .ok t → P t) :
    ∀ {k : Nat} {s t : State}, P s → runToEnd f k s = .next t → P t
  | 0, s, t, hs, h => by simp [runToEnd] at h; exact h ▸ hs
  | k + 1, s, t, hs, h => by
    unfold runToEnd at h
    split at h
    · simp at h; exact h ▸ hs
    · split at h
      · exact runToEnd_induction hf (hf _ _ hs ‹_›) h
      · simp at h; exact h ▸ hs
      · simp at h
      · simp at h

/-- Where no engine step of a kept property faults, no uncontested run does. -/
theorem runToEnd_ne_fault {P : State → Prop} {e : Fault} (hf : ∀ s t, P s → f s = .ok t → P t)
    (hn : ∀ s, P s → f s ≠ .fault e) : ∀ {k : Nat} {s : State}, P s → runToEnd f k s ≠ .fault e
  | 0, s, _, h => by simp [runToEnd] at h
  | k + 1, s, hs, h => by
    unfold runToEnd at h
    split at h
    · simp at h
    · split at h
      · exact runToEnd_ne_fault hf hn (hf _ _ hs ‹_›) h
      · simp at h
      · simp at h; subst h; exact hn _ hs ‹_›
      · simp at h

/-- With nothing scheduled, the engine runs to the command's end. -/
theorem State.engineRun_nil {s : State} (h : s.sched = []) : s.engineRun f = runToEnd f s.allSteps s := by
  simp [State.engineRun, h]

/-- What one engine turn keeps, whether it is one step or a run. -/
theorem State.engineRun_induction {P : State → Prop} (hf : ∀ s t, P s → f s = .ok t → P t)
    (hpop : ∀ s r, P s → P { s with sched := r }) {s t : State} (hs : P s) (h : s.engineRun f = .next t) : P t := by
  unfold State.engineRun at h
  split at h
  · rename_i rest _
    cases hu : f { s with sched := rest } with
    | ok u => rw [hu] at h; simp [settle] at h; exact h ▸ hf _ _ (hpop _ _ hs) hu
    | stuck => rw [hu] at h; simp [settle] at h; exact h ▸ hpop _ _ hs
    | fault e => rw [hu] at h; simp [settle] at h
    | refused r => rw [hu] at h; simp [settle] at h
  · exact runToEnd_induction hf hs h

/-- No engine turn faults where no step of a kept property does. -/
theorem State.engineRun_ne_fault {P : State → Prop} {e : Fault} (hf : ∀ s t, P s → f s = .ok t → P t)
    (hpop : ∀ s r, P s → P { s with sched := r }) (hn : ∀ s, P s → f s ≠ .fault e) {s : State} (hs : P s) :
    s.engineRun f ≠ .fault e := by
  intro h
  unfold State.engineRun at h
  split at h
  · rename_i rest _
    cases hu : f { s with sched := rest } with
    | ok u => rw [hu] at h; simp [settle] at h
    | stuck => rw [hu] at h; simp [settle] at h
    | fault e' =>
      rw [hu] at h; simp [settle] at h
      exact hn _ (hpop _ rest hs) (h ▸ hu)
    | refused r => rw [hu] at h; simp [settle] at h
  · exact runToEnd_ne_fault hf hn hs h

/-! ## Runs of a known number of steps -/

/-- `k` engine steps from `s` to `t`, the engine busy before each. -/
def Runs (f : State → Answer State) : Nat → State → State → Prop
  | 0, s, t => s = t
  | k + 1, s, t => s.eng.phase ≠ .idle ∧ ∃ u, f s = .ok u ∧ Runs f k u t

theorem Runs.refl (s : State) : Runs f 0 s s := rfl

theorem Runs.one {s t : State} (hp : s.eng.phase ≠ .idle) (h : f s = .ok t) : Runs f 1 s t := ⟨hp, t, h, rfl⟩

theorem Runs.trans : ∀ {j k : Nat} {s t u : State}, Runs f j s t → Runs f k t u → Runs f (j + k) s u
  | 0, k, s, t, u, h, h' => by cases h; simpa using h'
  | j + 1, k, s, t, u, ⟨hp, v, hv, h⟩, h' => by
    rw [Nat.add_right_comm]
    exact ⟨hp, v, hv, h.trans h'⟩

theorem Runs.cons {k : Nat} {s t u : State} (hp : s.eng.phase ≠ .idle) (h : f s = .ok t) (h' : Runs f k t u) :
    Runs f (k + 1) s u := ⟨hp, t, h, h'⟩

/-- A loop: an invariant indexed by the iteration, each iteration some steps, at most `c` of them. -/
theorem Runs.loop {I : Nat → State → Prop} {c : Nat} :
    ∀ (n i : Nat) {s : State}, I i s →
      (∀ j s, i ≤ j → j < i + n → I j s → ∃ k t, k ≤ c ∧ Runs f k s t ∧ I (j + 1) t) →
      ∃ k t, k ≤ c * n ∧ Runs f k s t ∧ I (i + n) t
  | 0, i, s, hs, _ => ⟨0, s, by simp, Runs.refl s, hs⟩
  | n + 1, i, s, hs, hstep => by
    obtain ⟨k, t, hk, hr, ht⟩ := hstep i s (Nat.le_refl i) (by omega) hs
    obtain ⟨k', t', hk', hr', ht'⟩ := Runs.loop n (i + 1) ht
      (fun j s h1 h2 h3 => hstep j s (by omega) (by omega) h3)
    refine ⟨k + k', t', ?_, hr.trans hr', ?_⟩
    · rw [Nat.mul_succ]; omega
    · rw [show i + (n + 1) = i + 1 + n by omega]; exact ht'

/-- A run of `k` steps is the first part of every uncontested run of at least `k` steps. -/
theorem runToEnd_of_runs : ∀ {k : Nat} {s t : State} (m : Nat), Runs f k s t →
    runToEnd f (k + m) s = runToEnd f m t
  | 0, s, t, m, h => by cases h; simp
  | k + 1, s, t, m, ⟨hp, u, hu, h⟩ => by
    rw [Nat.add_right_comm]
    simp only [runToEnd, if_neg hp, hu]
    exact runToEnd_of_runs m h

/-- An ended command: the run is over. -/
theorem runToEnd_idle {s : State} (h : s.eng.phase = .idle) (k : Nat) : runToEnd f k s = .next s := by
  cases k <;> simp [runToEnd, h]

/-- A run that ends the command within the bound is what the uncontested turn answers. -/
theorem State.engineRun_of_runs {k : Nat} {s t : State} (hs : s.sched = []) (hk : k ≤ s.allSteps)
    (h : Runs f k s t) (ht : t.eng.phase = .idle) : s.engineRun f = .next t := by
  rw [State.engineRun_nil hs]
  obtain ⟨m, hm⟩ := Nat.exists_eq_add_of_le hk
  rw [hm, runToEnd_of_runs m h, runToEnd_idle ht]

/-- The steps of a run are engine steps. -/
theorem Runs.engineSteps : ∀ {k : Nat} {s t : State}, Runs f k s t → engineSteps f k s = .ok t
  | 0, s, t, h => by cases h; rfl
  | k + 1, s, t, ⟨_, u, hu, h⟩ => by
    simp [Machine.engineSteps, hu, Answer.andThen, Runs.engineSteps h]

/-- The meaning of each command is the engine's turn on its single step. -/
theorem exec_eq_engineRun (i : Instr) (s : State) : exec i s = s.engineRun (stepOf i) := by
  cases i <;> rfl

end Sys2Proof.Machine
end

