-- ==== Sys2Proof/Laws/Effect.lean ====
section
/-! SUPPORT. What one engine step can do, said once for every command: it leaves the operands, and it leaves memory, or
stores one destination byte, or draws the first bytes of the destination. -/

namespace Sys2Proof.Machine

open Sys2Proof

/-- The memory one engine step leaves, with the bound `len` on what of the destination it touches. -/
inductive MemEffect (s t : State) (len : Nat) : Prop where
  | same (h : t.mem = s.mem)
  | stored (o : Nat) (v : Byte) (ho : o < len) (h : t.mem = memPut s.mem (s.dstAddr o) v)
  | drawn (k : Nat) (hk : k ≤ len) (h : t.mem = (s.drawDestination k).mem)

/-- Memory outside the touched part stays. -/
theorem MemEffect.keepsOutside {s t : State} {len : Nat} (h : MemEffect s t len) : s.KeepsOutside t len := by
  intro a ha
  simp only [State.dstAddr] at ha
  cases h with
  | same h => simp [State.byteAt, h]
  | stored o v ho h =>
    simp only [State.byteAt, h, State.dstAddr]
    rw [memFind_memPut_of_ne _ _ (by omega)]
  | drawn k hk h =>
    rw [State.byteAt_congr h]
    exact State.drawDestination_outside s k a (by simp only [State.dstAddr]; omega)

/-- With nothing of the destination in reach all of memory stays. -/
theorem MemEffect.mem_of_zero {s t : State} (h : MemEffect s t 0) : t.mem = s.mem := by
  cases h with
  | same h => exact h
  | stored o v ho h => exact absurd ho (Nat.not_lt_zero o)
  | drawn k hk h =>
    obtain rfl := Nat.le_zero.1 hk
    simpa [State.drawDestination, memDraw] using h

/-- The canonical form is kept. -/
theorem MemEffect.memWf {s t : State} {len : Nat} (h : MemEffect s t len) (hs : memWf s.mem = true) :
    memWf t.mem = true := by
  cases h with
  | same h => rw [h]; exact hs
  | stored o v _ h => rw [h]; exact memWf_memPut hs _ _
  | drawn k _ h => rw [h]; exact memWf_memDraw hs _ _ _

/-- A larger bound. -/
theorem MemEffect.mono {s t : State} {len len' : Nat} (h : MemEffect s t len) (hl : len ≤ len') :
    MemEffect s t len' := by
  cases h with
  | same h => exact .same h
  | stored o v ho h => exact .stored o v (by omega) h
  | drawn k hk h => exact .drawn k (by omega) h

/-- An error termination draws at most the planned range. -/
theorem MemEffect.raise (s : State) (code : ErrCode) (info planned : Nat) :
    MemEffect s (s.raise code info planned) planned := by
  cases h : code.spoilsDestination with
  | false => exact .same (State.raise_mem_early s code info planned h)
  | true => exact .drawn planned (Nat.le_refl _) (State.raise_mem_late s code info planned h)

/-- What every engine step leaves alone. -/
structure Kept (s t : State) : Prop where
  operands : s.SameOperands t
  sched : t.sched = s.sched

theorem Kept.refl (s : State) : Kept s s := ⟨⟨rfl, rfl, rfl, rfl, rfl, rfl, rfl, rfl, rfl⟩, rfl⟩

theorem Kept.trans {s t u : State} (h : Kept s t) (h' : Kept t u) : Kept s u := by
  obtain ⟨⟨a1, a2, a3, a4, a5, a6, a7, a8, a9⟩, a10⟩ := h
  obtain ⟨⟨b1, b2, b3, b4, b5, b6, b7, b8, b9⟩, b10⟩ := h'
  exact ⟨⟨b1.trans a1, b2.trans a2, b3.trans a3, b4.trans a4, b5.trans a5, b6.trans a6, b7.trans a7, b8.trans a8,
    b9.trans a9⟩, b10.trans a10⟩

/-- An update of the engine and of memory alone. -/
theorem Kept.eng (s : State) (e : Engine) (m : List Host.Cell) : Kept s { s with eng := e, mem := m } :=
  ⟨⟨rfl, rfl, rfl, rfl, rfl, rfl, rfl, rfl, rfl⟩, rfl⟩

theorem Kept.raise (s : State) (code : ErrCode) (info planned : Nat) : Kept s (s.raise code info planned) :=
  ⟨by simp [State.SameOperands], by simp⟩

theorem Kept.dstAddr {s t : State} (h : Kept s t) (o : Nat) : t.dstAddr o = s.dstAddr o := by
  simp [State.dstAddr, h.operands.2.2.2.2.2.1]

theorem Kept.srcAddr {s t : State} (h : Kept s t) (o : Nat) : t.srcAddr o = s.srcAddr o := by
  simp [State.srcAddr, h.operands.2.2.2.1]

/-! ## The steps -/

/-- A step that leaves the operands, and memory but for the first `len` bytes of the destination. -/
structure Effect (s t : State) (len : Nat) : Prop where
  kept : Kept s t
  mem : MemEffect s t len

theorem Effect.mono {s t : State} {len len' : Nat} (h : Effect s t len) (hl : len ≤ len') : Effect s t len' :=
  ⟨h.kept, h.mem.mono hl⟩

theorem Effect.refl (s : State) : Effect s s 0 := ⟨Kept.refl s, .same rfl⟩

theorem Effect.engOnly (s : State) (e : Engine) : Effect s { s with eng := e } 0 := ⟨⟨⟨rfl, rfl, rfl, rfl, rfl, rfl, rfl, rfl, rfl⟩, rfl⟩, .same rfl⟩

theorem Effect.raise (s : State) (code : ErrCode) (info planned : Nat) :
    Effect s (s.raise code info planned) planned := ⟨Kept.raise s code info planned, MemEffect.raise s code info planned⟩

/-- An early error touches no memory. -/
theorem Effect.raiseEarly (s : State) (code : ErrCode) (info planned : Nat) (h : code.spoilsDestination = false) :
    Effect s (s.raise code info planned) 0 :=
  ⟨Kept.raise s code info planned, .same (State.raise_mem_early s code info planned h)⟩

/-- An engine update and one stored byte. -/
theorem Effect.store {s : State} {o len : Nat} (v : Byte) (e : Engine) (ho : o < len) :
    Effect s { s with mem := memPut s.mem (s.dstAddr o) v, eng := e } len :=
  ⟨⟨⟨rfl, rfl, rfl, rfl, rfl, rfl, rfl, rfl, rfl⟩, rfl⟩, .stored o v ho rfl⟩

/-- Completion writes result registers and no operand. -/
theorem Effect.finish (s : State) (a b c d : Nat) : Effect s ((s.setResults a b c d).showTables).complete 0 :=
  ⟨⟨⟨rfl, rfl, rfl, rfl, rfl, rfl, rfl, rfl, rfl⟩, rfl⟩, .same rfl⟩

theorem nopStep_effect {s t : State} (h : nopStep s = .ok t) : Effect s t 0 := by
  unfold nopStep at h
  cases hp : s.eng.phase <;> rw [hp] at h <;> simp at h <;> subst h
  · exact Effect.refl s
  · exact Effect.engOnly s _
  · exact ⟨⟨⟨rfl, rfl, rfl, rfl, rfl, rfl, rfl, rfl, rfl⟩, rfl⟩, .same rfl⟩

theorem illegalStep_effect {s t : State} (h : illegalStep s = .ok t) : Effect s t 0 := by
  unfold illegalStep at h
  split at h <;> simp at h <;> subst h
  · exact Effect.refl s
  · exact Effect.raiseEarly s _ _ _ rfl

theorem countStep_effect {s t : State} (h : countStep s = .ok t) : Effect s t 0 := by
  unfold countStep at h
  split at h
  · obtain ⟨b, _, h⟩ := Answer.andThen_eq_ok.1 h
    simp at h; subst h
    exact Effect.engOnly s _
  · simp at h; subst h
    exact Effect.engOnly s _

theorem treeStep_effect {s t : State} (h : treeStep s = .ok t) : Effect s t 0 := by
  unfold treeStep at h
  split at h
  · simp at h; subst h; exact Effect.raiseEarly s _ _ _ rfl
  · split at h
    · simp at h; subst h; exact Effect.engOnly s _
    · split at h
      · simp at h
      · split at h <;> simp at h <;> subst h <;> exact Effect.engOnly s _

theorem writeHdrStep_effect {s t : State} (h : writeHdrStep s = .ok t) :
    Effect s t (headerBytes s.eng.freq s.eng.n s.eng.pad s.emptySource).length := by
  unfold writeHdrStep at h
  split at h
  · rename_i b hb
    obtain ⟨u, hu, h⟩ := Answer.andThen_eq_ok.1 h
    obtain ⟨_, rfl⟩ := State.memWrite_eq_ok.1 hu
    simp at h; subst h
    exact Effect.store b _ (List.getElem?_eq_some_iff.1 hb).1
  · split at h <;> simp at h <;> subst h
    · exact (Effect.engOnly s _).mono (Nat.zero_le _)
    · exact (Effect.engOnly s _).mono (Nat.zero_le _)

theorem packBit_effect {x : Bool} {s t : State} (h : packBit x s = .ok t) : Effect s t (s.eng.out + 1) := by
  unfold packBit at h
  simp only at h
  split at h
  · obtain ⟨u, hu, h⟩ := Answer.andThen_eq_ok.1 h
    obtain ⟨_, rfl⟩ := State.memWrite_eq_ok.1 hu
    simp at h; subst h
    exact Effect.store (o := s.eng.out) _ _ (Nat.lt_succ_self _)
  · simp at h; subst h
    exact (Effect.engOnly s _).mono (Nat.zero_le _)

theorem afterCount_effect (m v : Nat) (s : State) : Effect s (afterCount m v s) 0 := by
  unfold afterCount
  split
  · exact Effect.raiseEarly s _ _ _ rfl
  · split
    · exact Effect.raiseEarly s _ _ _ rfl
    · exact Effect.engOnly s _

theorem afterSymbol_effect (i v : Nat) (s : State) : Effect s (afterSymbol i v s) 0 := by
  unfold afterSymbol
  split
  · exact Effect.raiseEarly s _ _ _ rfl
  · split
    · exact Effect.raiseEarly s _ _ _ rfl
    · exact Effect.engOnly s _

theorem afterFreq_effect (i f : Nat) (s : State) : Effect s (afterFreq i f s) 0 := by
  unfold afterFreq
  split
  · exact Effect.raiseEarly s _ _ _ rfl
  · split
    · exact Effect.raiseEarly s _ _ _ rfl
    · exact Effect.engOnly s _

theorem afterFlag_effect (m flag : Nat) (s : State) : Effect s (afterFlag m flag s) 0 := by
  unfold afterFlag
  simp only
  split
  · exact Effect.raiseEarly s _ _ _ rfl
  · split
    · exact Effect.raiseEarly s _ _ _ rfl
    · split
      · split
        · exact Effect.raiseEarly s _ _ _ rfl
        · split
          · exact Effect.raiseEarly s _ _ _ rfl
          · exact Effect.engOnly s _
      · split
        · exact Effect.raiseEarly s _ _ _ rfl
        · split
          · exact Effect.raiseEarly s _ _ _ rfl
          · exact Effect.engOnly s _

theorem headerByte_effect (o v : Nat) (b : Byte) (s : State) : Effect s (headerByte o v b s) 0 := by
  unfold headerByte
  simp only
  split
  · exact Effect.refl s
  · split
    · exact afterCount_effect _ _ s
    · split
      · split
        · exact afterSymbol_effect _ _ s
        · split
          · exact afterFreq_effect _ _ s
          · exact Effect.refl s
      · split
        · exact Effect.engOnly s _
        · exact afterFlag_effect _ _ s

theorem readHdrStep_effect {s t : State} (h : readHdrStep s = .ok t) : Effect s t 0 := by
  unfold readHdrStep at h
  simp only at h
  split at h
  · simp at h; subst h; exact Effect.raiseEarly s _ _ _ rfl
  · obtain ⟨b, _, h⟩ := Answer.andThen_eq_ok.1 h
    simp at h; subst h
    have := headerByte_effect s.eng.idx (fromBeStep s.eng.field b) b
      { s with eng := { s.eng with idx := s.eng.idx + 1, field := fromBeStep s.eng.field b } }
    refine ⟨(Effect.engOnly s _).kept.trans this.kept, ?_⟩
    cases this.mem with
    | same h => exact .same h
    | stored o v ho h => omega
    | drawn k hk h => exact .drawn k hk h

theorem decodeStep_effect {s t : State} (h : decodeStep s = .ok t) :
    Effect s t (max s.eng.total (s.eng.emitted + 1)) := by
  unfold decodeStep walkBit walkEnd at h
  split at h
  · split at h
    · simp only at h
      split at h
      · simp at h; subst h; exact (Effect.engOnly s _).mono (Nat.zero_le _)
      · split at h
        · simp at h; subst h; exact (Effect.raise s _ _ _).mono (by omega)
        · obtain ⟨u, hu, h⟩ := Answer.andThen_eq_ok.1 h
          obtain ⟨_, rfl⟩ := State.memWrite_eq_ok.1 hu
          simp at h; subst h
          exact Effect.store (o := s.eng.emitted) _ _ (by omega)
    · obtain ⟨b, _, h⟩ := Answer.andThen_eq_ok.1 h
      simp at h; subst h
      exact (Effect.engOnly s _).mono (Nat.zero_le _)
  · split_ifs at h <;> simp at h <;> subst h
    · exact (Effect.raise s _ _ _).mono (by omega)
    · exact (Effect.raise s _ _ _).mono (by omega)
    · exact (Effect.engOnly s _).mono (Nat.zero_le _)

theorem encodeStep_effect {s t : State} (h : encodeStep s = .ok t) :
    Effect s t (max s.eng.artifactSize (s.eng.out + 1)) := by
  unfold encodeStep packFinish encodeByte at h
  split at h
  · have := packBit_effect h
    exact ⟨(Effect.engOnly s _).kept.trans this.kept, by
      cases this.mem with
      | same h => exact .same h
      | stored o v ho h => exact .stored o v (by simp at ho; omega) h
      | drawn k hk h => exact .drawn k (by simp at hk; omega) h⟩
  · split at h
    · obtain ⟨b, _, h⟩ := Answer.andThen_eq_ok.1 h
      simp only at h
      split_ifs at h <;> simp at h <;> subst h
      · exact (Effect.raise s _ _ _).mono (by omega)
      · exact (Effect.raise s _ _ _).mono (by omega)
      · exact (Effect.engOnly s _).mono (Nat.zero_le _)
    · split at h
      · simp at h; subst h; exact (Effect.raise s _ _ _).mono (by omega)
      · obtain ⟨v, hv, h⟩ := Answer.andThen_eq_ok.1 h
        simp at h; subst h
        split at hv
        · obtain ⟨u, hu, hv⟩ := Answer.andThen_eq_ok.1 hv
          obtain ⟨_, rfl⟩ := State.memWrite_eq_ok.1 hu
          simp at hv; subst hv
          exact Effect.store (o := s.eng.out) _ _ (by omega)
        · simp at hv; subst hv
          exact (Effect.engOnly s _).mono (Nat.zero_le _)

/-- How much of the destination one engine step of COMPRESS may touch: nothing before WRITE_HDR, the byte at `OUT` or
the planned range after it. -/
def compressReach (s : State) : Nat :=
  match s.eng.phase with
  | .writeHdr => (headerBytes s.eng.freq s.eng.n s.eng.pad s.emptySource).length
  | .encode => max s.eng.artifactSize (s.eng.out + 1)
  | _ => 0

theorem compressStep_effect {s t : State} (h : compressStep s = .ok t) : Effect s t (compressReach s) := by
  unfold compressStep at h
  cases hp : s.eng.phase <;> rw [hp] at h <;> simp only [compressReach, hp] <;> simp only at h
  case idle => simp at h; subst h; exact Effect.refl s
  case check =>
    simp at h; subst h
    unfold checkCompress compressEmpty
    split
    · exact Effect.raiseEarly s _ _ _ rfl
    · simp only
      split_ifs
      · have := Effect.raiseEarly ({ s with eng := s.eng.clearTables } : State) .outputOverflow 6 0 rfl
        exact ⟨(Effect.engOnly s _).kept.trans this.kept, .same (State.raise_mem_early _ _ _ _ rfl)⟩
      · exact Effect.engOnly s _
      · exact Effect.engOnly s _
  case count => exact countStep_effect h
  case tree => exact treeStep_effect h
  case codes => simp [codesStep] at h; subst h; exact Effect.engOnly s _
  case plan =>
    simp at h; subst h
    unfold planCompress
    simp only
    split
    · have := Effect.raiseEarly ({ s with eng := s.eng.planned } : State) .outputOverflow
        s.eng.planned.artifactSize 0 rfl
      exact ⟨(Effect.engOnly s _).kept.trans this.kept, .same (State.raise_mem_early _ _ _ _ rfl)⟩
    · exact Effect.engOnly s _
  case writeHdr => exact writeHdrStep_effect h
  case encode => exact encodeStep_effect h
  case finish => simp at h; subst h; exact Effect.finish s _ _ _ _
  all_goals simp at h

/-- The same of DECOMPRESS. -/
def decompressReach (s : State) : Nat :=
  match s.eng.phase with
  | .decode => max s.eng.total (s.eng.emitted + 1)
  | _ => 0

theorem decompressStep_effect {s t : State} (h : decompressStep s = .ok t) : Effect s t (decompressReach s) := by
  unfold decompressStep at h
  cases hp : s.eng.phase <;> rw [hp] at h <;> simp only [decompressReach, hp] <;> simp only at h
  case idle => simp at h; subst h; exact Effect.refl s
  case check =>
    simp at h; subst h
    unfold checkDecompress
    split
    · exact Effect.raiseEarly s _ _ _ rfl
    · exact Effect.engOnly s _
  case readHdr => exact readHdrStep_effect h
  case plan =>
    simp at h; subst h
    unfold planDecompress
    split
    · exact Effect.raiseEarly s _ _ _ rfl
    · exact Effect.engOnly s _
  case tree => exact treeStep_effect h
  case codes => simp [codesStep] at h; subst h; exact Effect.engOnly s _
  case decode => exact decodeStep_effect h
  case finish => simp at h; subst h; exact Effect.finish s _ _ _ _
  all_goals simp at h

theorem analyzeStep_effect {s t : State} (h : analyzeStep s = .ok t) : Effect s t 0 := by
  unfold analyzeStep at h
  cases hp : s.eng.phase <;> rw [hp] at h <;> simp only at h
  case idle => simp at h; subst h; exact Effect.refl s
  case check =>
    simp at h; subst h
    unfold checkAnalyze
    split
    · exact Effect.raiseEarly s _ _ _ rfl
    · split <;> exact Effect.engOnly s _
  case count => exact countStep_effect h
  case tree => exact treeStep_effect h
  case codes => simp [codesStep] at h; subst h; exact Effect.engOnly s _
  case plan => simp at h; subst h; exact Effect.engOnly s _
  case finish => simp at h; subst h; exact Effect.finish s _ _ _ _
  all_goals simp at h

/-- How much of the destination one engine step of a command may touch. -/
def reachOf : Instr → State → Nat
  | .nop, _ => 0
  | .compress, s => compressReach s
  | .decompress, s => decompressReach s
  | .analyze, _ => 0

/-- One engine step of any command. -/
theorem stepOf_effect {i : Instr} {s t : State} (h : stepOf i s = .ok t) : Effect s t (reachOf i s) := by
  cases i
  · exact nopStep_effect h
  · exact compressStep_effect h
  · exact decompressStep_effect h
  · exact analyzeStep_effect h

end Sys2Proof.Machine
end

