-- ==== Sys2Proof/Laws/Working.lean ====
section
/-! SUPPORT. What every engine step keeps of the working state of its command, what of the destination it may touch,
and that it does not fault. -/

namespace Sys2Proof.Machine

open Sys2Proof

/-! ## Lengths -/

@[simp] theorem length_beBytes (k v : Nat) : (beBytes k v).length = k := by simp [beBytes]

@[simp] theorem length_entryBytes (t : Table Word) (s : Byte) : (entryBytes t s).length = 12 := by simp [entryBytes]

/-- The header of a table takes `6 + 12n` bytes (spec/30_encoding.md R56). -/
@[simp] theorem length_headerBytes (t : Table Word) (n pad : Nat) (e : Bool) :
    (headerBytes t n pad e).length = headerLen (distinct t) := by
  simp [headerBytes, headerLen, distinct, List.length_flatMap]
  omega

@[simp] theorem distinct_zeroFreq : distinct zeroFreq = 0 := by
  simp [distinct, present]

/-! ## The queue -/

theorem minFrom_mem (nodes : List Node) : ∀ (x : Nat) (q : List Nat), minFrom nodes x q ∈ x :: q
  | x, [] => by simp [minFrom]
  | x, y :: q => by
    unfold minFrom
    split
    · exact List.mem_cons_of_mem _ (minFrom_mem nodes y q)
    · rcases List.mem_cons.1 (minFrom_mem nodes x q) with h | h
      · rw [h]; exact List.mem_cons_self
      · exact List.mem_cons_of_mem _ (List.mem_cons_of_mem _ h)

theorem minKey_mem {nodes : List Node} {q : List Nat} {a : Nat} (h : minKey nodes q = some a) : a ∈ q := by
  cases q with
  | nil => simp [minKey] at h
  | cons x q => simp only [minKey, Option.some.injEq] at h; subst h; exact minFrom_mem nodes x q

theorem minKey_eq_none {nodes : List Node} {q : List Nat} : minKey nodes q = none ↔ q = [] := by
  cases q <;> simp [minKey]

/-! ## The steps COMPRESS, DECOMPRESS and ANALYZE share -/

/-- Where a step of TREE may lead. -/
theorem treeStep_cases {s t : State} (h : treeStep s = .ok t) :
    (s.eng.n = 0 ∧ t = s.raise .emptyInput 0 0) ∨
    (∃ x, t = { s with eng := s.eng.setRoot x }) ∨
    (∃ a b, a ∈ s.eng.queue ∧ b ∈ s.eng.queue.erase a ∧ t = { s with eng := s.eng.merge a b }) := by
  unfold treeStep at h
  split at h
  · simp at h; exact .inl ⟨‹_›, h.symm⟩
  · split at h
    · simp at h; exact .inr (.inl ⟨0, h.symm⟩)
    · split at h
      · simp at h
      · rename_i a ha
        split at h <;> simp at h
        · exact .inr (.inl ⟨a, h.symm⟩)
        · rename_i b hb
          exact .inr (.inr ⟨a, b, minKey_mem ha, minKey_mem hb, h.symm⟩)

/-- A merge keeps the count of nodes in `Q`. -/
theorem Engine.merge_treeWf {e : Engine} {a b : Nat} (h : e.TreeWf) (ha : a ∈ e.queue) (hb : b ∈ e.queue.erase a) :
    (e.merge a b).TreeWf := by
  have h1 := List.length_erase_of_mem ha
  have h2 := List.length_erase_of_mem hb
  have h3 : 0 < e.queue.length := List.length_pos_of_mem ha
  have h4 : 0 < (e.queue.erase a).length := List.length_pos_of_mem hb
  obtain ⟨hq, hn⟩ := h
  simp only [Engine.TreeWf, Engine.merge, List.length_append, List.length_singleton]
  omega

/-- TREE does not run out of nodes. -/
theorem treeStep_ne_fault {s : State} (h : s.eng.TreeWf) (f : Fault) : treeStep s ≠ .fault f := by
  unfold treeStep
  split
  · simp
  · split
    · simp
    · split
      · rename_i hq
        have := minKey_eq_none.1 hq
        simp only [Engine.TreeWf, this, List.length_nil] at h
        omega
      · split <;> simp

/-- Entering TREE. -/
theorem Engine.startTree_treeWf (e : Engine) : e.startTree.TreeWf := by
  simp only [Engine.TreeWf, Engine.startTree, List.length_range]
  omega

/-! ## The packer -/

/-- What packing one bit does: the eighth writes the byte at `OUT` (spec/44_bit_packer.md R97). -/
theorem packBit_cases {x : Bool} {s t : State} (h : packBit x s = .ok t) :
    (s.eng.nb + 1 = 8 ∧ s.access (s.dstAddr s.eng.out) true = .ok () ∧
      t = { s with
        mem := memPut s.mem (s.dstAddr s.eng.out) (s.eng.shiftIn x).shift
        eng := (s.eng.shiftIn x).byteDone }) ∨
    (s.eng.nb + 1 ≠ 8 ∧ t = { s with eng := s.eng.shiftIn x }) := by
  by_cases h8 : s.eng.nb + 1 = 8
  · have e : packBit x s = (s.memWrite (s.dstAddr s.eng.out) (s.eng.shiftIn x).shift).andThen fun t =>
        .ok { t with eng := (s.eng.shiftIn x).byteDone } := if_pos h8
    rw [e] at h
    obtain ⟨u, hu, h⟩ := Answer.andThen_eq_ok.1 h
    obtain ⟨ha, rfl⟩ := State.memWrite_eq_ok.1 hu
    simp only [Answer.ok.injEq] at h
    exact .inl ⟨h8, ha, h.symm⟩
  · have e : packBit x s = .ok { s with eng := s.eng.shiftIn x } := if_neg h8
    rw [e] at h
    simp only [Answer.ok.injEq] at h
    exact .inr ⟨h8, h.symm⟩

/-- What finishing the stream does (spec/44_bit_packer.md R97). -/
theorem packFinish_cases {s t : State} (h : packFinish s = .ok t) :
    (0 < s.eng.nb ∧ s.access (s.dstAddr s.eng.out) true = .ok () ∧
      t = { s with
        mem := memPut s.mem (s.dstAddr s.eng.out) (BitVec.ofNat 8 (s.eng.shift.toNat * 2 ^ (8 - s.eng.nb)))
        eng := { s.eng with out := s.eng.out + 1 } }) ∨
    (s.eng.nb = 0 ∧ t = s) := by
  unfold packFinish at h
  split at h
  · obtain ⟨u, hu, h⟩ := Answer.andThen_eq_ok.1 h
    obtain ⟨ha, rfl⟩ := State.memWrite_eq_ok.1 hu
    simp only [Answer.ok.injEq] at h
    exact .inl ⟨‹_›, ha, h.symm⟩
  · simp only [Answer.ok.injEq] at h
    exact .inr ⟨by omega, h.symm⟩

/-! ## COMPRESS -/

/-- The checks of the operands look at the operands alone. -/
theorem State.checkBoth_eng (s : State) (e : Engine) (m : List Host.Cell) :
    ({ s with eng := e, mem := m } : State).checkBoth = s.checkBoth := rfl

theorem padOf_lt (b : Nat) : padOf b < 8 := by unfold padOf; omega

/-- The payload's bits and padding fill whole bytes. -/
theorem padOf_dvd (b : Nat) : (b + padOf b) % 8 = 0 := by unfold padOf; omega

theorem compressStep_wf {s t : State} (hs : s.CompressWf) (h : compressStep s = .ok t) : t.CompressWf := by
  unfold compressStep at h
  unfold State.CompressWf at hs
  cases hp : s.eng.phase <;> rw [hp] at h hs <;> simp only at h hs
  case idle => simp at h; subst h; simp [State.CompressWf, hp]
  case check =>
    simp at h; subst h
    unfold checkCompress
    split
    · simp [State.CompressWf]
    · rename_i hb
      split
      · unfold compressEmpty
        simp only
        split
        · simp [State.CompressWf]
        · rename_i hc
          refine ⟨hb, by simp [Engine.startHeader, Engine.clearTables], ⟨?_, ?_⟩, ?_⟩
          · simp [Engine.startHeader, Engine.clearTables, padOf]
          · simp [Engine.startHeader, Engine.clearTables, Engine.artifactSize, headerLen]; omega
          · simp [Engine.startHeader]
      · exact ⟨hb, Nat.zero_le _⟩
  case count =>
    obtain ⟨hb, hi⟩ := hs
    unfold countStep at h
    split at h
    · obtain ⟨b, _, h⟩ := Answer.andThen_eq_ok.1 h
      simp at h; subst h
      simp only [State.CompressWf, hp]
      exact ⟨hb, by omega⟩
    · simp at h; subst h
      exact ⟨hb, rfl, Engine.startTree_treeWf _⟩
  case tree =>
    obtain ⟨hb, hn, ht⟩ := hs
    rcases treeStep_cases h with ⟨_, rfl⟩ | ⟨x, rfl⟩ | ⟨a, b, ha, hb', rfl⟩
    · simp [State.CompressWf]
    · exact ⟨hb, hn⟩
    · have := Engine.merge_treeWf ht ha hb'
      simp only [State.CompressWf, show (s.eng.merge a b).phase = .tree from hp]
      exact ⟨hb, hn, this⟩
  case codes =>
    simp [codesStep] at h; subst h
    exact ⟨hs.1, hs.2⟩
  case plan =>
    simp at h; subst h
    unfold planCompress
    simp only
    split
    · simp [State.CompressWf]
    · rename_i hc
      exact ⟨hs.1, by simpa [Engine.startHeader, Engine.planned] using hs.2, ⟨by simp [Engine.startHeader, Engine.planned],
        by simpa [Engine.artifactSize, Engine.startHeader, Engine.planned] using hc⟩, Nat.zero_le _⟩
  case writeHdr =>
    obtain ⟨hb, hn, hpl, ho⟩ := hs
    unfold writeHdrStep at h
    split at h
    · rename_i b hb'
      obtain ⟨u, hu, h⟩ := Answer.andThen_eq_ok.1 h
      obtain ⟨_, rfl⟩ := State.memWrite_eq_ok.1 hu
      simp at h; subst h
      have := (List.getElem?_eq_some_iff.1 hb').1
      rw [length_headerBytes, ← hn] at this
      simp only [State.CompressWf, hp]
      exact ⟨hb, hn, hpl, by omega⟩
    · split at h <;> simp at h <;> subst h
      · exact ⟨hb, hpl⟩
      · exact ⟨hb, hpl, by simp [Engine.PackerWf, Engine.startEncode], Nat.zero_le _⟩
  case encode =>
    obtain ⟨hb, hpl, hk, hi⟩ := hs
    obtain ⟨k1, k2, k3, k4⟩ := hk
    unfold encodeStep at h
    split at h
    · rename_i x rest hpe
      rw [hpe, List.length_cons] at k3
      rcases packBit_cases h with ⟨h8, _, rfl⟩ | ⟨h8, rfl⟩
      · simp only at h8
        simp only [State.CompressWf, Engine.PackerWf, Engine.byteDone, Engine.shiftIn, hp]
        exact ⟨hb, hpl, ⟨by omega, by omega, by omega, k4⟩, hi⟩
      · simp only at h8
        simp only [State.CompressWf, Engine.PackerWf, Engine.shiftIn, hp]
        exact ⟨hb, hpl, ⟨by omega, by omega, by omega, k4⟩, hi⟩
    · rename_i hpe
      rw [hpe, List.length_nil] at k3
      split at h
      · obtain ⟨b, _, h⟩ := Answer.andThen_eq_ok.1 h
        simp at h; subst h
        unfold encodeByte
        simp only
        split
        · simp [State.CompressWf]
        · split
          · simp [State.CompressWf]
          · rename_i h1 h2
            simp only [State.CompressWf, Engine.PackerWf, hp]
            refine ⟨hb, hpl, ⟨k1, k2, ?_, by omega⟩, by omega⟩
            simp only [codeLen]; omega
      · split at h
        · simp at h; subst h; simp [State.CompressWf]
        · obtain ⟨v, hv, h⟩ := Answer.andThen_eq_ok.1 h
          simp at h; subst h
          rcases packFinish_cases hv with ⟨_, _, rfl⟩ | ⟨_, rfl⟩
          · exact ⟨hb, hpl⟩
          · exact ⟨hb, hpl⟩
  case finish =>
    simp at h; subst h
    simp [finishCompress, State.CompressWf]
  all_goals simp at h

/-- What of the destination one step of COMPRESS may touch: nothing before WRITE_HDR, the planned range from it on
(spec/46_codec_commands.md R117). -/
def compressRange (s : State) : Nat :=
  match s.eng.phase with
  | .writeHdr | .encode => s.eng.artifactSize
  | _ => 0

/-- One step of COMPRESS stays inside the planned range. -/
theorem compressStep_range {s t : State} (hs : s.CompressWf) (h : compressStep s = .ok t) :
    Effect s t (compressRange s) := by
  have he := compressStep_effect h
  unfold State.CompressWf at hs
  unfold compressStep at h
  unfold compressReach at he
  unfold compressRange
  cases hp : s.eng.phase <;> rw [hp] at h hs he <;> simp only at h hs he ⊢ <;> try exact he
  case writeHdr =>
    obtain ⟨_, hn, _, ho⟩ := hs
    rw [length_headerBytes, ← hn] at he
    exact he.mono (by simp [Engine.artifactSize])
  case encode =>
    obtain ⟨_, ⟨hpl, _⟩, ⟨k1, k2, k3, k4⟩, _⟩ := hs
    refine ⟨he.kept, ?_⟩
    unfold encodeStep at h
    have hd := padOf_dvd s.eng.bits
    split at h
    · rename_i x rest hpe
      rw [hpe, List.length_cons] at k3
      rcases packBit_cases h with ⟨h8, _, rfl⟩ | ⟨h8, rfl⟩
      · exact .stored s.eng.out _ (by simp only at h8; simp only [Engine.artifactSize]; omega) rfl
      · exact .same rfl
    · rename_i hpe
      rw [hpe, List.length_nil] at k3
      split at h
      · obtain ⟨b, _, h⟩ := Answer.andThen_eq_ok.1 h
        simp at h; subst h
        unfold encodeByte
        simp only
        split
        · exact MemEffect.raise s _ _ _
        · split
          · exact MemEffect.raise s _ _ _
          · exact .same rfl
      · split at h
        · simp at h; subst h; exact MemEffect.raise s _ _ _
        · rename_i hpk
          obtain ⟨v, hv, h⟩ := Answer.andThen_eq_ok.1 h
          simp at h; subst h
          rcases packFinish_cases hv with ⟨_, _, rfl⟩ | ⟨_, rfl⟩
          · exact .stored s.eng.out _ (by simp only [Engine.artifactSize]; omega) rfl
          · exact .same rfl

end Sys2Proof.Machine
end

