-- ==== Sys2Proof/Laws/Tree.lean ====
section
/-! SUPPORT. Laws of the tree builder (spec/42_tree_builder.md): the order of keys, what a merge keeps, and the tree that
all merges leave. -/

namespace Sys2Proof.Machine

open Sys2Proof

/-! ## Keys -/

theorem keyLt_iff {x y : Nat × Nat × Nat} : keyLt x y = true ↔
    x.1 < y.1 ∨ (x.1 = y.1 ∧ (x.2.1 < y.2.1 ∨ (x.2.1 = y.2.1 ∧ x.2.2 < y.2.2))) := by
  simp [keyLt]

theorem keyLt_false_iff {x y : Nat × Nat × Nat} : keyLt x y = false ↔
    ¬ (x.1 < y.1 ∨ (x.1 = y.1 ∧ (x.2.1 < y.2.1 ∨ (x.2.1 = y.2.1 ∧ x.2.2 < y.2.2)))) := by
  rw [← keyLt_iff, Bool.not_eq_true]

/-- Nothing in the list has a smaller key than the one chosen (R79). -/
theorem minFrom_least (nodes : List Node) : ∀ (x : Nat) (q : List Nat), ∀ b ∈ x :: q,
    keyLt (nodeAt nodes b).key (nodeAt nodes (minFrom nodes x q)).key = false
  | x, [], b, hb => by
    simp at hb; subst hb
    simp only [minFrom, keyLt_false_iff]; omega
  | x, y :: q, b, hb => by
    unfold minFrom
    by_cases h : keyLt (nodeAt nodes y).key (nodeAt nodes x).key = true
    · rw [if_pos h]
      rcases List.mem_cons.1 hb with rfl | hb
      · have := minFrom_least nodes y q y List.mem_cons_self
        rw [keyLt_false_iff] at this ⊢
        rw [keyLt_iff] at h
        omega
      · exact minFrom_least nodes y q b hb
    · rw [if_neg h]
      rcases List.mem_cons.1 hb with rfl | hb
      · exact minFrom_least nodes b q b List.mem_cons_self
      · rcases List.mem_cons.1 hb with rfl | hb
        · have := minFrom_least nodes x q x List.mem_cons_self
          rw [Bool.not_eq_true] at h
          rw [keyLt_false_iff] at this h ⊢
          omega
        · exact minFrom_least nodes x q b (List.mem_cons_of_mem _ hb)

theorem minKey_least {nodes : List Node} {q : List Nat} {a : Nat} (h : minKey nodes q = some a) :
    ∀ b ∈ q, keyLt (nodeAt nodes b).key (nodeAt nodes a).key = false := by
  cases q with
  | nil => simp
  | cons x q => simp only [minKey, Option.some.injEq] at h; subst h; exact minFrom_least nodes x q

/-! ## The arena -/

theorem nodeAt_append_left {nodes : List Node} (more : List Node) {x : Nat} (h : x < nodes.length) :
    nodeAt (nodes ++ more) x = nodeAt nodes x := by
  simp [nodeAt, List.getElem?_append_left h]

theorem nodeAt_append_new (nodes : List Node) (m : Node) : nodeAt (nodes ++ [m]) nodes.length = m := by
  simp [nodeAt]

/-- The children of the nodes below `bound` are earlier nodes. -/
def ChildrenBelow (nodes : List Node) : Prop :=
  ∀ x f k l r, x < nodes.length → nodeAt nodes x = .internal f k l r → l < x ∧ r < x

theorem visit_append (nodes more : List Node) (hw : ChildrenBelow nodes) :
    ∀ (k x : Nat) (p : Bits), x < nodes.length → visit (nodes ++ more) k x p = visit nodes k x p
  | 0, _, _, _ => rfl
  | k + 1, x, p, hx => by
    unfold visit
    rw [nodeAt_append_left more hx]
    cases h : nodeAt nodes x with
    | leaf f s => rfl
    | internal f t l r =>
      have := hw x f t l r hx h
      simp only
      rw [visit_append nodes more hw k l _ (by omega), visit_append nodes more hw k r _ (by omega)]

/-- Fuel above the node's index is enough. -/
theorem visit_fuel (nodes : List Node) (hw : ChildrenBelow nodes) :
    ∀ (k k' x : Nat) (p : Bits), x < nodes.length → x < k → x < k' → visit nodes k x p = visit nodes k' x p
  | 0, _, _, _, _, h, _ => by omega
  | _, 0, _, _, _, _, h => by omega
  | k + 1, k' + 1, x, p, hx, h1, h2 => by
    unfold visit
    cases h : nodeAt nodes x with
    | leaf f s => rfl
    | internal f t l r =>
      have := hw x f t l r hx h
      simp only
      rw [visit_fuel nodes hw k k' l _ (by omega) (by omega) (by omega),
        visit_fuel nodes hw k k' r _ (by omega) (by omega) (by omega)]

/-- The leaves under node `x`. -/
def leavesUnder (nodes : List Node) (x : Nat) : List (Byte × Bits) := visit nodes (x + 1) x []

/-! ## The path in front -/

theorem visit_prefix (nodes : List Node) : ∀ (k x : Nat) (p : Bits),
    visit nodes k x p = (visit nodes k x []).map fun a => (a.1, p ++ a.2)
  | 0, _, _ => rfl
  | k + 1, x, p => by
    unfold visit
    cases h : nodeAt nodes x with
    | leaf f s => simp
    | internal f t l r =>
      simp only
      rw [visit_prefix nodes k l (p ++ [false]), visit_prefix nodes k r (p ++ [true]),
        visit_prefix nodes k l ([] ++ [false]), visit_prefix nodes k r ([] ++ [true])]
      simp [Function.comp_def]

/-- The leaves of an internal node: those of the left child with 0 in front, then those of the right child with 1 in
front (spec/43_code_table.md R87). -/
theorem leavesUnder_internal {nodes : List Node} (hw : ChildrenBelow nodes) {x f t l r : Nat} (hx : x < nodes.length)
    (h : nodeAt nodes x = .internal f t l r) :
    leavesUnder nodes x =
      (leavesUnder nodes l).map (fun a => (a.1, false :: a.2)) ++
      (leavesUnder nodes r).map (fun a => (a.1, true :: a.2)) := by
  have hc := hw x f t l r hx h
  unfold leavesUnder
  rw [visit, h]
  simp only
  rw [visit_prefix nodes x l, visit_prefix nodes x r,
    visit_fuel nodes hw x (l + 1) l [] (by omega) hc.1 (by omega),
    visit_fuel nodes hw x (r + 1) r [] (by omega) hc.2 (by omega)]
  simp

theorem leavesUnder_leaf {nodes : List Node} {x f : Nat} {s : Byte} (h : nodeAt nodes x = .leaf f s) :
    leavesUnder nodes x = [(s, [])] := by
  unfold leavesUnder
  rw [visit, h]

theorem leavesUnder_append {nodes more : List Node} (hw : ChildrenBelow nodes) {x : Nat} (hx : x < nodes.length) :
    leavesUnder (nodes ++ more) x = leavesUnder nodes x := visit_append nodes more hw _ _ _ hx

/-! ## What the merges keep -/

/-- The arena, `Q` and `SEQ` between two merges of the tree of table `t`. -/
structure MergeInv (t : Table Word) (nodes : List Node) (q : List Nat) (seq : Nat) : Prop where
  length : nodes.length = distinct t + seq
  leaf : ∀ x (h : x < (present t).length),
    nodeAt nodes x = .leaf (tableGet t (present t)[x]).toNat (present t)[x]
  internal : ∀ j, j < seq → ∃ l r, l < distinct t + j ∧ r < distinct t + j ∧
    nodeAt nodes (distinct t + j) = .internal ((nodeAt nodes l).freq + (nodeAt nodes r).freq) j l r
  below : ∀ x ∈ q, x < nodes.length
  nodup : q.Nodup
  count : q.length + seq = distinct t
  last : q.getLast? = some (nodes.length - 1)
  freqs : (q.map fun x => (nodeAt nodes x).freq).sum = freqSum t
  symbols : (q.flatMap fun x => (leavesUnder nodes x).map (·.1)).Perm (present t)
  order : ∀ x f k l r, x < nodes.length → nodeAt nodes x = .internal f k l r →
    keyLt (nodeAt nodes l).key (nodeAt nodes r).key = true

theorem MergeInv.children {t : Table Word} {nodes : List Node} {q : List Nat} {seq : Nat}
    (h : MergeInv t nodes q seq) : ChildrenBelow nodes := by
  intro x f k l r hx hn
  rw [h.length] at hx
  by_cases hl : x < distinct t
  · rw [h.leaf x hl] at hn; simp at hn
  · obtain ⟨j, rfl⟩ : ∃ j, x = distinct t + j := ⟨x - distinct t, by omega⟩
    obtain ⟨l', r', h1, h2, h3⟩ := h.internal j (by omega)
    rw [hn] at h3
    simp only [Node.internal.injEq] at h3
    omega

/-- No two nodes have the same key (R79). -/
theorem MergeInv.key_inj {t : Table Word} {nodes : List Node} {q : List Nat} {seq : Nat} (h : MergeInv t nodes q seq)
    {x y : Nat} (hx : x < nodes.length) (hy : y < nodes.length) (hk : (nodeAt nodes x).key = (nodeAt nodes y).key) :
    x = y := by
  have hlen := h.length
  have hd : distinct t = (present t).length := rfl
  have leaf : ∀ z, z < distinct t → ∃ hz : z < (present t).length,
      (nodeAt nodes z).key = ((tableGet t (present t)[z]).toNat, 0, (present t)[z].toNat) :=
    fun z hz => ⟨hz, by rw [h.leaf z hz]; rfl⟩
  have inner : ∀ z, distinct t ≤ z → z < nodes.length → ∃ f, (nodeAt nodes z).key = (f, 1, z - distinct t) := by
    intro z hz hl
    obtain ⟨l, r, _, _, hn⟩ := h.internal (z - distinct t) (by omega)
    rw [Nat.add_sub_cancel' hz] at hn
    exact ⟨_, by rw [hn]; rfl⟩
  by_cases hxl : x < distinct t
  · obtain ⟨hx', ex⟩ := leaf x hxl
    by_cases hyl : y < distinct t
    · obtain ⟨hy', ey⟩ := leaf y hyl
      rw [ex, ey, Prod.mk.injEq, Prod.mk.injEq] at hk
      exact ((present_nodup t).getElem_inj_iff).1 (BitVec.eq_of_toNat_eq hk.2.2)
    · obtain ⟨f, ey⟩ := inner y (by omega) hy
      rw [ex, ey, Prod.mk.injEq, Prod.mk.injEq] at hk
      omega
  · obtain ⟨f, ex⟩ := inner x (by omega) hx
    by_cases hyl : y < distinct t
    · obtain ⟨hy', ey⟩ := leaf y hyl
      rw [ex, ey, Prod.mk.injEq, Prod.mk.injEq] at hk
      omega
    · obtain ⟨g, ey⟩ := inner y (by omega) hy
      rw [ex, ey, Prod.mk.injEq, Prod.mk.injEq] at hk
      omega

/-- The first node extracted has a smaller key than the second (R79, R81). -/
theorem MergeInv.first_lt_second {t : Table Word} {nodes : List Node} {q : List Nat} {seq a b : Nat}
    (h : MergeInv t nodes q seq) (ha : minKey nodes q = some a) (hb : b ∈ q.erase a) :
    keyLt (nodeAt nodes a).key (nodeAt nodes b).key = true := by
  have hbq := List.mem_of_mem_erase hb
  have hne : (nodeAt nodes a).key ≠ (nodeAt nodes b).key := fun hk => by
    have := h.key_inj (h.below a (minKey_mem ha)) (h.below b hbq) hk
    subst this
    exact (h.nodup.mem_erase_iff.1 hb).1 rfl
  have hle := minKey_least ha b hbq
  rw [keyLt_false_iff] at hle
  rw [keyLt_iff]
  rw [Ne, Prod.ext_iff, Prod.ext_iff] at hne
  omega

theorem length_leaves (t : Table Word) : (leaves t).length = distinct t := by simp [leaves, distinct]

theorem nodeAt_leaves (t : Table Word) (x : Nat) (h : x < (present t).length) :
    nodeAt (leaves t) x = .leaf (tableGet t (present t)[x]).toNat (present t)[x] := by
  simp [nodeAt, leaves, h]

theorem map_range_getElem {α β : Type} (l : List α) (f : Nat → β) (g : α → β)
    (h : ∀ x (hx : x < l.length), f x = g l[x]) : (List.range l.length).map f = l.map g := by
  apply List.ext_getElem
  · simp
  · intro i h1 h2
    simp at h1
    simp [h i h1]

/-- Before the first merge. -/
theorem MergeInv.start {t : Table Word} (h : 1 ≤ distinct t) :
    MergeInv t (leaves t) (List.range (distinct t)) 0 := by
  refine ⟨by simp [length_leaves], nodeAt_leaves t, by simp, by simp [length_leaves], List.nodup_range, by simp, ?_,
    ?_, ?_, ?_⟩
  · rw [length_leaves, List.getLast?_range, if_neg (by omega)]
  · rw [freqSum_eq_present]
    exact congrArg List.sum (map_range_getElem (present t) _ _ fun x hx => by rw [nodeAt_leaves t x hx]; rfl)
  · have : (List.range (distinct t)).flatMap (fun x => (leavesUnder (leaves t) x).map (·.1)) = present t := by
      rw [List.flatMap_def]
      rw [show (List.range (distinct t)).map (fun x => (leavesUnder (leaves t) x).map (·.1)) =
        (present t).map (fun s => [s]) from
        map_range_getElem (present t) _ _ fun x hx => by
          rw [leavesUnder_leaf (nodeAt_leaves t x hx)]; rfl]
      simp [← List.flatMap_def]
    rw [this]
  · intro x f k l r hx hn
    rw [nodeAt_leaves t x (by rwa [length_leaves] at hx)] at hn
    simp at hn

/-- A merge of two elements of `Q`. -/
theorem MergeInv.merge {t : Table Word} {nodes : List Node} {q : List Nat} {seq a b : Nat}
    (h : MergeInv t nodes q seq) (hmin : minKey nodes q = some a) (hb : b ∈ q.erase a) :
    MergeInv t (nodes ++ [mergeNode nodes seq a b]) ((q.erase a).erase b ++ [nodes.length]) (seq + 1) := by
  have hw := h.children
  have hlen := h.length
  have ha := minKey_mem hmin
  have hab : a < nodes.length := h.below a ha
  have hbb : b < nodes.length := h.below b (List.mem_of_mem_erase hb)
  have hperm : q.Perm (a :: b :: (q.erase a).erase b) :=
    (List.perm_cons_erase ha).trans ((List.perm_cons_erase hb).cons a)
  have hsub : ∀ x ∈ (q.erase a).erase b, x < nodes.length := fun x hx =>
    h.below x (List.mem_of_mem_erase (List.mem_of_mem_erase hx))
  have hnew : nodeAt (nodes ++ [mergeNode nodes seq a b]) nodes.length = mergeNode nodes seq a b :=
    nodeAt_append_new nodes _
  have hwn : ChildrenBelow (nodes ++ [mergeNode nodes seq a b]) := by
    intro x f k l r hx hn
    rw [List.length_append, List.length_singleton] at hx
    by_cases hxl : x < nodes.length
    · rw [nodeAt_append_left _ hxl] at hn
      exact hw x f k l r hxl hn
    · obtain rfl : x = nodes.length := by omega
      rw [hnew] at hn
      simp only [mergeNode, Node.internal.injEq] at hn
      omega
  refine ⟨by simp [hlen]; omega, ?_, ?_, ?_, ?_, ?_, ?_, ?_, ?_, ?_⟩
  · intro x hx
    rw [nodeAt_append_left _ (by rw [hlen]; unfold distinct; omega)]
    exact h.leaf x hx
  · intro j hj
    by_cases hjs : j < seq
    · obtain ⟨l, r, h1, h2, h3⟩ := h.internal j hjs
      refine ⟨l, r, h1, h2, ?_⟩
      rw [nodeAt_append_left _ (by omega), nodeAt_append_left _ (by omega), nodeAt_append_left _ (by omega), h3]
    · obtain rfl : j = seq := by omega
      refine ⟨a, b, by omega, by omega, ?_⟩
      rw [← hlen, hnew, nodeAt_append_left _ hab, nodeAt_append_left _ hbb]
      rfl
  · intro x hx
    rw [List.length_append, List.length_singleton]
    rcases List.mem_append.1 hx with hx | hx
    · have := hsub x hx; omega
    · simp at hx; omega
  · refine List.nodup_append.2 ⟨(h.nodup.erase a).erase b, by simp, ?_⟩
    intro x hx y hy he
    simp at hy
    have := hsub x hx
    omega
  · have := hperm.length_eq
    simp only [List.length_cons] at this
    have := h.count
    rw [List.length_append, List.length_singleton]
    omega
  · simp
  · rw [List.map_append, List.sum_append, ← h.freqs, (hperm.map _).sum_eq]
    simp only [List.map_cons, List.map_nil, List.sum_cons, List.sum_nil, hnew]
    have : ((q.erase a).erase b).map (fun x => (nodeAt (nodes ++ [mergeNode nodes seq a b]) x).freq) =
        ((q.erase a).erase b).map fun x => (nodeAt nodes x).freq :=
      List.map_congr_left fun x hx => by rw [nodeAt_append_left _ (hsub x hx)]
    rw [this]
    simp only [mergeNode, Node.freq]
    omega
  · refine List.Perm.trans ?_ h.symbols
    rw [List.flatMap_append]
    have : ((q.erase a).erase b).flatMap (fun x => (leavesUnder (nodes ++ [mergeNode nodes seq a b]) x).map (·.1)) =
        ((q.erase a).erase b).flatMap fun x => (leavesUnder nodes x).map (·.1) := by
      rw [List.flatMap_def, List.flatMap_def]
      refine congrArg List.flatten (List.map_congr_left fun x hx => ?_)
      rw [leavesUnder_append hw (hsub x hx)]
    rw [this]
    refine List.Perm.trans List.perm_append_comm ?_
    refine List.Perm.trans ?_ (hperm.flatMap_right _).symm
    simp only [List.flatMap_cons, List.flatMap_nil, List.append_nil]
    rw [leavesUnder_internal hwn (by simp) hnew, List.map_append, leavesUnder_append hw hab,
      leavesUnder_append hw hbb, List.map_map, List.map_map, List.append_assoc]
    exact List.Perm.refl _
  · intro x f k l r hx hn
    rw [List.length_append, List.length_singleton] at hx
    by_cases hxl : x < nodes.length
    · rw [nodeAt_append_left _ hxl] at hn
      have := hw x f k l r hxl hn
      rw [nodeAt_append_left _ (by omega), nodeAt_append_left _ (by omega)]
      exact h.order x f k l r hxl hn
    · obtain rfl : x = nodes.length := by omega
      rw [hnew] at hn
      simp only [mergeNode, Node.internal.injEq] at hn
      obtain ⟨_, _, rfl, rfl⟩ := hn
      rw [nodeAt_append_left _ hab, nodeAt_append_left _ hbb]
      exact h.first_lt_second hmin hb

/-- All merges: one node is left, the root, and it is the last of the arena (R80, R84). -/
theorem mergeAll_spec {t : Table Word} : ∀ (k : Nat) (nodes : List Node) (q : List Nat) (seq : Nat),
    MergeInv t nodes q seq → q.length ≤ k + 1 → 1 ≤ q.length →
    MergeInv t (mergeAll k nodes q seq).1 [(mergeAll k nodes q seq).2.headD 0] (distinct t - 1) ∧
    (mergeAll k nodes q seq).2 = [2 * distinct t - 2]
  | k, nodes, q, seq, h, hk, h1 => by
    have one : q.length = 1 → MergeInv t nodes [q.headD 0] (distinct t - 1) ∧ q = [2 * distinct t - 2] := by
      intro hq
      obtain ⟨x, rfl⟩ := List.length_eq_one_iff.1 hq
      have hc := h.count
      have hl := h.last
      have hn := h.length
      simp only [List.length_singleton] at hc
      simp only [List.getLast?_singleton, Option.some.injEq] at hl
      have hs : seq = distinct t - 1 := by omega
      subst hs
      refine ⟨h, ?_⟩
      congr 1; omega
    cases k with
    | zero => exact one (by omega)
    | succ k =>
      unfold mergeAll
      split
      · rename_i hm
        rw [minKey_eq_none] at hm
        simp [hm] at h1
      · rename_i a ha
        have ham := minKey_mem ha
        have hea := List.length_erase_of_mem ham
        split
        · rename_i hm
          rw [minKey_eq_none] at hm
          simp only [hm, List.length_nil] at hea
          exact one (by omega)
        · rename_i b hb
          have hbm := minKey_mem hb
          have heb := List.length_erase_of_mem hbm
          have := List.length_pos_of_mem hbm
          exact mergeAll_spec k _ _ _ (h.merge ha hbm) (by simp; omega) (by simp)

/-- The tree of a table with a symbol. -/
theorem buildTree_spec {t : Table Word} (h : 1 ≤ distinct t) :
    MergeInv t (buildTree t).1 [(buildTree t).2] (distinct t - 1) ∧ (buildTree t).2 = 2 * distinct t - 2 := by
  have := mergeAll_spec (distinct t) (leaves t) (List.range (distinct t)) 0 (MergeInv.start h) (by simp) (by simpa)
  refine ⟨this.1, ?_⟩
  simp only [buildTree, this.2, List.headD_cons]

theorem length_buildTree {t : Table Word} (h : 1 ≤ distinct t) : (buildTree t).1.length = 2 * distinct t - 1 := by
  have := (buildTree_spec h).1.length
  omega

theorem buildTree_root_lt {t : Table Word} (h : 1 ≤ distinct t) : (buildTree t).2 < (buildTree t).1.length := by
  rw [length_buildTree h, (buildTree_spec h).2]; omega

/-- The symbols of the tree's leaves are the symbols present (R78). -/
theorem buildTree_symbols {t : Table Word} (h : 1 ≤ distinct t) :
    ((leavesUnder (buildTree t).1 (buildTree t).2).map (·.1)).Perm (present t) := by
  simpa using (buildTree_spec h).1.symbols

end Sys2Proof.Machine
end

