-- ==== Sys2Proof/Laws/Codes.lean ====
section
/-! SUPPORT. Laws of the code table (spec/43_code_table.md): prefix-freedom, lengths and completeness of the paths of a
tree, and what the two tables hold after the assignments. -/

namespace Sys2Proof.Machine

open Sys2Proof

/-! ## Induction on a tree -/

/-- What holds of leaves, and of a node when it holds of its children, holds of every node of the arena. -/
theorem leavesUnder_induction {nodes : List Node} (hw : ChildrenBelow nodes) {P : List (Byte × Bits) → Prop}
    (leaf : ∀ s, P [(s, [])])
    (node : ∀ L R, P L → P R →
      P (L.map (fun a => (a.1, false :: a.2)) ++ R.map (fun a => (a.1, true :: a.2)))) :
    ∀ (b x : Nat), x < b → x < nodes.length → P (leavesUnder nodes x)
  | 0, _, h, _ => by omega
  | b + 1, x, hb, hx => by
    cases h : nodeAt nodes x with
    | leaf f s => rw [leavesUnder_leaf h]; exact leaf s
    | internal f t l r =>
      have hc := hw x f t l r hx h
      rw [leavesUnder_internal hw hx h]
      exact node _ _ (leavesUnder_induction hw leaf node b l (by omega) (by omega))
        (leavesUnder_induction hw leaf node b r (by omega) (by omega))

/-- No path is the beginning of another. -/
def PrefixFree (as : List (Byte × Bits)) : Prop := as.Pairwise fun a b => ¬ a.2 <+: b.2 ∧ ¬ b.2 <+: a.2

theorem PrefixFree.not_prefix : ∀ {as : List (Byte × Bits)}, PrefixFree as → ∀ {a b : Byte × Bits}, a ∈ as → b ∈ as →
    a ≠ b → ¬ a.2 <+: b.2
  | [], _, _, _, ha, _, _ => by simp at ha
  | x :: as, h, a, b, ha, hb, hne => by
    obtain ⟨hx, h⟩ := List.pairwise_cons.1 h
    rcases List.mem_cons.1 ha with ha' | ha' <;> rcases List.mem_cons.1 hb with hb' | hb'
    · exact absurd (ha'.trans hb'.symm) hne
    · subst ha'; exact (hx b hb').1
    · subst hb'; exact (hx a ha').2
    · exact PrefixFree.not_prefix h ha' hb' hne

theorem leavesUnder_prefixFree {nodes : List Node} (hw : ChildrenBelow nodes) {x : Nat} (hx : x < nodes.length) :
    PrefixFree (leavesUnder nodes x) := by
  refine leavesUnder_induction hw (P := PrefixFree) (fun s => by simp [PrefixFree]) ?_ (x + 1) x (by omega) hx
  intro L R hL hR
  refine List.pairwise_append.2 ⟨?_, ?_, ?_⟩
  · rw [List.pairwise_map]; exact hL.imp (by simp)
  · rw [List.pairwise_map]; exact hR.imp (by simp)
  · intro a ha b hb
    obtain ⟨a', _, rfl⟩ := List.mem_map.1 ha
    obtain ⟨b', _, rfl⟩ := List.mem_map.1 hb
    simp

/-- Each node has a leaf, and a path is shorter than the number of leaves (spec/43_code_table.md R91). -/
theorem leavesUnder_depth {nodes : List Node} (hw : ChildrenBelow nodes) {x : Nat} (hx : x < nodes.length) :
    1 ≤ (leavesUnder nodes x).length ∧ ∀ a ∈ leavesUnder nodes x, a.2.length + 1 ≤ (leavesUnder nodes x).length := by
  refine leavesUnder_induction hw
    (P := fun as => 1 ≤ as.length ∧ ∀ a ∈ as, a.2.length + 1 ≤ as.length) (fun s => by simp) ?_ (x + 1) x (by omega) hx
  intro L R hL hR
  refine ⟨by simp; omega, ?_⟩
  intro a ha
  rw [List.length_append, List.length_map, List.length_map]
  rcases List.mem_append.1 ha with ha | ha
  · obtain ⟨a', h', rfl⟩ := List.mem_map.1 ha
    have := hL.2 a' h'
    simp only [List.length_cons]; omega
  · obtain ⟨a', h', rfl⟩ := List.mem_map.1 ha
    have := hR.2 a' h'
    simp only [List.length_cons]; omega

/-- The paths of a tree are complete (spec/43_code_table.md R90). -/
theorem leavesUnder_complete {nodes : List Node} (hw : ChildrenBelow nodes) {x : Nat} (hx : x < nodes.length) :
    ∀ d, (leavesUnder nodes x).length ≤ d + 1 → ((leavesUnder nodes x).map fun a => 2 ^ (d - a.2.length)).sum = 2 ^ d := by
  refine (leavesUnder_induction hw
    (P := fun as => 1 ≤ as.length ∧ ∀ d, as.length ≤ d + 1 → (as.map fun a => 2 ^ (d - a.2.length)).sum = 2 ^ d)
    (fun s => by simp) ?_ (x + 1) x (by omega) hx).2
  intro L R hL hR
  refine ⟨by simp; omega, ?_⟩
  intro d hd
  simp only [List.length_append, List.length_map] at hd
  obtain ⟨d, rfl⟩ : ∃ e, d = e + 1 := ⟨d - 1, by omega⟩
  have h1 := hL.2 d (by omega)
  have h2 := hR.2 d (by omega)
  simp only [List.map_append, List.map_map, List.sum_append, Function.comp_def, List.length_cons,
    Nat.add_sub_add_right]
  rw [h1, h2, Nat.pow_succ]; omega

/-! ## The assignments -/

/-- The assignments of a tree with at least two symbols are its leaves' paths. -/
theorem assignments_of_two {t : Table Word} (h : 2 ≤ distinct t) :
    assignments (buildTree t).1 (buildTree t).2 = leavesUnder (buildTree t).1 (buildTree t).2 := by
  have h1 : 1 ≤ distinct t := by omega
  obtain ⟨hi, hr⟩ := buildTree_spec h1
  have hlt := buildTree_root_lt h1
  obtain ⟨l, r, _, _, hn⟩ := hi.internal (distinct t - 2) (by omega)
  have e : distinct t + (distinct t - 2) = (buildTree t).2 := by omega
  rw [e] at hn
  unfold assignments
  rw [hn]
  exact visit_fuel _ hi.children _ _ _ _ hlt hlt (by omega)

/-- The assignments of a tree of one leaf (R88). -/
theorem assignments_of_one {t : Table Word} (h : distinct t = 1) :
    ∃ s, present t = [s] ∧ assignments (buildTree t).1 (buildTree t).2 = [(s, [false])] := by
  obtain ⟨s, hs⟩ := List.length_eq_one_iff.1 (show (present t).length = 1 from h)
  refine ⟨s, hs, ?_⟩
  obtain ⟨hi, hr⟩ := buildTree_spec (t := t) (by omega)
  have := hi.leaf 0 (by rw [hs]; simp)
  have hr0 : (buildTree t).2 = 0 := by omega
  unfold assignments
  rw [hr0, this]
  simp [hs]

/-- The symbols of the assignments are the symbols present. -/
theorem assignments_symbols {t : Table Word} (h : 1 ≤ distinct t) :
    ((assignments (buildTree t).1 (buildTree t).2).map (·.1)).Perm (present t) := by
  by_cases h2 : 2 ≤ distinct t
  · rw [assignments_of_two h2]; exact buildTree_symbols h
  · obtain ⟨s, hs, ha⟩ := assignments_of_one (t := t) (by omega)
    rw [ha, hs]; simp

theorem assignments_nodup {t : Table Word} (h : 1 ≤ distinct t) :
    ((assignments (buildTree t).1 (buildTree t).2).map (·.1)).Nodup :=
  (assignments_symbols h).nodup_iff.2 (present_nodup t)

theorem assignments_prefixFree {t : Table Word} (h : 1 ≤ distinct t) :
    PrefixFree (assignments (buildTree t).1 (buildTree t).2) := by
  by_cases h2 : 2 ≤ distinct t
  · rw [assignments_of_two h2]
    exact leavesUnder_prefixFree (buildTree_spec h).1.children (buildTree_root_lt h)
  · obtain ⟨s, hs, ha⟩ := assignments_of_one (t := t) (by omega)
    rw [ha]; simp [PrefixFree]

/-- A code has at least one bit and at most `max 1 (n - 1)` (R91). -/
theorem assignments_length {t : Table Word} (h : 1 ≤ distinct t) {a : Byte × Bits}
    (ha : a ∈ assignments (buildTree t).1 (buildTree t).2) : 1 ≤ a.2.length ∧ a.2.length ≤ max 1 (distinct t - 1) := by
  by_cases h2 : 2 ≤ distinct t
  · have hp := assignments_prefixFree h
    have hlen : (assignments (buildTree t).1 (buildTree t).2).length = distinct t := by
      have := (assignments_symbols h).length_eq
      rwa [List.length_map] at this
    have hd := (leavesUnder_depth (buildTree_spec h).1.children (buildTree_root_lt h)).2
    rw [← assignments_of_two h2] at hd
    have := hd a ha
    rw [hlen] at this
    refine ⟨?_, by omega⟩
    by_contra h0
    have h0 : a.2 = [] := List.length_eq_zero_iff.1 (by omega)
    obtain ⟨b, hb, hne⟩ : ∃ b ∈ assignments (buildTree t).1 (buildTree t).2, b ≠ a := by
      by_contra hc
      push Not at hc
      have : assignments (buildTree t).1 (buildTree t).2 =
          List.replicate (assignments (buildTree t).1 (buildTree t).2).length a :=
        List.eq_replicate_iff.2 ⟨rfl, hc⟩
      have hn := assignments_nodup h
      rw [this, hlen, List.map_replicate] at hn
      have := List.nodup_replicate.1 hn
      omega
    exact hp.not_prefix ha hb (Ne.symm hne) (by rw [h0]; exact List.nil_prefix)
  · obtain ⟨s, hs, ha'⟩ := assignments_of_one (t := t) (by omega)
    rw [ha'] at ha
    simp at ha
    subst ha
    simp

/-! ## The tables -/

theorem codeTable_from : ∀ (as : List (Byte × Bits)) (t : Table Bits) (s : Byte),
    (as.map (·.1)).Nodup →
    (∀ c, (s, c) ∈ as → tableGet (as.foldl (fun t a => tablePut t a.1 a.2) t) s = c) ∧
    (s ∉ as.map (·.1) → tableGet (as.foldl (fun t a => tablePut t a.1 a.2) t) s = tableGet t s)
  | [], t, s, _ => by simp
  | a :: as, t, s, h => by
    rw [List.map_cons, List.nodup_cons] at h
    obtain ⟨h1, h2⟩ := codeTable_from as (tablePut t a.1 a.2) s h.2
    rw [List.foldl_cons]
    refine ⟨?_, ?_⟩
    · intro c hc
      rcases List.mem_cons.1 hc with rfl | hc
      · rw [h2 h.1]; simp
      · exact h1 c hc
    · intro hs
      simp only [List.map_cons, List.mem_cons, not_or] at hs
      rw [h2 hs.2, tableGet_tablePut_of_ne _ _ hs.1]

/-- `CODE` after the assignments: the code assigned, or the empty string (R87, R89). -/
theorem codeTable_get {as : List (Byte × Bits)} (h : (as.map (·.1)).Nodup) (s : Byte) :
    (∀ c, (s, c) ∈ as → tableGet (codeTable as) s = c) ∧
    (s ∉ as.map (·.1) → tableGet (codeTable as) s = []) := by
  obtain ⟨h1, h2⟩ := codeTable_from as (Vector.replicate 256 []) s h
  exact ⟨h1, fun hs => by rw [codeTable, h2 hs]; simp⟩

theorem decodeMap_from (as : List (Byte × Bits)) : ∀ d : List (Bits × Byte),
    as.foldl (fun d a => (a.2, a.1) :: d) d = (as.map fun a => (a.2, a.1)).reverse ++ d := by
  induction as with
  | nil => simp
  | cons a as ih => intro d; rw [List.foldl_cons, ih]; simp

theorem mem_decodeMap {as : List (Byte × Bits)} {c : Bits} {s : Byte} : (c, s) ∈ decodeMap as ↔ (s, c) ∈ as := by
  rw [decodeMap, decodeMap_from]
  simp only [List.append_nil, List.mem_reverse, List.mem_map, Prod.mk.injEq, Prod.exists]
  constructor
  · rintro ⟨a, b, h, rfl, rfl⟩; exact h
  · intro h; exact ⟨s, c, h, rfl, rfl⟩

theorem reverseLookup_mem : ∀ {d : List (Bits × Byte)} {c : Bits} {s : Byte}, reverseLookup d c = some s → (c, s) ∈ d
  | [], _, _, h => by simp [reverseLookup] at h
  | (c', s') :: d, c, s, h => by
    unfold reverseLookup at h
    split at h
    · simp at h; subst h; rename_i hc; subst hc; exact List.mem_cons_self
    · exact List.mem_cons_of_mem _ (reverseLookup_mem h)

theorem reverseLookup_none : ∀ {d : List (Bits × Byte)} {c : Bits}, reverseLookup d c = none → ∀ s, (c, s) ∉ d
  | [], _, _, _ => by simp
  | (c', s') :: d, c, h, s => by
    unfold reverseLookup at h
    split at h
    · simp at h
    · rename_i hc
      intro hm
      rcases List.mem_cons.1 hm with hm | hm
      · simp at hm; exact hc hm.1.symm
      · exact reverseLookup_none h s hm

/-- Two assignments with the same code, or one the beginning of the other, are the same. -/
theorem PrefixFree.eq_of_prefix {as : List (Byte × Bits)} (h : PrefixFree as) {a b : Byte × Bits} (ha : a ∈ as)
    (hb : b ∈ as) (hp : a.2 <+: b.2) : a = b := by
  by_contra hne
  exact h.not_prefix ha hb hne hp

/-- The reverse lookup finds an assignment, and every assignment is found (R94). -/
theorem reverseLookup_decodeMap {as : List (Byte × Bits)} (h : PrefixFree as) {c : Bits} {s : Byte} :
    reverseLookup (decodeMap as) c = some s ↔ (s, c) ∈ as := by
  constructor
  · intro hl; exact mem_decodeMap.1 (reverseLookup_mem hl)
  · intro hm
    cases hl : reverseLookup (decodeMap as) c with
    | none => exact absurd (mem_decodeMap.2 hm) (reverseLookup_none hl s)
    | some s' =>
      have := h.eq_of_prefix hm (mem_decodeMap.1 (reverseLookup_mem hl)) (List.prefix_refl c)
      simp at this
      rw [this]

/-- The code of a symbol present is the one assigned, and a symbol not present has none (R89). -/
theorem codesOf_get {t : Table Word} (h : 1 ≤ distinct t) (s : Byte) :
    (tableGet t s ≠ 0 → (s, tableGet (codesOf t) s) ∈ assignments (buildTree t).1 (buildTree t).2) ∧
    (tableGet t s = 0 → tableGet (codesOf t) s = []) := by
  have hg := codeTable_get (assignments_nodup h) s
  refine ⟨fun hs => ?_, fun hs => ?_⟩
  · have hm : s ∈ (assignments (buildTree t).1 (buildTree t).2).map (·.1) :=
      (assignments_symbols h).mem_iff.2 (mem_present.2 hs)
    obtain ⟨⟨s', c⟩, ha, rfl⟩ := List.mem_map.1 hm
    have := hg.1 c ha
    simp only [codesOf, this]
    exact ha
  · refine hg.2 fun hm => ?_
    exact mem_present.1 ((assignments_symbols h).mem_iff.1 hm) hs

/-- An assignment gives a symbol present its code. -/
theorem codesOf_of_mem {t : Table Word} (h : 1 ≤ distinct t) {s : Byte} {c : Bits}
    (hm : (s, c) ∈ assignments (buildTree t).1 (buildTree t).2) : tableGet t s ≠ 0 ∧ tableGet (codesOf t) s = c := by
  refine ⟨mem_present.1 ((assignments_symbols h).mem_iff.1 (List.mem_map.2 ⟨_, hm, rfl⟩)), ?_⟩
  exact (codeTable_get (assignments_nodup h) s).1 c hm

end Sys2Proof.Machine
end

