-- ==== Sys2Proof/Laws/Packer.lean ====
section
/-! SUPPORT. Laws of bit strings as numbers and of the packer's functions (spec/44_bit_packer.md). -/

namespace Sys2Proof.Machine

open Sys2Proof

/-! ## Bit strings as numbers -/

theorem bitsToNat_append (a b : Bits) : bitsToNat (a ++ b) = bitsToNat a * 2 ^ b.length + bitsToNat b := by
  have h : ∀ (b : Bits) (v : Nat), b.foldl (fun v b => 2 * v + b.toNat) v = v * 2 ^ b.length + bitsToNat b := by
    intro b
    induction b with
    | nil => intro v; simp [bitsToNat]
    | cons x b ih =>
      intro v
      simp only [List.foldl_cons, bitsToNat]
      rw [ih, ih (2 * 0 + x.toNat), List.length_cons, Nat.pow_succ]
      ring
  rw [bitsToNat, List.foldl_append, h]
  rfl

@[simp] theorem bitsToNat_singleton (x : Bool) : bitsToNat [x] = x.toNat := by simp [bitsToNat]

theorem bitsToNat_lt (a : Bits) : bitsToNat a < 2 ^ a.length := by
  induction a using List.reverseRecOn with
  | nil => simp [bitsToNat]
  | append_singleton a x ih =>
    rw [bitsToNat_append, bitsToNat_singleton, List.length_append, List.length_singleton, Nat.pow_succ]
    have := Bool.toNat_lt x
    omega

/-- Bit `j` of a string is bit `length - 1 - j` of its number. -/
theorem bitsToNat_testBit (a : Bits) (j : Nat) (h : j < a.length) :
    (bitsToNat a).testBit (a.length - 1 - j) = a.getD j false := by
  induction a using List.reverseRecOn generalizing j with
  | nil => simp at h
  | append_singleton a x ih =>
    rw [bitsToNat_append, bitsToNat_singleton]
    simp only [List.length_append, List.length_singleton] at h ⊢
    by_cases hj : j = a.length
    · subst hj
      cases x <;> simp
    · have e : a.length + 1 - 1 - j = (a.length - 1 - j) + 1 := by omega
      have h2 : (bitsToNat a * 2 + x.toNat) / 2 = bitsToNat a := by
        have := Bool.toNat_lt x
        omega
      rw [e, Nat.testBit_add_one, Nat.pow_one, h2, ih j (by omega)]
      simp [List.getD_eq_getElem?_getD, List.getElem?_append_left (show j < a.length by omega)]

/-- The bits of the byte of eight bits are those bits (spec/44_bit_packer.md R98). -/
theorem bitsOfByte_byteOfBits {c : Bits} (h : c.length = 8) : bitsOfByte (byteOfBits c) = c := by
  apply List.ext_getElem
  · simp [bitsOfByte, h]
  · intro j h1 h2
    have ht := bitsToNat_testBit c j h2
    rw [h] at ht h2
    have e : 8 - 1 - j = 7 - j := by omega
    rw [e] at ht
    simp only [bitsOfByte, byteOfBits, List.getElem_map, List.getElem_range, BitVec.getLsbD_ofNat, ht]
    rw [decide_eq_true (show 7 - j < 8 by omega), Bool.true_and]
    simp [List.getD_eq_getElem?_getD, List.getElem?_eq_getElem (show j < c.length by omega)]

/-! ## pack and unpack -/

@[simp] theorem length_packBytes : ∀ (k : Nat) (bs : Bits), (packBytes k bs).length = k
  | 0, _ => rfl
  | k + 1, bs => by simp [packBytes, length_packBytes k]

/-- Byte `j` of the packed bits. -/
theorem getElem_packBytes : ∀ (k : Nat) (bs : Bits) (j : Nat) (h : j < (packBytes k bs).length),
    (packBytes k bs)[j] = byteOfBits ((bs.drop (8 * j)).take 8)
  | 0, _, j, h => by simp [packBytes] at h
  | k + 1, bs, 0, h => by simp [packBytes]
  | k + 1, bs, j + 1, h => by
    simp only [packBytes, List.getElem_cons_succ]
    rw [getElem_packBytes k (bs.drop 8) j, List.drop_drop]
    congr 3
    omega

theorem flatMap_bitsOfByte_packBytes : ∀ (k : Nat) (bs : Bits), bs.length = 8 * k →
    (packBytes k bs).flatMap bitsOfByte = bs
  | 0, bs, h => by
    have : bs = [] := List.length_eq_zero_iff.1 (by omega)
    simp [this, packBytes]
  | k + 1, bs, h => by
    simp only [packBytes, List.flatMap_cons]
    rw [bitsOfByte_byteOfBits (by rw [List.length_take]; omega),
      flatMap_bitsOfByte_packBytes k _ (by rw [List.length_drop]; omega), List.take_append_drop]

@[simp] theorem pack_pad (bs : Bits) : (pack bs).2 = padOf bs.length := rfl

theorem length_pack (bs : Bits) : (pack bs).1.length = (bs.length + padOf bs.length) / 8 := by simp [pack]

theorem length_pack_mul (bs : Bits) : 8 * (pack bs).1.length = bs.length + padOf bs.length := by
  have := padOf_dvd bs.length
  rw [length_pack]; omega

/-- The payload's bits are the bits packed and the padding (R95). -/
theorem flatMap_pack (bs : Bits) :
    (pack bs).1.flatMap bitsOfByte = bs ++ List.replicate (padOf bs.length) false := by
  have := padOf_dvd bs.length
  simp only [pack]
  exact flatMap_bitsOfByte_packBytes _ _ (by rw [List.length_append, List.length_replicate]; omega)

end Sys2Proof.Machine
end

