-- ==== Sys2Proof/Laws/Container.lean ====
section
/-! SUPPORT. Laws of the container (spec/45_container.md): big-endian fields, and the deserializer on serialized
headers. -/

namespace Sys2Proof.Machine

open Sys2Proof

/-! ## Big-endian fields -/

theorem fromBe_append (a b : List Byte) : fromBe (a ++ b) = fromBe a * 256 ^ b.length + fromBe b := by
  have h : ∀ (b : List Byte) (v : Nat), b.foldl fromBeStep v = v * 256 ^ b.length + fromBe b := by
    intro b
    induction b with
    | nil => intro v; simp [fromBe]
    | cons x b ih =>
      intro v
      simp only [List.foldl_cons, fromBe]
      rw [ih, ih (fromBeStep 0 x), List.length_cons, Nat.pow_succ]
      simp only [fromBeStep]
      ring
  rw [fromBe, List.foldl_append, h]
  rfl

theorem beBytes_succ (k v : Nat) : beBytes (k + 1) v = beBytes k (v / 256) ++ [BitVec.ofNat 8 v] := by
  unfold beBytes
  rw [List.range_succ, List.map_append]
  congr 1
  · refine List.map_congr_left fun j hj => ?_
    have hj := List.mem_range.1 hj
    have e : k + 1 - 1 - j = (k - 1 - j) + 1 := by omega
    rw [e, Nat.pow_succ', Nat.div_div_eq_div_mul]
  · simp

/-- Reading a field back (R12). -/
theorem fromBe_beBytes : ∀ (k v : Nat), v < 256 ^ k → fromBe (beBytes k v) = v
  | 0, v, h => by simp at h; subst h; simp [beBytes, fromBe]
  | k + 1, v, h => by
    have hv : v / 256 < 256 ^ k := by
      rw [Nat.pow_succ] at h
      exact Nat.div_lt_of_lt_mul (by rw [Nat.mul_comm]; exact h)
    rw [beBytes_succ, fromBe_append, fromBe_beBytes k _ hv]
    simp [fromBe, fromBeStep]
    omega

theorem fieldAt_append {a b c : List Byte} {o k : Nat} (ho : a.length = o) (hk : b.length = k) :
    fieldAt (a ++ b ++ c) o k = fromBe b := by
  subst ho hk
  simp [fieldAt, List.append_assoc]

/-! ## The symbols present, in order -/

theorem allSymbols_sorted : allSymbols.Pairwise (fun a b => a.toNat < b.toNat) := by
  unfold allSymbols
  rw [List.pairwise_map]
  refine List.pairwise_lt_range.imp_of_mem ?_
  intro a b ha hb h
  have ha := List.mem_range.1 ha
  have hb := List.mem_range.1 hb
  simp only [BitVec.toNat_ofNat]
  omega

theorem present_sorted (t : Table Word) : (present t).Pairwise (fun a b => a.toNat < b.toNat) :=
  allSymbols_sorted.filter _

/-! ## Deserializing what was serialized -/

/-- The table after the entries of `ss`. -/
def putEntries (t : Table Word) (ss : List Byte) (u : Table Word) : Table Word :=
  ss.foldl (fun u s => tablePut u s (tableGet t s)) u

theorem putEntries_get (t : Table Word) : ∀ (ss : List Byte) (u : Table Word) (s : Byte),
    tableGet (putEntries t ss u) s = if s ∈ ss then tableGet t s else tableGet u s
  | [], u, s => by simp [putEntries]
  | a :: ss, u, s => by
    have := putEntries_get t ss (tablePut u a (tableGet t a)) s
    simp only [putEntries, List.foldl_cons] at this ⊢
    rw [this, tableGet_tablePut]
    by_cases h1 : s ∈ ss
    · simp [h1]
    · by_cases h2 : s = a
      · simp [h2]
      · simp [h1, h2]

/-- Putting the entries of the symbols present into an empty table gives the table back. -/
theorem putEntries_present (t : Table Word) : putEntries t (present t) zeroFreq = t := by
  apply table_ext
  intro s
  rw [putEntries_get]
  by_cases h : tableGet t s = 0
  · rw [if_neg (by rw [mem_present]; simpa using h), h, tableGet_zeroFreq]
  · rw [if_pos (mem_present.2 h)]

/-- Steps 4 to 7 of R106 pass on serialized entries. -/
theorem parseEntries_spec (t : Table Word) (maxLen : Nat) (a : List Byte) :
    ∀ (ss : List Byte) (i : Nat) (u : Table Word) (total : Nat) (prev : Option Nat),
      (∃ pre post, a = pre ++ ss.flatMap (entryBytes t) ++ post ∧ pre.length = 4 + 12 * i) →
      ss.Pairwise (fun a b => a.toNat < b.toNat) →
      (∀ p, prev = some p → ∀ s ∈ ss, p < s.toNat) →
      (∀ s ∈ ss, tableGet t s ≠ 0) →
      total + (ss.map fun s => (tableGet t s).toNat).sum ≤ maxLen →
      parseEntries maxLen a ss.length i u total prev =
        .ok (putEntries t ss u, total + (ss.map fun s => (tableGet t s).toNat).sum)
  | [], i, u, total, prev, _, _, _, _, _ => by simp [parseEntries, putEntries]
  | s :: ss, i, u, total, prev, ⟨pre, post, ha, hpre⟩, hsort, hprev, hne, htot => by
    have hs : fieldAt a (4 + 12 * i) 4 = s.toNat := by
      have e : a = pre ++ beBytes 4 s.toNat ++
          (beBytes 8 (tableGet t s).toNat ++ ss.flatMap (entryBytes t) ++ post) := by
        rw [ha]; simp [entryBytes]
      rw [e, fieldAt_append hpre (by simp), fromBe_beBytes]
      have := s.isLt
      omega
    have hf : fieldAt a (8 + 12 * i) 8 = (tableGet t s).toNat := by
      have e : a = (pre ++ beBytes 4 s.toNat) ++ beBytes 8 (tableGet t s).toNat ++
          (ss.flatMap (entryBytes t) ++ post) := by
        rw [ha]; simp [entryBytes]
      rw [e, fieldAt_append (by simp [hpre]; omega) (by simp), fromBe_beBytes]
      have := (tableGet t s).isLt
      omega
    have hsl := s.isLt
    have h0 : (tableGet t s).toNat ≠ 0 := fun h => hne s List.mem_cons_self (BitVec.eq_of_toNat_eq h)
    have hp : prev.any (fun p => decide (s.toNat ≤ p)) = false := by
      cases prev with
      | none => rfl
      | some p =>
        have := hprev p rfl s List.mem_cons_self
        simp; omega
    rw [List.map_cons, List.sum_cons] at htot
    rw [List.pairwise_cons] at hsort
    have ih := parseEntries_spec t maxLen a ss (i + 1) (tablePut u s (tableGet t s)) (total + (tableGet t s).toNat)
      (some s.toNat)
      ⟨pre ++ entryBytes t s, post, by rw [ha]; simp, by simp [hpre]; omega⟩ hsort.2
      (by intro p hp x hx; simp at hp; subst hp; exact hsort.1 x hx)
      (fun x hx => hne x (List.mem_cons_of_mem _ hx)) (by omega)
    rw [List.length_cons]
    unfold parseEntries
    simp only [hs, hf]
    rw [if_neg (by omega), if_neg (by simp [hp]), if_neg h0, if_neg (by omega)]
    simp only [BitVec.ofNat_toNat, BitVec.setWidth_eq]
    rw [ih, List.map_cons, List.sum_cons, Nat.add_assoc]
    rfl

/-- A header's fields behind its entries. -/
theorem fieldAt_tail (t : Table Word) (pad : Nat) (e : Bool) (payload : List Byte) :
    fieldAt (headerBytes t (distinct t) pad e ++ payload) (4 + 12 * distinct t) 1 = (BitVec.ofNat 8 pad).toNat ∧
    fieldAt (headerBytes t (distinct t) pad e ++ payload) (5 + 12 * distinct t) 1 = if e then 1 else 0 := by
  have hl : (beBytes 4 (distinct t) ++ (present t).flatMap (entryBytes t)).length = 4 + 12 * distinct t := by
    simp [distinct, List.length_flatMap]
    omega
  constructor
  · have e1 : headerBytes t (distinct t) pad e ++ payload =
        (beBytes 4 (distinct t) ++ (present t).flatMap (entryBytes t)) ++ [BitVec.ofNat 8 pad] ++
        ((if e then (1 : Byte) else 0) :: payload) := by simp [headerBytes]
    rw [e1, fieldAt_append (k := 1) hl (by simp)]
    simp [fromBe, fromBeStep]
  · have e1 : headerBytes t (distinct t) pad e ++ payload =
        ((beBytes 4 (distinct t) ++ (present t).flatMap (entryBytes t)) ++ [BitVec.ofNat 8 pad]) ++
        [if e then (1 : Byte) else 0] ++ payload := by simp [headerBytes]
    rw [e1, fieldAt_append (o := 5 + 12 * distinct t) (k := 1)
      (by rw [List.length_append, hl, List.length_singleton]; omega) (by simp)]
    cases e <;> rfl

/-- The count of a header. -/
theorem fieldAt_count (t : Table Word) (pad : Nat) (e : Bool) (payload : List Byte) :
    fieldAt (headerBytes t (distinct t) pad e ++ payload) 0 4 = distinct t := by
  have e1 : headerBytes t (distinct t) pad e ++ payload =
      [] ++ beBytes 4 (distinct t) ++
      ((present t).flatMap (entryBytes t) ++ [BitVec.ofNat 8 pad, if e then 1 else 0] ++ payload) := by
    simp [headerBytes]
  have := distinct_le t
  rw [e1, fieldAt_append (o := 0) (k := 4) (by simp) (by simp), fromBe_beBytes _ _ (by omega)]

/-! ## Artifacts -/

theorem length_artifact (bytes : List Byte) : (artifact bytes).length =
    headerLen (distinct (countBytes bytes)) +
      (pack (bytes.flatMap (tableGet (codesOf (countBytes bytes))))).1.length := by
  simp [artifact]

/-- The counts of a non-empty input. -/
theorem countBytes_spec {bytes : List Byte} (h : bytes ≠ []) (hl : bytes.length < 2 ^ 64) :
    1 ≤ distinct (countBytes bytes) ∧ freqSum (countBytes bytes) = bytes.length ∧
    ∀ s, (tableGet (countBytes bytes) s).toNat = bytes.count s := by
  have hc := countFrom_spec bytes zeroFreq (by simpa using hl)
  simp at hc
  refine ⟨?_, hc.2, hc.1⟩
  cases bytes with
  | nil => simp at h
  | cons b bs =>
    apply distinct_pos_of_mem (s := b)
    intro h0
    have := hc.1 b
    simp only [countBytes] at h0
    rw [h0] at this
    simp at this

/-- A byte of the input is a symbol present. -/
theorem countBytes_ne_zero {bytes : List Byte} (h : bytes ≠ []) (hl : bytes.length < 2 ^ 64) {b : Byte}
    (hb : b ∈ bytes) : tableGet (countBytes bytes) b ≠ 0 := by
  intro h0
  have := (countBytes_spec h hl).2.2 b
  rw [h0] at this
  have := List.count_pos_iff.2 hb
  simp_all

theorem length_flatMap_codes (bytes : List Byte) (f : Byte → Bits) :
    (bytes.flatMap f).length = (allSymbols.map fun s => bytes.count s * (f s).length).sum := by
  induction bytes with
  | nil =>
    refine (List.sum_eq_zero fun x hx => ?_).symm
    obtain ⟨s, _, rfl⟩ := List.mem_map.1 hx
    simp
  | cons b bytes ih =>
    rw [List.flatMap_cons, List.length_append, ih]
    have := sum_map_update (f := fun s => bytes.count s * (f s).length)
      (g := fun s => (b :: bytes).count s * (f s).length) allSymbols_nodup (mem_allSymbols b)
      (fun s _ hs => by simp [Ne.symm hs])
    simp only [List.count_cons_self] at this
    rw [Nat.add_mul] at this
    omega

/-- The encoded input has `B` bits (spec/43_code_table.md R92). -/
theorem length_stream {bytes : List Byte} (h : bytes ≠ []) (hl : bytes.length < 2 ^ 64) :
    (bytes.flatMap (tableGet (codesOf (countBytes bytes)))).length =
      payloadBits (countBytes bytes) (codesOf (countBytes bytes)) := by
  rw [length_flatMap_codes, payloadBits]
  simp only [(countBytes_spec h hl).2.2, codeLen]

end Sys2Proof.Machine
end

