-- ==== Sys2Proof/Laws/WorkingMore.lean ====
section
/-! SUPPORT. The working state of DECOMPRESS and ANALYZE, the sequencer, and that no engine step faults. -/

namespace Sys2Proof.Machine

open Sys2Proof

/-! ## DECOMPRESS -/

/-- What a header byte leads to: an ended command, or READ_HDR, PLAN or FINISH with what R106 has settled. -/
theorem headerByte_wf {s : State} (v : Nat) (b : Byte) (hp : s.eng.phase = .readHdr) (hb : s.checkBoth = none)
    {o : Nat} (ho : s.eng.idx = o + 1)
    (hs : o ≤ 3 ∨ (headerLen s.eng.n ≤ s.regs.srcLen.toNat ∧ o < headerLen s.eng.n ∧
      (s.eng.n = 0 → s.eng.total = 0))) : (headerByte o v b s).DecompressWf := by
  unfold headerByte
  simp only
  split
  · simp only [State.DecompressWf, hp]
    exact ⟨hb, .inl (by omega)⟩
  · split
    · unfold afterCount
      split
      · simp [State.DecompressWf]
      · split
        · simp [State.DecompressWf]
        · rename_i h3 h256 hm
          simp only [State.DecompressWf, Engine.nextField, hp]
          refine ⟨hb, .inr ⟨by omega, ?_, fun _ => trivial⟩⟩
          rw [ho]; simp only [headerLen]; omega
    · have hs' := hs.resolve_left (by omega)
      obtain ⟨h1, h2, h3⟩ := hs'
      have hl : headerLen s.eng.n = 6 + 12 * s.eng.n := rfl
      split
      · split
        · unfold afterSymbol
          split
          · simp [State.DecompressWf]
          · split
            · simp [State.DecompressWf]
            · simp only [State.DecompressWf, Engine.nextField, hp]
              exact ⟨hb, .inr ⟨h1, by omega, h3⟩⟩
        · split
          · unfold afterFreq
            split
            · simp [State.DecompressWf]
            · split
              · simp [State.DecompressWf]
              · simp only [State.DecompressWf, Engine.nextField, hp]
                exact ⟨hb, .inr ⟨h1, by omega, fun h => by omega⟩⟩
          · simp only [State.DecompressWf, hp]
            exact ⟨hb, .inr ⟨h1, by omega, h3⟩⟩
      · split
        · simp only [State.DecompressWf, Engine.nextField, hp]
          exact ⟨hb, .inr ⟨h1, by omega, h3⟩⟩
        · unfold afterFlag
          simp only
          split
          · simp [State.DecompressWf]
          · split
            · simp [State.DecompressWf]
            · split
              · split
                · simp [State.DecompressWf]
                · rename_i hn
                  split
                  · simp [State.DecompressWf]
                  · refine ⟨hb, ?_⟩
                    have : s.eng.total = 0 := h3 (by omega)
                    simp [this]
              · split
                · simp [State.DecompressWf]
                · split
                  · simp [State.DecompressWf]
                  · refine ⟨hb, ?_⟩
                    simp only [State.PartsWf]; omega

theorem decompressStep_wf {s t : State} (hs : s.DecompressWf) (h : decompressStep s = .ok t) : t.DecompressWf := by
  unfold decompressStep at h
  unfold State.DecompressWf at hs
  cases hp : s.eng.phase <;> rw [hp] at h hs <;> simp only at h hs
  case idle => simp at h; subst h; simp [State.DecompressWf, hp]
  case check =>
    simp at h; subst h
    unfold checkDecompress
    split
    · simp [State.DecompressWf]
    · rename_i hb
      exact ⟨hb, .inl (Nat.zero_le _)⟩
  case readHdr =>
    unfold readHdrStep at h
    simp only at h
    split at h
    · simp at h; subst h; simp [State.DecompressWf]
    · obtain ⟨b, _, h⟩ := Answer.andThen_eq_ok.1 h
      simp at h; subst h
      apply headerByte_wf
      · exact hp
      · exact hs.1
      · rfl
      · exact hs.2
  case plan =>
    simp at h; subst h
    unfold planDecompress
    split
    · simp [State.DecompressWf]
    · refine ⟨hs.1, hs.2, by simp only [Engine.startTree]; omega, Engine.startTree_treeWf _⟩
  case tree =>
    obtain ⟨hb, hn, htot, ht⟩ := hs
    rcases treeStep_cases h with ⟨_, rfl⟩ | ⟨x, rfl⟩ | ⟨a, b, ha, hb', rfl⟩
    · simp [State.DecompressWf]
    · exact ⟨hb, hn, htot⟩
    · have := Engine.merge_treeWf ht ha hb'
      simp only [State.DecompressWf, show (s.eng.merge a b).phase = .tree from hp]
      exact ⟨hb, hn, htot, this⟩
  case codes =>
    simp [codesStep] at h; subst h
    exact ⟨hs.1, hs.2.1, hs.2.2, Nat.zero_le _⟩
  case decode =>
    obtain ⟨hb, hpa, htot, hem⟩ := hs
    unfold decodeStep at h
    split at h
    · split at h
      · unfold walkBit at h
        simp only at h
        split at h
        · simp at h; subst h
          simp only [State.DecompressWf, Engine.nextBit, hp]
          exact ⟨hb, hpa, htot, hem⟩
        · split at h
          · simp at h; subst h; simp [State.DecompressWf]
          · obtain ⟨u, hu, h⟩ := Answer.andThen_eq_ok.1 h
            obtain ⟨_, rfl⟩ := State.memWrite_eq_ok.1 hu
            simp at h; subst h
            simp only [State.DecompressWf, Engine.matched, Engine.nextBit, hp]
            exact ⟨hb, hpa, htot, by omega⟩
      · obtain ⟨b, _, h⟩ := Answer.andThen_eq_ok.1 h
        simp at h; subst h
        simp only [State.DecompressWf, hp]
        exact ⟨hb, hpa, htot, hem⟩
    · simp at h; subst h
      unfold walkEnd
      split
      · simp [State.DecompressWf]
      · split
        · simp [State.DecompressWf]
        · exact ⟨hb, htot⟩
  case finish =>
    simp at h; subst h
    simp [finishDecompress, State.DecompressWf]
  all_goals simp at h

/-- What of the destination one step of DECOMPRESS may touch: the planned range while DECODE runs, nothing before
(spec/46_codec_commands.md R120). -/
def decompressRange (s : State) : Nat :=
  match s.eng.phase with
  | .decode => s.eng.total
  | _ => 0

/-- One step of DECOMPRESS stays inside the planned range. -/
theorem decompressStep_range {s t : State} (hs : s.DecompressWf) (h : decompressStep s = .ok t) :
    Effect s t (decompressRange s) := by
  have he := decompressStep_effect h
  unfold State.DecompressWf at hs
  unfold decompressStep at h
  unfold decompressReach at he
  unfold decompressRange
  cases hp : s.eng.phase <;> rw [hp] at h hs he <;> simp only at h hs he ⊢ <;> try exact he
  obtain ⟨hb, hpa, htot, hem⟩ := hs
  refine ⟨he.kept, ?_⟩
  unfold decodeStep at h
  split at h
  · split at h
    · unfold walkBit at h
      simp only at h
      split at h
      · simp at h; subst h; exact .same rfl
      · split at h
        · simp at h; subst h; exact MemEffect.raise s _ _ _
        · obtain ⟨u, hu, h⟩ := Answer.andThen_eq_ok.1 h
          obtain ⟨_, rfl⟩ := State.memWrite_eq_ok.1 hu
          simp at h; subst h
          exact .stored s.eng.emitted _ (by omega) rfl
    · obtain ⟨b, _, h⟩ := Answer.andThen_eq_ok.1 h
      simp at h; subst h
      exact .same rfl
  · simp at h; subst h
    unfold walkEnd
    split
    · exact MemEffect.raise s _ _ _
    · split
      · exact MemEffect.raise s _ _ _
      · exact .same rfl

/-! ## ANALYZE -/

theorem analyzeStep_wf {s t : State} (hs : s.AnalyzeWf) (h : analyzeStep s = .ok t) : t.AnalyzeWf := by
  unfold analyzeStep at h
  unfold State.AnalyzeWf at hs
  cases hp : s.eng.phase <;> rw [hp] at h hs <;> simp only at h hs
  case idle => simp at h; subst h; simp [State.AnalyzeWf, hp]
  case check =>
    simp at h; subst h
    unfold checkAnalyze
    split
    · simp [State.AnalyzeWf]
    · rename_i hb
      split
      · exact hb
      · exact ⟨hb, Nat.zero_le _⟩
  case count =>
    obtain ⟨hb, hi⟩ := hs
    unfold countStep at h
    split at h
    · obtain ⟨b, _, h⟩ := Answer.andThen_eq_ok.1 h
      simp at h; subst h
      simp only [State.AnalyzeWf, hp]
      exact ⟨hb, by omega⟩
    · simp at h; subst h
      exact ⟨hb, Engine.startTree_treeWf _⟩
  case tree =>
    obtain ⟨hb, ht⟩ := hs
    rcases treeStep_cases h with ⟨_, rfl⟩ | ⟨x, rfl⟩ | ⟨a, b, ha, hb', rfl⟩
    · simp [State.AnalyzeWf]
    · exact hb
    · have := Engine.merge_treeWf ht ha hb'
      simp only [State.AnalyzeWf, show (s.eng.merge a b).phase = .tree from hp]
      exact ⟨hb, this⟩
  case codes =>
    simp [codesStep] at h; subst h
    exact hs
  case plan =>
    simp at h; subst h
    exact hs
  case finish =>
    simp at h; subst h
    simp [finishAnalyze, State.AnalyzeWf]
  all_goals simp at h

/-! ## No engine step faults -/

theorem State.memRead_ne_fault {s : State} {a : Nat} (h : a < 2 ^ s.cfg.addrW) (f : Fault) : s.memRead a ≠ .fault f := by
  intro hf
  rcases Answer.andThen_eq_fault.1 hf with h' | ⟨_, _, h'⟩
  · exact State.access_ne_fault h _ _ h'
  · simp at h'

theorem State.memWrite_ne_fault {s : State} {a : Nat} (h : a < 2 ^ s.cfg.addrW) (v : Byte) (f : Fault) :
    s.memWrite a v ≠ .fault f := by
  intro hf
  rcases Answer.andThen_eq_fault.1 hf with h' | ⟨_, _, h'⟩
  · exact State.access_ne_fault h _ _ h'
  · simp at h'

/-- A source the checks passed lies in the address space (spec/20_memory.md R38). -/
theorem State.srcAddr_lt {s : State} (h : s.checkSrc = none) {i : Nat} (hi : i < s.regs.srcLen.toNat) :
    s.srcAddr i < 2 ^ s.cfg.addrW := by
  unfold State.checkSrc at h
  split at h
  · simp at h
  · rename_i hn
    simp only [Regs.source] at hn
    simp only [State.srcAddr]; omega

theorem State.checkSrc_of_checkBoth {s : State} (h : s.checkBoth = none) : s.checkSrc = none := by
  unfold State.checkBoth at h
  split at h
  · simp at h
  · assumption

/-- A destination the checks passed lies in the address space (spec/20_memory.md R38). -/
theorem State.dstAddr_lt {s : State} (h : s.checkBoth = none) {o : Nat} (ho : o < s.regs.dstCap.toNat) :
    s.dstAddr o < 2 ^ s.cfg.addrW := by
  unfold State.checkBoth at h
  split at h
  · simp at h
  · unfold State.checkDst at h
    split at h
    · simp at h
    · rename_i hn
      simp only [Regs.dest] at hn
      simp only [State.dstAddr]; omega

theorem countStep_ne_fault {s : State} (h : s.checkSrc = none) (f : Fault) : countStep s ≠ .fault f := by
  unfold countStep
  split
  · intro hf
    rcases Answer.andThen_eq_fault.1 hf with h' | ⟨_, _, h'⟩
    · exact State.memRead_ne_fault (State.srcAddr_lt h ‹_›) _ h'
    · simp at h'
  · simp

theorem packBit_ne_fault {x : Bool} {s : State}
    (h : s.eng.nb + 1 = 8 → s.dstAddr s.eng.out < 2 ^ s.cfg.addrW) (f : Fault) : packBit x s ≠ .fault f := by
  by_cases h8 : s.eng.nb + 1 = 8
  · have e : packBit x s = (s.memWrite (s.dstAddr s.eng.out) (s.eng.shiftIn x).shift).andThen fun t =>
        .ok { t with eng := (s.eng.shiftIn x).byteDone } := if_pos h8
    rw [e]
    intro hf
    rcases Answer.andThen_eq_fault.1 hf with h' | ⟨_, _, h'⟩
    · exact State.memWrite_ne_fault (h h8) _ _ h'
    · simp at h'
  · have e : packBit x s = .ok { s with eng := s.eng.shiftIn x } := if_neg h8
    rw [e]; simp

theorem packFinish_ne_fault {s : State} (h : 0 < s.eng.nb → s.dstAddr s.eng.out < 2 ^ s.cfg.addrW) (f : Fault) :
    packFinish s ≠ .fault f := by
  unfold packFinish
  split
  · intro hf
    rcases Answer.andThen_eq_fault.1 hf with h' | ⟨_, _, h'⟩
    · exact State.memWrite_ne_fault (h ‹_›) _ _ h'
    · simp at h'
  · simp

theorem compressStep_ne_fault {s : State} (hs : s.CompressWf) (hp' : s.eng.phase ∈ .idle :: phasesOf .compress)
    (f : Fault) : compressStep s ≠ .fault f := by
  unfold compressStep
  unfold State.CompressWf at hs
  cases hp : s.eng.phase <;> rw [hp] at hs hp' <;> simp only at hs ⊢
  case count => exact countStep_ne_fault (State.checkSrc_of_checkBoth hs.1) f
  case tree => exact treeStep_ne_fault hs.2.2 f
  case writeHdr =>
    obtain ⟨hb, hn, ⟨_, hc⟩, ho⟩ := hs
    unfold writeHdrStep
    split
    · rename_i b hb'
      have := (List.getElem?_eq_some_iff.1 hb').1
      rw [length_headerBytes, ← hn] at this
      intro hf
      rcases Answer.andThen_eq_fault.1 hf with h' | ⟨_, _, h'⟩
      · refine State.memWrite_ne_fault (State.dstAddr_lt hb ?_) _ _ h'
        simp only [Engine.artifactSize] at hc; omega
      · simp at h'
    · split <;> simp
  case encode =>
    obtain ⟨hb, ⟨hpl, hc⟩, ⟨k1, k2, k3, k4⟩, hi⟩ := hs
    have hd := padOf_dvd s.eng.bits
    simp only [Engine.artifactSize] at hc
    unfold encodeStep
    split
    · rename_i x rest hpe
      rw [hpe, List.length_cons] at k3
      refine packBit_ne_fault ?_ f
      intro h8
      simp only at h8
      refine State.dstAddr_lt (s := s) hb ?_
      simp only
      omega
    · rename_i hpe
      rw [hpe, List.length_nil] at k3
      split
      · intro hf
        rcases Answer.andThen_eq_fault.1 hf with h' | ⟨_, _, h'⟩
        · exact State.memRead_ne_fault (State.srcAddr_lt (State.checkSrc_of_checkBoth hb) ‹_›) _ h'
        · simp at h'
      · split
        · simp
        · intro hf
          rcases Answer.andThen_eq_fault.1 hf with h' | ⟨_, _, h'⟩
          · refine packFinish_ne_fault (fun h0 => State.dstAddr_lt hb ?_) _ h'
            omega
          · simp at h'
  case readHdr => simp [phasesOf] at hp'
  case decode => simp [phasesOf] at hp'
  all_goals simp [codesStep]

theorem decompressStep_ne_fault {s : State} (hs : s.DecompressWf) (hp' : s.eng.phase ∈ .idle :: phasesOf .decompress)
    (f : Fault) : decompressStep s ≠ .fault f := by
  unfold decompressStep
  unfold State.DecompressWf at hs
  cases hp : s.eng.phase <;> rw [hp] at hs hp' <;> simp only at hs ⊢
  case readHdr =>
    unfold readHdrStep
    simp only
    split
    · simp
    · intro hf
      rcases Answer.andThen_eq_fault.1 hf with h' | ⟨_, _, h'⟩
      · refine State.memRead_ne_fault (State.srcAddr_lt (State.checkSrc_of_checkBoth hs.1) ?_) _ h'
        rcases hs.2 with h | h <;> omega
      · simp at h'
  case tree => exact treeStep_ne_fault hs.2.2.2 f
  case decode =>
    obtain ⟨hb, hpa, htot, hem⟩ := hs
    simp only [State.PartsWf] at hpa
    unfold decodeStep
    split
    · rename_i hi
      simp only [Engine.streamBits] at hi
      split
      · unfold walkBit
        simp only
        split
        · simp
        · split
          · simp
          · intro hf
            rcases Answer.andThen_eq_fault.1 hf with h' | ⟨_, _, h'⟩
            · refine State.memWrite_ne_fault (State.dstAddr_lt hb ?_) _ _ h'
              omega
            · simp at h'
      · intro hf
        rcases Answer.andThen_eq_fault.1 hf with h' | ⟨_, _, h'⟩
        · refine State.memRead_ne_fault (State.srcAddr_lt (State.checkSrc_of_checkBoth hb) ?_) _ h'
          omega
        · simp at h'
    · simp
  case count => simp [phasesOf] at hp'
  case writeHdr => simp [phasesOf] at hp'
  case encode => simp [phasesOf] at hp'
  all_goals simp [codesStep]

theorem analyzeStep_ne_fault {s : State} (hs : s.AnalyzeWf) (hp' : s.eng.phase ∈ .idle :: phasesOf .analyze)
    (f : Fault) : analyzeStep s ≠ .fault f := by
  unfold analyzeStep
  unfold State.AnalyzeWf at hs
  cases hp : s.eng.phase <;> rw [hp] at hs hp' <;> simp only at hs ⊢
  case count => exact countStep_ne_fault hs.1 f
  case tree => exact treeStep_ne_fault hs.2 f
  case writeHdr => simp [phasesOf] at hp'
  case encode => simp [phasesOf] at hp'
  case readHdr => simp [phasesOf] at hp'
  case decode => simp [phasesOf] at hp'
  all_goals simp [codesStep]

theorem nopStep_ne_fault {s : State} (hp' : s.eng.phase ∈ .idle :: phasesOf .nop) (f : Fault) :
    nopStep s ≠ .fault f := by
  unfold nopStep
  cases hp : s.eng.phase <;> rw [hp] at hp' <;> simp [phasesOf] at hp' ⊢

end Sys2Proof.Machine
end

