-- ==== Sys2Proof/Laws/Sequence.lean ====
section
/-! SUPPORT. Where one engine step leads: on in the command's sequence with every register unchanged, or to its end. -/

namespace Sys2Proof.Machine

open Sys2Proof

/-- The command of `s` goes on in `t`, in a phase of `ps`. -/
abbrev GoesOn (ps : List Phase) (s t : State) : Prop := t.regs = s.regs ∧ t.eng.phase ∈ ps

/-- The command has ended in `t`. -/
abbrev HasEnded (t : State) : Prop := t.eng.phase = .idle ∧ t.regs.busy = false ∧ t.regs.done = true

theorem HasEnded.raise (s : State) (code : ErrCode) (info planned : Nat) : HasEnded (s.raise code info planned) := by
  simp [HasEnded]

theorem HasEnded.finish (s : State) (a b c d : Nat) : HasEnded ((s.setResults a b c d).showTables).complete := by
  simp [HasEnded]

theorem nopStep_leads {s t : State} (hp : s.eng.phase ≠ .idle) (h : nopStep s = .ok t) :
    GoesOn (phasesOf .nop) s t ∨ HasEnded t := by
  unfold nopStep at h
  cases h' : s.eng.phase <;> rw [h'] at h <;> simp at h <;> try subst h
  · exact absurd h' hp
  · exact .inl ⟨rfl, by simp [phasesOf]⟩
  · exact .inr (by simp [HasEnded])

theorem illegalStep_leads {s t : State} (hp : s.eng.phase ≠ .idle) (h : illegalStep s = .ok t) : HasEnded t := by
  unfold illegalStep at h
  split at h
  · contradiction
  · simp at h; subst h; exact HasEnded.raise s _ _ _

theorem countStep_leads {ps : List Phase} {s t : State} (hp : s.eng.phase ∈ ps) (ht : .tree ∈ ps)
    (h : countStep s = .ok t) : GoesOn ps s t := by
  unfold countStep at h
  split at h
  · obtain ⟨b, _, h⟩ := Answer.andThen_eq_ok.1 h
    simp at h; subst h; exact ⟨rfl, hp⟩
  · simp at h; subst h; exact ⟨rfl, ht⟩

theorem treeStep_leads {ps : List Phase} {s t : State} (hp : s.eng.phase ∈ ps) (ht : .codes ∈ ps)
    (h : treeStep s = .ok t) : GoesOn ps s t ∨ HasEnded t := by
  rcases treeStep_cases h with ⟨_, rfl⟩ | ⟨x, rfl⟩ | ⟨a, b, ha, hb', rfl⟩
  · exact .inr (HasEnded.raise s _ _ _)
  · exact .inl ⟨rfl, ht⟩
  · exact .inl ⟨rfl, hp⟩

theorem writeHdrStep_leads {ps : List Phase} {s t : State} (hp : s.eng.phase ∈ ps) (he : .encode ∈ ps)
    (hf : .finish ∈ ps) (h : writeHdrStep s = .ok t) : GoesOn ps s t := by
  unfold writeHdrStep at h
  split at h
  · obtain ⟨u, hu, h⟩ := Answer.andThen_eq_ok.1 h
    obtain ⟨_, rfl⟩ := State.memWrite_eq_ok.1 hu
    simp at h; subst h; exact ⟨rfl, hp⟩
  · split at h <;> simp at h <;> subst h
    · exact ⟨rfl, hf⟩
    · exact ⟨rfl, he⟩

theorem encodeStep_leads {ps : List Phase} {s t : State} (hp : s.eng.phase ∈ ps) (hf : .finish ∈ ps)
    (h : encodeStep s = .ok t) : GoesOn ps s t ∨ HasEnded t := by
  unfold encodeStep at h
  split at h
  · rcases packBit_cases h with ⟨_, _, rfl⟩ | ⟨_, rfl⟩
    · exact .inl ⟨rfl, hp⟩
    · exact .inl ⟨rfl, hp⟩
  · split at h
    · obtain ⟨b, _, h⟩ := Answer.andThen_eq_ok.1 h
      simp at h; subst h
      unfold encodeByte
      simp only
      split
      · exact .inr (HasEnded.raise s _ _ _)
      · split
        · exact .inr (HasEnded.raise s _ _ _)
        · exact .inl ⟨rfl, hp⟩
    · split at h
      · simp at h; subst h; exact .inr (HasEnded.raise s _ _ _)
      · obtain ⟨v, hv, h⟩ := Answer.andThen_eq_ok.1 h
        simp at h; subst h
        rcases packFinish_cases hv with ⟨_, _, rfl⟩ | ⟨_, rfl⟩ <;> exact .inl ⟨rfl, hf⟩

theorem afterCount_leads {ps : List Phase} (m v : Nat) {s : State} (hp : s.eng.phase ∈ ps) :
    GoesOn ps s (afterCount m v s) ∨ HasEnded (afterCount m v s) := by
  unfold afterCount
  split
  · exact .inr (HasEnded.raise s _ _ _)
  · split
    · exact .inr (HasEnded.raise s _ _ _)
    · exact .inl ⟨rfl, hp⟩

theorem afterSymbol_leads {ps : List Phase} (i v : Nat) {s : State} (hp : s.eng.phase ∈ ps) :
    GoesOn ps s (afterSymbol i v s) ∨ HasEnded (afterSymbol i v s) := by
  unfold afterSymbol
  split
  · exact .inr (HasEnded.raise s _ _ _)
  · split
    · exact .inr (HasEnded.raise s _ _ _)
    · exact .inl ⟨rfl, hp⟩

theorem afterFreq_leads {ps : List Phase} (i f : Nat) {s : State} (hp : s.eng.phase ∈ ps) :
    GoesOn ps s (afterFreq i f s) ∨ HasEnded (afterFreq i f s) := by
  unfold afterFreq
  split
  · exact .inr (HasEnded.raise s _ _ _)
  · split
    · exact .inr (HasEnded.raise s _ _ _)
    · exact .inl ⟨rfl, hp⟩

theorem afterFlag_leads {ps : List Phase} (m flag : Nat) {s : State} (hpl : .plan ∈ ps) (hf : .finish ∈ ps) :
    GoesOn ps s (afterFlag m flag s) ∨ HasEnded (afterFlag m flag s) := by
  unfold afterFlag
  simp only
  split
  · exact .inr (HasEnded.raise s _ _ _)
  · split
    · exact .inr (HasEnded.raise s _ _ _)
    · split
      · split
        · exact .inr (HasEnded.raise s _ _ _)
        · split
          · exact .inr (HasEnded.raise s _ _ _)
          · exact .inl ⟨rfl, hf⟩
      · split
        · exact .inr (HasEnded.raise s _ _ _)
        · split
          · exact .inr (HasEnded.raise s _ _ _)
          · exact .inl ⟨rfl, hpl⟩

theorem headerByte_leads {ps : List Phase} (o v : Nat) (b : Byte) {s : State} (hp : s.eng.phase ∈ ps)
    (hpl : .plan ∈ ps) (hf : .finish ∈ ps) : GoesOn ps s (headerByte o v b s) ∨ HasEnded (headerByte o v b s) := by
  unfold headerByte
  simp only
  split
  · exact .inl ⟨rfl, hp⟩
  · split
    · exact afterCount_leads _ _ hp
    · split
      · split
        · exact afterSymbol_leads _ _ hp
        · split
          · exact afterFreq_leads _ _ hp
          · exact .inl ⟨rfl, hp⟩
      · split
        · exact .inl ⟨rfl, hp⟩
        · exact afterFlag_leads _ _ hpl hf

theorem readHdrStep_leads {ps : List Phase} {s t : State} (hp : s.eng.phase ∈ ps) (hpl : .plan ∈ ps)
    (hf : .finish ∈ ps) (h : readHdrStep s = .ok t) : GoesOn ps s t ∨ HasEnded t := by
  unfold readHdrStep at h
  simp only at h
  split at h
  · simp at h; subst h; exact .inr (HasEnded.raise s _ _ _)
  · obtain ⟨b, _, h⟩ := Answer.andThen_eq_ok.1 h
    simp at h; subst h
    rcases headerByte_leads s.eng.idx (fromBeStep s.eng.field b) b
      (s := { s with eng := { s.eng with idx := s.eng.idx + 1, field := fromBeStep s.eng.field b } }) hp hpl hf with
      h | h
    · exact .inl h
    · exact .inr h

theorem decodeStep_leads {ps : List Phase} {s t : State} (hp : s.eng.phase ∈ ps) (hf : .finish ∈ ps)
    (h : decodeStep s = .ok t) : GoesOn ps s t ∨ HasEnded t := by
  unfold decodeStep walkBit walkEnd at h
  split at h
  · split at h
    · simp only at h
      split at h
      · simp at h; subst h; exact .inl ⟨rfl, hp⟩
      · split at h
        · simp at h; subst h; exact .inr (HasEnded.raise s _ _ _)
        · obtain ⟨u, hu, h⟩ := Answer.andThen_eq_ok.1 h
          obtain ⟨_, rfl⟩ := State.memWrite_eq_ok.1 hu
          simp at h; subst h; exact .inl ⟨rfl, hp⟩
    · obtain ⟨b, _, h⟩ := Answer.andThen_eq_ok.1 h
      simp at h; subst h; exact .inl ⟨rfl, hp⟩
  · split_ifs at h <;> simp at h <;> subst h
    · exact .inr (HasEnded.raise s _ _ _)
    · exact .inr (HasEnded.raise s _ _ _)
    · exact .inl ⟨rfl, hf⟩

theorem compressStep_leads {s t : State} (hp : s.eng.phase ≠ .idle) (h : compressStep s = .ok t) :
    GoesOn (phasesOf .compress) s t ∨ HasEnded t := by
  unfold compressStep at h
  cases h' : s.eng.phase <;> rw [h'] at h <;> simp only at h
  case idle => exact absurd h' hp
  case check =>
    simp at h; subst h
    unfold checkCompress compressEmpty
    simp only
    split
    · exact .inr (HasEnded.raise s _ _ _)
    · split_ifs
      · exact .inr (by simp [HasEnded])
      · exact .inl ⟨rfl, by simp [phasesOf, Engine.startHeader]⟩
      · exact .inl ⟨rfl, by simp [phasesOf, Engine.startCount]⟩
  case count => exact .inl (countStep_leads (by simp [h', phasesOf]) (by simp [phasesOf]) h)
  case tree => exact treeStep_leads (by simp [h', phasesOf]) (by simp [phasesOf]) h
  case codes => simp [codesStep] at h; subst h; exact .inl ⟨rfl, by simp [phasesOf]⟩
  case plan =>
    simp at h; subst h
    unfold planCompress
    simp only
    split
    · exact .inr (by simp [HasEnded])
    · exact .inl ⟨rfl, by simp [phasesOf, Engine.startHeader]⟩
  case writeHdr => exact .inl (writeHdrStep_leads (by simp [h', phasesOf]) (by simp [phasesOf]) (by simp [phasesOf]) h)
  case encode => exact encodeStep_leads (by simp [h', phasesOf]) (by simp [phasesOf]) h
  case finish => simp at h; subst h; exact .inr (HasEnded.finish s _ _ _ _)
  all_goals simp at h

theorem decompressStep_leads {s t : State} (hp : s.eng.phase ≠ .idle) (h : decompressStep s = .ok t) :
    GoesOn (phasesOf .decompress) s t ∨ HasEnded t := by
  unfold decompressStep at h
  cases h' : s.eng.phase <;> rw [h'] at h <;> simp only at h
  case idle => exact absurd h' hp
  case check =>
    simp at h; subst h
    unfold checkDecompress
    split
    · exact .inr (HasEnded.raise s _ _ _)
    · exact .inl ⟨rfl, by simp [phasesOf, Engine.startRead]⟩
  case readHdr => exact readHdrStep_leads (by simp [h', phasesOf]) (by simp [phasesOf]) (by simp [phasesOf]) h
  case plan =>
    simp at h; subst h
    unfold planDecompress
    split
    · exact .inr (HasEnded.raise s _ _ _)
    · exact .inl ⟨rfl, by simp [phasesOf, Engine.startTree]⟩
  case tree => exact treeStep_leads (by simp [h', phasesOf]) (by simp [phasesOf]) h
  case codes => simp [codesStep] at h; subst h; exact .inl ⟨rfl, by simp [phasesOf, Engine.startDecode]⟩
  case decode => exact decodeStep_leads (by simp [h', phasesOf]) (by simp [phasesOf]) h
  case finish => simp at h; subst h; exact .inr (HasEnded.finish s _ _ _ _)
  all_goals simp at h

theorem analyzeStep_leads {s t : State} (hp : s.eng.phase ≠ .idle) (h : analyzeStep s = .ok t) :
    GoesOn (phasesOf .analyze) s t ∨ HasEnded t := by
  unfold analyzeStep at h
  cases h' : s.eng.phase <;> rw [h'] at h <;> simp only at h
  case idle => exact absurd h' hp
  case check =>
    simp at h; subst h
    unfold checkAnalyze
    split
    · exact .inr (HasEnded.raise s _ _ _)
    · split
      · exact .inl ⟨rfl, by simp [phasesOf]⟩
      · exact .inl ⟨rfl, by simp [phasesOf, Engine.startCount]⟩
  case count => exact .inl (countStep_leads (by simp [h', phasesOf]) (by simp [phasesOf]) h)
  case tree => exact treeStep_leads (by simp [h', phasesOf]) (by simp [phasesOf]) h
  case codes => simp [codesStep] at h; subst h; exact .inl ⟨rfl, by simp [phasesOf]⟩
  case plan => simp at h; subst h; exact .inl ⟨rfl, by simp [planAnalyze, phasesOf]⟩
  case finish => simp at h; subst h; exact .inr (HasEnded.finish s _ _ _ _)
  all_goals simp at h

/-- One engine step of any command: the registers stay and the phase stays in the command's sequence, or the command
has ended (spec/46_codec_commands.md R113, R116, R120, R125). -/
theorem stepOf_leads {i : Instr} {s t : State} (hp : s.eng.phase ≠ .idle) (h : stepOf i s = .ok t) :
    GoesOn (phasesOf i) s t ∨ HasEnded t := by
  cases i
  · exact nopStep_leads hp h
  · exact compressStep_leads hp h
  · exact decompressStep_leads hp h
  · exact analyzeStep_leads hp h

theorem illegalStep_idle {s t : State} (hp : s.eng.phase = .idle) (h : illegalStep s = .ok t) : t = s := by
  simp [illegalStep, hp] at h; exact h.symm

/-- An idle engine's step does nothing. -/
theorem stepOf_idle {i : Instr} {s t : State} (hp : s.eng.phase = .idle) (h : stepOf i s = .ok t) : t = s := by
  cases i <;> simp [stepOf, nopStep, compressStep, decompressStep, analyzeStep, hp] at h <;> exact h.symm

end Sys2Proof.Machine
end

