-- ==== Sys2Proof/Laws/Turns.lean ====
section
/-! SUPPORT. What one step of the machine is, and what a host step can do. -/

namespace Sys2Proof.Machine

open Sys2Proof

/-! ## The host's step -/

/-- How a host step leaves the core: with nothing but `CTRL.IRQ_EN` changed, or, while `BUSY = 0`, with a command
issued, or with other registers written and the engine unchanged (spec/40_host_access.md R68 to R72). -/
inductive CoreEffect (s t : State) : Prop where
  | kept (b : Bool) (hr : t.regs = { s.regs with irqEn := b }) (he : t.eng = s.eng)
  | issued (w : Word) (hb : s.regs.busy = false) (hr : t.regs = (s.issue w).regs)
      (he : t.eng = { s.eng with phase := .check })
  | wrote (hb : s.regs.busy = false) (hr : t.regs.busy = false) (he : t.eng = s.eng)

/-- What a host step can do. -/
structure HostEffect (s t : State) : Prop where
  cfg : t.cfg = s.cfg
  mem : memWf s.mem = true → memWf t.mem = true
  core : CoreEffect s t

/-- A step that leaves the core alone. -/
theorem HostEffect.same {s t : State} (hc : t.cfg = s.cfg) (hr : t.regs = s.regs) (he : t.eng = s.eng)
    (hm : memWf s.mem = true → memWf t.mem = true) : HostEffect s t := ⟨hc, hm, .kept s.regs.irqEn hr he⟩

/-- A read of a register leaves the core alone. -/
theorem hostRead_effect (o : Nat) (s : State) (ops : List HostOp) : HostEffect s (hostRead o (s.setHost ops)) := by
  simp only [hostRead, State.afterRead]
  split_ifs <;> exact HostEffect.same rfl rfl rfl id

theorem hostWrite_effect (o : Nat) (v : Word) (s : State) (ops : List HostOp) :
    HostEffect s (hostWrite o v (s.setHost ops)) := by
  unfold hostWrite
  split
  · exact ⟨rfl, id, .kept _ rfl rfl⟩
  · split
    · exact HostEffect.same rfl rfl rfl id
    · rename_i hb
      have hb : s.regs.busy = false := by simpa using hb
      split
      · exact ⟨rfl, id, .issued v hb rfl rfl⟩
      · split
        · unfold State.acknowledge
          split
          · exact ⟨rfl, id, .wrote hb hb rfl⟩
          · exact HostEffect.same rfl rfl rfl id
        · refine ⟨rfl, id, .wrote hb ?_ rfl⟩
          simp only [State.setHost_regs, Regs.writeOperand]
          split <;> exact hb

theorem hostStore_effect {a : Nat} {v : Byte} {s t : State} {ops : List HostOp}
    (h : hostStore a v (s.setHost ops) = .ok t) : HostEffect s t := by
  unfold hostStore at h
  split at h
  · obtain ⟨u, _, h⟩ := Answer.andThen_eq_ok.1 h
    simp only [Answer.ok.injEq] at h; subst h
    exact HostEffect.same rfl rfl rfl (fun hm => memWf_memPut (m := s.mem) hm a v)
  · simp at h

theorem hostLoad_effect {a : Nat} {s t : State} {ops : List HostOp} (h : hostLoad a (s.setHost ops) = .ok t) :
    HostEffect s t := by
  unfold hostLoad at h
  split at h
  · obtain ⟨u, _, h⟩ := Answer.andThen_eq_ok.1 h
    split at h <;> simp only [Answer.ok.injEq] at h <;> subst h <;> exact HostEffect.same rfl rfl rfl id
  · simp at h

/-- Where the host may store, the byte is stored. -/
theorem hostStore_eq_ok {s : State} {a : Nat} (v : Byte) (hm : s.mayStore a = true) (ha : s.hostAccess a = .ok ()) :
    hostStore a v s = .ok { s with mem := memPut s.mem a v } := by
  simp [hostStore, hm, ha, Answer.andThen]

/-- Where the host may load, it gets the byte if it is promised to see it, and else a draw (R48). -/
theorem hostLoad_eq_ok {s : State} {a : Nat} (hm : s.mayLoad a = true) (ha : s.hostAccess a = .ok ()) :
    hostLoad a s = .ok (if s.notSeen a = true then
      ({ s with draws := s.draws + 1 } : State).answerHost ((Config.drawByte s.draws a).setWidth 64)
      else s.answerHost ((s.byteAt a).setWidth 64)) := by
  simp only [hostLoad, hm, if_true, ha, Answer.andThen]
  split <;> rfl

/-- Past the address space the host has nothing to access (R37). -/
theorem State.hostAccess_outside {s : State} {a : Nat} (h : 2 ^ s.cfg.addrW ≤ a) :
    s.hostAccess a = .fault .noSuchAddress := if_pos h

/-- A read of `STATUS` draws nothing; with `DONE = 1` it releases the last command's writes (R48). -/
theorem hostRead_status (s : State) : hostRead 0x018 s =
    (if s.regs.done = true then s.observeDone else s).answerHost s.regs.statusWord := by
  have hv : s.readValue 0x018 = s.regs.statusWord := by
    simp [State.readValue, State.readDraws, State.apertureWord, regAt, allRegs, regOffset, Regs.word]
  simp only [hostRead, hv, State.afterRead, State.readDraws]
  simp

/-- A settled answer is a next state only where the operation answered, or was stuck. -/
theorem settle_eq_next {s t : State} {x : Answer State} (h : settle s x = .next t) : x = .ok t ∨ t = s := by
  cases x <;> simp [settle] at h
  · exact .inl (by rw [h])
  · exact .inr h.symm

theorem hostStep_effect {s t : State} (h : hostStep s = .next t) : HostEffect s t := by
  unfold hostStep at h
  split at h
  · simp only [Host.Outcome.next.injEq] at h; subst h; exact HostEffect.same rfl rfl rfl id
  · split at h
    · simp only [Host.Outcome.next.injEq] at h; subst h; exact hostRead_effect _ _ _
    · simp at h
  · split at h
    · simp only [Host.Outcome.next.injEq] at h; subst h; exact hostWrite_effect _ _ _ _
    · simp at h
  · simp only [Host.Outcome.next.injEq] at h; subst h; exact HostEffect.same rfl rfl rfl id
  · rcases settle_eq_next h with h | rfl
    · exact hostStore_effect h
    · exact HostEffect.same rfl rfl rfl id
  · rcases settle_eq_next h with h | rfl
    · exact hostLoad_effect h
    · exact HostEffect.same rfl rfl rfl id
  · simp only [Host.Outcome.next.injEq] at h; subst h; exact hostRead_effect _ _ _

/-! ## The step -/

/-- Whether the next turn is the engine's. -/
abbrev State.EngineNext (s : State) : Prop := s.sched = [] ∨ s.sched.head? = some .engine

/-- While `BUSY = 1` the engine's turn is the command's (R109, R111). -/
theorem step_of_busy {s : State} (hb : s.regs.busy = true) (hs : s.EngineNext) : step s = engineTurn s := by
  unfold step turn
  rcases hs with h | h
  · simp [h, hb]
  · cases hx : s.sched with
    | nil => simp [hx] at h
    | cons x l => simp [hx] at h; subst h; rfl

theorem engineTurn_of_command {s : State} {i : Instr} (hb : s.regs.busy = true) (hd : decode s.regs.cmd = .ok i) :
    engineTurn s = exec i s := by
  simp [engineTurn, hb, hd]

theorem engineTurn_of_illegal {s : State} {e : DecodeError} (hb : s.regs.busy = true)
    (hd : decode s.regs.cmd = .error e) : engineTurn s = execIllegal s := by
  simp [engineTurn, hb, hd]

theorem State.popTurn_nil {s : State} (h : s.sched = []) : s.popTurn = s := by
  cases s; simp only [State.popTurn] at *; simp [h]

/-- Whose step it was. -/
theorem step_cases {s t : State} (h : step s = .next t) :
    (∃ i, s.regs.busy = true ∧ s.EngineNext ∧ decode s.regs.cmd = .ok i ∧ exec i s = .next t) ∨
    (∃ e, s.regs.busy = true ∧ s.EngineNext ∧ decode s.regs.cmd = .error e ∧ execIllegal s = .next t) ∨
    (s.regs.busy = false ∧ t = s.popTurn) ∨
    hostStep s.popTurn = .next t ∨
    t = s.popTurn.assertReset := by
  have engine : s.EngineNext → engineTurn s = .next t →
      (∃ i, s.regs.busy = true ∧ s.EngineNext ∧ decode s.regs.cmd = .ok i ∧ exec i s = .next t) ∨
      (∃ e, s.regs.busy = true ∧ s.EngineNext ∧ decode s.regs.cmd = .error e ∧ execIllegal s = .next t) ∨
      (s.regs.busy = false ∧ t = s.popTurn) := by
    intro hs h
    cases hb : s.regs.busy with
    | false => simp [engineTurn, hb] at h; exact .inr (.inr ⟨rfl, h.symm⟩)
    | true =>
      cases hd : decode s.regs.cmd with
      | ok i => rw [engineTurn_of_command hb hd] at h; exact .inl ⟨i, rfl, hs, rfl, h⟩
      | error e => rw [engineTurn_of_illegal hb hd] at h; exact .inr (.inl ⟨e, rfl, hs, rfl, h⟩)
  have back : ∀ {a b c d e : Prop}, a ∨ b ∨ c → a ∨ b ∨ c ∨ d ∨ e := by
    rintro a b c d e (h | h | h)
    · exact .inl h
    · exact .inr (.inl h)
    · exact .inr (.inr (.inl h))
  unfold step turn at h
  split at h
  · rename_i hs; exact back (engine (.inr (by simp [hs])) h)
  · exact .inr (.inr (.inr (.inl h)))
  · simp only [Host.Outcome.next.injEq] at h; exact .inr (.inr (.inr (.inr h.symm)))
  · rename_i hs
    split at h
    · exact back (engine (.inl hs) h)
    · exact .inr (.inr (.inr (.inl (by rw [State.popTurn_nil hs]; exact h))))

theorem State.assertReset_cfg (s : State) : s.assertReset.cfg = s.cfg := by
  unfold State.assertReset
  simp only
  split <;> rfl

theorem State.assertReset_memWf {s : State} (h : memWf s.mem = true) : memWf s.assertReset.mem = true := by
  unfold State.assertReset
  simp only
  split
  · exact memWf_memDraw h _ _ _
  · exact h

end Sys2Proof.Machine
end

