-- ==== Sys2Proof/Laws/Stages.lean ====
section
/-! SUPPORT. The COUNT and TREE phases run to their ends: what they leave is what the stage's function says. -/

namespace Sys2Proof.Machine

open Sys2Proof

/-! ## Reaching a state -/

/-- At most `b` engine steps lead from `s` to `t`. -/
def Reaches (f : State → Answer State) (b : Nat) (s t : State) : Prop := ∃ k, k ≤ b ∧ Runs f k s t

variable {f : State → Answer State}

theorem Reaches.refl (b : Nat) (s : State) : Reaches f b s s := ⟨0, Nat.zero_le _, Runs.refl s⟩

theorem Reaches.step {s t : State} (hp : s.eng.phase ≠ .idle) (h : f s = .ok t) : Reaches f 1 s t :=
  ⟨1, Nat.le_refl _, Runs.one hp h⟩

theorem Reaches.trans {b c d : Nat} {s t u : State} (h : Reaches f b s t) (h' : Reaches f c t u) (hd : b + c ≤ d) :
    Reaches f d s u := by
  obtain ⟨j, hj, hr⟩ := h
  obtain ⟨k, hk, hr'⟩ := h'
  exact ⟨j + k, by omega, hr.trans hr'⟩

theorem Reaches.cons {b d : Nat} {s t u : State} (hp : s.eng.phase ≠ .idle) (h : f s = .ok t) (h' : Reaches f b t u)
    (hd : b + 1 ≤ d) : Reaches f d s u := (Reaches.step hp h).trans h' (by omega)

theorem Reaches.mono {b c : Nat} {s t : State} (h : Reaches f b s t) (hc : b ≤ c) : Reaches f c s t := by
  obtain ⟨k, hk, hr⟩ := h
  exact ⟨k, by omega, hr⟩

/-- States indexed by a loop's counter, each reaching the next. -/
theorem Reaches.loop {c : Nat} (st : Nat → State) : ∀ (n : Nat),
    (∀ j, j < n → Reaches f c (st j) (st (j + 1))) → Reaches f (c * n) (st 0) (st n)
  | 0, _ => Reaches.refl _ _
  | n + 1, h => (Reaches.loop st n (fun j hj => h j (by omega))).trans (h n (by omega)) (by rw [Nat.mul_succ])

/-- A command that reaches its end is what the uncontested turn answers. -/
theorem exec_of_reaches {i : Instr} {b : Nat} {s t : State} (hs : s.sched = []) (h : Reaches (stepOf i) b s t)
    (hb : b ≤ s.allSteps) (ht : t.eng.phase = .idle) : exec i s = .next t := by
  obtain ⟨k, hk, hr⟩ := h
  rw [exec_eq_engineRun]
  exact State.engineRun_of_runs hs (by omega) hr ht

/-! ## The source -/

theorem length_sourceBytes (s : State) : s.sourceBytes.length = s.regs.srcLen.toNat := by simp [State.sourceBytes]

theorem getElem_sourceBytes (s : State) (i : Nat) (h : i < s.sourceBytes.length) :
    s.sourceBytes[i] = s.byteAt (s.srcAddr i) := by
  simp [State.sourceBytes]

/-- An answered read of a source byte. -/
theorem memRead_source {s : State} (h : s.AdmitsSource) {i : Nat} (hi : i < s.regs.srcLen.toNat) :
    s.memRead (s.srcAddr i) = .ok (s.sourceBytes[i]'(by rw [length_sourceBytes]; exact hi)) := by
  rw [State.memRead_eq_ok, getElem_sourceBytes]
  exact ⟨h i hi, rfl⟩

/-! ## COUNT -/

/-- COUNT over the whole source, and into TREE (spec/41_frequency_table.md R74). -/
theorem count_reaches (hf : ∀ u, u.eng.phase = .count → f u = countStep u) {s : State} (hp : s.eng.phase = .count)
    (hfreq : s.eng.freq = zeroFreq) (hi : s.eng.idx = 0) (ha : s.AdmitsSource) :
    Reaches f (s.regs.srcLen.toNat + 1) s
      { s with eng := ({ s.eng with
          freq := countBytes s.sourceBytes
          idx := s.regs.srcLen.toNat
          n := distinct (countBytes s.sourceBytes)
          total := s.regs.srcLen.toNat } : Engine).startTree } := by
  have hl := length_sourceBytes s
  let st : Nat → State := fun j =>
    { s with eng := { s.eng with freq := countBytes (s.sourceBytes.take j), idx := j } }
  have aux : ∀ (a : Table Word) (b : Nat), a = s.eng.freq → b = s.eng.idx →
      ({ s with eng := { s.eng with freq := a, idx := b } } : State) = s := by
    rintro _ _ rfl rfl; rfl
  have h0 : st 0 = s := aux _ _ hfreq.symm hi.symm
  have hloop := Reaches.loop (f := f) (c := 1) st s.regs.srcLen.toNat (fun j hj => by
    refine Reaches.step (by simp [st, hp]) ?_
    rw [hf _ (by simp [st, hp])]
    unfold countStep
    have hr : (st j).memRead ((st j).srcAddr j) = .ok (s.sourceBytes[j]'(by omega)) := memRead_source ha hj
    rw [if_pos (show (st j).eng.idx < (st j).regs.srcLen.toNat from hj)]
    rw [show (st j).eng.idx = j from rfl, hr]
    simp only [Answer.andThen, st, countBytes]
    rw [List.take_add_one, List.getElem?_eq_getElem (by omega), List.foldl_append]
    rfl)
  rw [h0] at hloop
  refine hloop.trans (Reaches.step (by simp [st, hp]) ?_) (by omega)
  rw [hf _ (by simp [st, hp])]
  unfold countStep
  rw [if_neg (show ¬ (st s.regs.srcLen.toNat).eng.idx < (st s.regs.srcLen.toNat).regs.srcLen.toNat from by
    simp [st])]
  simp only [st, List.take_of_length_le (Nat.le_of_eq hl)]

/-! ## TREE -/

/-- The merges the engine makes are those of the function, and then the root is set (R80). -/
theorem merges_reach (hf : ∀ u, u.eng.phase = .tree → f u = treeStep u) :
    ∀ (k : Nat) (s : State), s.eng.phase = .tree → 2 ≤ s.eng.n → s.eng.queue.length ≤ k + 1 → 1 ≤ s.eng.queue.length →
    ∃ q seq, Reaches f (k + 1) s
      { s with eng := ({ s.eng with
          nodes := (mergeAll k s.eng.nodes s.eng.queue s.eng.seq).1
          queue := q
          seq := seq } : Engine).setRoot ((mergeAll k s.eng.nodes s.eng.queue s.eng.seq).2.headD 0) } := by
  intro k
  induction k with
  | zero =>
    intro s hp hn hk h1
    obtain ⟨x, hx⟩ := List.length_eq_one_iff.1 (show s.eng.queue.length = 1 by omega)
    refine ⟨s.eng.queue, s.eng.seq, Reaches.step (by simp [hp]) ?_⟩
    rw [hf s hp]
    unfold treeStep
    have e1 : minKey s.eng.nodes s.eng.queue = some x := by rw [hx]; rfl
    have e2 : minKey s.eng.nodes (s.eng.queue.erase x) = none := by rw [hx]; simp [minKey]
    have e3 : s.eng.queue.headD 0 = x := by rw [hx]; rfl
    rw [if_neg (by omega), if_neg (by omega), e1]
    simp only [e2, mergeAll, e3]
  | succ k ih =>
    intro s hp hn hk h1
    cases ha : minKey s.eng.nodes s.eng.queue with
    | none => rw [minKey_eq_none] at ha; simp [ha] at h1
    | some a =>
      have ham := minKey_mem ha
      have hea := List.length_erase_of_mem ham
      cases hb : minKey s.eng.nodes (s.eng.queue.erase a) with
      | none =>
        have hq := minKey_eq_none.1 hb
        simp only [hq, List.length_nil] at hea
        obtain ⟨x, hx⟩ := List.length_eq_one_iff.1 (show s.eng.queue.length = 1 by omega)
        have hxa : a = x := by rw [hx] at ham; simpa using ham
        subst hxa
        refine ⟨s.eng.queue, s.eng.seq, (Reaches.step (by simp [hp]) ?_).mono (by omega)⟩
        rw [hf s hp]
        unfold treeStep mergeAll
        rw [if_neg (by omega), if_neg (by omega), ha]
        have e3 : s.eng.queue.headD 0 = a := by rw [hx]; rfl
        simp only [hb, e3]
      | some b =>
        have hbm := minKey_mem hb
        have heb := List.length_erase_of_mem hbm
        have hpos := List.length_pos_of_mem hbm
        have hstep : f s = .ok { s with eng := s.eng.merge a b } := by
          rw [hf s hp]
          unfold treeStep
          rw [if_neg (by omega), if_neg (by omega), ha]
          simp only [hb]
        obtain ⟨q, seq, hr⟩ := ih { s with eng := s.eng.merge a b } hp hn
          (by simp only [Engine.merge, List.length_append, List.length_singleton]; omega)
          (by simp only [Engine.merge, List.length_append, List.length_singleton]; omega)
        refine ⟨q, seq, Reaches.cons (by simp [hp]) hstep ?_ (Nat.le_refl _)⟩
        have hm : mergeAll (k + 1) s.eng.nodes s.eng.queue s.eng.seq =
            mergeAll k (s.eng.merge a b).nodes (s.eng.merge a b).queue (s.eng.merge a b).seq := by
          rw [mergeAll, ha]
          simp only [hb]
          rfl
        rw [hm]
        exact hr

/-- TREE runs to the tree of the table, and into CODES (R80, R82). -/
theorem tree_reaches (hf : ∀ u, u.eng.phase = .tree → f u = treeStep u) {s : State} (hp : s.eng.phase = .tree)
    (hn : s.eng.n = distinct s.eng.freq) (h1 : 1 ≤ s.eng.n) (hnodes : s.eng.nodes = leaves s.eng.freq)
    (hq : s.eng.queue = List.range s.eng.n) (hs : s.eng.seq = 0) :
    ∃ q seq, Reaches f 257 s
      { s with eng := ({ s.eng with
          nodes := (buildTree s.eng.freq).1
          queue := q
          seq := seq } : Engine).setRoot (buildTree s.eng.freq).2 } := by
  have hle := distinct_le s.eng.freq
  by_cases h2 : 2 ≤ s.eng.n
  · obtain ⟨q, seq, hr⟩ := merges_reach hf s.eng.n s hp h2 (by simp [hq]) (by simpa [hq] using h1)
    refine ⟨q, seq, ?_⟩
    have : mergeAll s.eng.n s.eng.nodes s.eng.queue s.eng.seq =
        mergeAll (distinct s.eng.freq) (leaves s.eng.freq) (List.range (distinct s.eng.freq)) 0 := by
      rw [hnodes, hq, hs, hn]
    rw [this] at hr
    exact hr.mono (by omega)
  · have hd : distinct s.eng.freq = 1 := by omega
    refine ⟨s.eng.queue, s.eng.seq, (Reaches.step (by simp [hp]) ?_).mono (by omega)⟩
    have hb : buildTree s.eng.freq = (leaves s.eng.freq, 0) := by
      simp [buildTree, hd, mergeAll, minKey, minFrom]
    rw [hf s hp, hb]
    unfold treeStep
    rw [if_neg (by omega), if_pos (by omega), ← hnodes]

end Sys2Proof.Machine
end

