-- ==== Sys2Proof/Laws/Encode.lean ====
section
/-! SUPPORT. The WRITE_HDR and ENCODE phases run to their ends: the bytes they leave are the header and the packed
stream. -/

namespace Sys2Proof.Machine

open Sys2Proof

/-! ## Bytes written one after the other -/

/-- Memory with `bytes` from address `a` on. -/
def memPutAll : List Host.Cell → Nat → List Byte → List Host.Cell
  | m, _, [] => m
  | m, a, b :: bs => memPutAll (memPut m a b) (a + 1) bs

theorem memPutAll_append : ∀ (bs cs : List Byte) (m : List Host.Cell) (a : Nat),
    memPutAll m a (bs ++ cs) = memPutAll (memPutAll m a bs) (a + bs.length) cs
  | [], cs, m, a => by simp [memPutAll]
  | b :: bs, cs, m, a => by
    simp only [List.cons_append, memPutAll, List.length_cons]
    rw [memPutAll_append bs cs (memPut m a b) (a + 1)]
    congr 1
    omega

theorem memPutAll_concat (bs : List Byte) (b : Byte) (m : List Host.Cell) (a : Nat) :
    memPutAll m a (bs ++ [b]) = memPut (memPutAll m a bs) (a + bs.length) b := by
  rw [memPutAll_append]; rfl

theorem memFind_memPutAll_outside : ∀ (bs : List Byte) (m : List Host.Cell) (a x : Nat),
    (x < a ∨ a + bs.length ≤ x) → memFind (memPutAll m a bs) x = memFind m x
  | [], _, _, _, _ => rfl
  | b :: bs, m, a, x, h => by
    rw [List.length_cons] at h
    rw [memPutAll, memFind_memPutAll_outside bs _ _ _ (by omega), memFind_memPut_of_ne _ _ (by omega)]

theorem memFind_memPutAll : ∀ (bs : List Byte) (m : List Host.Cell) (a j : Nat) (h : j < bs.length),
    memFind (memPutAll m a bs) (a + j) = some bs[j]
  | [], _, _, _, h => by simp at h
  | b :: bs, m, a, 0, h => by
    rw [memPutAll, memFind_memPutAll_outside bs _ _ _ (by omega)]
    simp
  | b :: bs, m, a, j + 1, h => by
    have := memFind_memPutAll bs (memPut m a b) (a + 1) j (by simpa using h)
    rw [memPutAll, show a + (j + 1) = a + 1 + j by omega, this]
    simp

/-- Two states whose memories agree at `a` read the same byte there. -/
theorem byteAt_memPutAll_outside {s : State} {a x : Nat} {bs : List Byte} (h : x < a ∨ a + bs.length ≤ x) (t : State)
    (ht : t.mem = memPutAll s.mem a bs) : t.byteAt x = s.byteAt x := by
  simp only [State.byteAt, ht, memFind_memPutAll_outside bs _ _ _ h]

theorem memWrite_dest {s : State} {len o : Nat} (h : s.AdmitsDest len) (ho : o < len) (t : State) (hc : t.cfg = s.cfg)
    (hb : t.regs.dstBase = s.regs.dstBase) (v : Byte) :
    t.memWrite (t.dstAddr o) v = .ok { t with mem := memPut t.mem (s.dstAddr o) v } := by
  rw [State.memWrite_eq_ok]
  have e : t.dstAddr o = s.dstAddr o := by simp [State.dstAddr, hb]
  exact ⟨by rw [State.access_congr hc, e]; exact h o ho, by rw [e]⟩

variable {f : State → Answer State}

/-! ## WRITE_HDR -/

/-- WRITE_HDR writes the header from the first destination byte on (R103). -/
theorem header_reaches (hf : ∀ u, u.eng.phase = .writeHdr → f u = writeHdrStep u) {s : State}
    (hp : s.eng.phase = .writeHdr) (ho : s.eng.out = 0)
    (ha : s.AdmitsDest (headerLen (distinct s.eng.freq))) :
    Reaches f (headerLen (distinct s.eng.freq)) s
      { s with
        mem := memPutAll s.mem (s.dstAddr 0) (headerBytes s.eng.freq s.eng.n s.eng.pad s.emptySource)
        eng := { s.eng with out := headerLen (distinct s.eng.freq) } } := by
  have hl := length_headerBytes s.eng.freq s.eng.n s.eng.pad s.emptySource
  generalize hh : headerBytes s.eng.freq s.eng.n s.eng.pad s.emptySource = hdr at hl ⊢
  generalize hn : headerLen (distinct s.eng.freq) = n at hl ha ⊢
  let st : Nat → State := fun j =>
    { s with mem := memPutAll s.mem (s.dstAddr 0) (hdr.take j), eng := { s.eng with out := j } }
  have aux : ∀ b : Nat, b = s.eng.out →
      ({ s with mem := memPutAll s.mem (s.dstAddr 0) (hdr.take 0), eng := { s.eng with out := b } } : State) = s := by
    rintro _ rfl; rfl
  have h0 : st 0 = s := aux _ ho.symm
  have hloop := Reaches.loop (f := f) (c := 1) st n (fun j hj => by
    refine Reaches.step (by simp [st, hp]) ?_
    rw [hf _ (by simp [st, hp])]
    unfold writeHdrStep
    have hb : (headerBytes (st j).eng.freq (st j).eng.n (st j).eng.pad (st j).emptySource)[(st j).eng.out]? =
        some (hdr[j]'(by omega)) := by
      have : headerBytes (st j).eng.freq (st j).eng.n (st j).eng.pad (st j).emptySource = hdr := hh
      rw [this, List.getElem?_eq_getElem (show (st j).eng.out < hdr.length by simp only [st]; omega)]
    rw [hb]
    dsimp only
    have hw := memWrite_dest ha hj (st j) rfl rfl (hdr[j]'(by omega))
    rw [show (st j).eng.out = j from rfl, hw]
    simp only [Answer.andThen, st]
    rw [List.take_add_one, List.getElem?_eq_getElem (by omega), Option.toList_some, memPutAll_concat,
      List.length_take, Nat.min_eq_left (by omega)]
    rfl)
  rw [h0, Nat.one_mul] at hloop
  simp only [st, List.take_of_length_le (Nat.le_of_eq hl)] at hloop
  exact hloop

/-! ## ENCODE -/

/-- One more byte of packed bits. -/
theorem packBytes_succ : ∀ (k : Nat) (bs : Bits),
    packBytes (k + 1) bs = packBytes k bs ++ [byteOfBits ((bs.drop (8 * k)).take 8)]
  | 0, bs => by simp [packBytes]
  | k + 1, bs => by
    rw [packBytes, packBytes_succ k (bs.drop 8), packBytes, List.drop_drop]
    simp only [List.cons_append, List.cons.injEq, true_and]
    congr 5
    omega

/-- Bits behind the last whole byte do not matter. -/
theorem packBytes_append : ∀ (k : Nat) (bs cs : Bits), 8 * k ≤ bs.length → packBytes k (bs ++ cs) = packBytes k bs
  | 0, _, _, _ => rfl
  | k + 1, bs, cs, h => by
    rw [packBytes, packBytes, List.take_append_of_le_length (by omega), List.drop_append_of_le_length (by omega),
      packBytes_append k _ _ (by rw [List.length_drop]; omega)]

/-- ENCODE after the bits `d` are packed, with the bits `pend` of the code in hand to come. -/
def encodeState (s : State) (d pend : Bits) (i e : Nat) : State :=
  { s with
    mem := memPutAll s.mem (s.dstAddr (headerLen s.eng.n)) (packBytes (d.length / 8) d)
    eng := { s.eng with
      shift := BitVec.ofNat 8 (bitsToNat (d.drop (8 * (d.length / 8))))
      nb := d.length % 8
      out := headerLen s.eng.n + d.length / 8
      pending := pend
      idx := i
      packed := e } }

/-- The bits of an unfinished byte, with one more, are at most eight. -/
theorem bitsToNat_shift (d : Bits) (x : Bool) :
    BitVec.ofNat 8 (2 * (BitVec.ofNat 8 (bitsToNat (d.drop (8 * (d.length / 8))))).toNat + x.toNat) =
      BitVec.ofNat 8 (bitsToNat (d.drop (8 * (d.length / 8)) ++ [x])) := by
  have hlt := bitsToNat_lt (d.drop (8 * (d.length / 8)))
  have hpow : 2 ^ (d.drop (8 * (d.length / 8))).length ≤ 2 ^ 7 :=
    Nat.pow_le_pow_right (by omega) (by rw [List.length_drop]; omega)
  rw [bitsToNat_append, bitsToNat_singleton, List.length_singleton, BitVec.toNat_ofNat, Nat.mod_eq_of_lt (by omega)]
  congr 1
  omega

/-- One bit of the code in hand (spec/44_bit_packer.md R97). -/
theorem encode_bit (s : State) (d : Bits) (x : Bool) (pend : Bits) (i e len : Nat)
    (ha : s.AdmitsDest len) (hlen : headerLen s.eng.n + (d.length + 1) / 8 ≤ len) :
    encodeStep (encodeState s d (x :: pend) i e) = .ok (encodeState s (d ++ [x]) pend i e) := by
  unfold encodeStep
  rw [show (encodeState s d (x :: pend) i e).eng.pending = x :: pend from rfl]
  dsimp only
  by_cases h8 : d.length % 8 + 1 = 8
  · have hk : (d.length + 1) / 8 = d.length / 8 + 1 := by omega
    have hm : (d.length + 1) % 8 = 0 := by omega
    let u : State := { encodeState s d (x :: pend) i e with
      eng := { (encodeState s d (x :: pend) i e).eng with pending := pend } }
    have e1 : packBit x u = (u.memWrite (u.dstAddr u.eng.out) (u.eng.shiftIn x).shift).andThen fun t =>
        .ok { t with eng := (u.eng.shiftIn x).byteDone } := if_pos h8
    rw [show packBit x u = _ from e1]
    have hw := memWrite_dest (o := headerLen s.eng.n + d.length / 8) ha (by omega) u rfl rfl (u.eng.shiftIn x).shift
    rw [show u.eng.out = headerLen s.eng.n + d.length / 8 from rfl, hw]
    simp only [Answer.andThen]
    have hbyte : (u.eng.shiftIn x).shift = byteOfBits (((d ++ [x]).drop (8 * (d.length / 8))).take 8) := by
      simp only [u, encodeState, Engine.shiftIn, byteOfBits]
      rw [bitsToNat_shift, List.drop_append_of_le_length (by omega), List.take_of_length_le (by
        rw [List.length_append, List.length_drop, List.length_singleton]; omega)]
    have hmem : memPut u.mem (s.dstAddr (headerLen s.eng.n + d.length / 8)) (u.eng.shiftIn x).shift =
        memPutAll s.mem (s.dstAddr (headerLen s.eng.n)) (packBytes ((d ++ [x]).length / 8) (d ++ [x])) := by
      rw [List.length_append, List.length_singleton, hk, packBytes_succ, packBytes_append _ _ _ (by omega),
        memPutAll_concat, length_packBytes, hbyte]
      simp only [u, encodeState, State.dstAddr, Nat.add_assoc]
    rw [hmem]
    simp only [u, encodeState, Engine.shiftIn, Engine.byteDone, List.length_append, List.length_singleton, hk, hm]
    rw [List.drop_of_length_le (by rw [List.length_append, List.length_singleton]; omega)]
    rfl
  · have hk : (d.length + 1) / 8 = d.length / 8 := by omega
    have hm : (d.length + 1) % 8 = d.length % 8 + 1 := by omega
    let u : State := { encodeState s d (x :: pend) i e with
      eng := { (encodeState s d (x :: pend) i e).eng with pending := pend } }
    have e1 : packBit x u = .ok { u with eng := u.eng.shiftIn x } := if_neg h8
    rw [show packBit x u = _ from e1]
    simp only [u, encodeState, Engine.shiftIn, List.length_append, List.length_singleton, hk, hm]
    rw [bitsToNat_shift, packBytes_append _ _ _ (by omega), List.drop_append_of_le_length (by omega)]

/-- The whole code in hand. -/
theorem encode_code (hf : ∀ u, u.eng.phase = .encode → f u = encodeStep u) (s : State) (hp : s.eng.phase = .encode)
    (i e len : Nat) (ha : s.AdmitsDest len) : ∀ (c d : Bits), headerLen s.eng.n + (d.length + c.length) / 8 ≤ len →
    Reaches f c.length (encodeState s d c i e) (encodeState s (d ++ c) [] i e)
  | [], d, _ => by simpa using Reaches.refl 0 _
  | x :: c, d, h => by
    rw [List.length_cons] at h
    have h1 := encode_bit s d x c i e len ha (by omega)
    have h2 := encode_code hf s hp i e len ha c (d ++ [x]) (by
      rw [List.length_append, List.length_singleton]
      have : d.length + 1 + c.length = d.length + (c.length + 1) := by omega
      rw [this]; exact h)
    rw [List.append_assoc] at h2
    exact Reaches.cons (by simp [encodeState, hp]) (by rw [hf _ (by simp [encodeState, hp])]; exact h1) h2
      (Nat.le_refl _)

/-- The source and the destination share no address (spec/46_codec_commands.md R110). -/
theorem State.srcAddr_ne_dstAddr {s : State} (h : s.checkBoth = none) {i o : Nat} (hi : i < s.regs.srcLen.toNat)
    (ho : o < s.regs.dstCap.toNat) : s.srcAddr i ≠ s.dstAddr o := by
  unfold State.checkBoth at h
  split at h
  · simp at h
  · unfold State.checkDst at h
    split at h
    · simp at h
    · split at h
      · simp at h
      · rename_i hov
        intro he
        apply hov
        simp only [Span.overlaps, Bool.and_eq_true, decide_eq_true_eq]
        simp only [State.srcAddr, State.dstAddr] at he
        simp only [Regs.source, Regs.dest]
        omega

/-- A source byte read while destination bytes have been written. -/
theorem memRead_source_of {s t : State} (ha : s.AdmitsSource) (hb : s.checkBoth = none) {a : Nat} {bs : List Byte}
    (hm : t.mem = memPutAll s.mem (s.dstAddr a) bs) (hc : t.cfg = s.cfg) (hs : t.regs.srcBase = s.regs.srcBase)
    (hl : a + bs.length ≤ s.regs.dstCap.toNat) {i : Nat} (hi : i < s.regs.srcLen.toNat) :
    t.memRead (t.srcAddr i) = .ok (s.sourceBytes[i]'(by rw [length_sourceBytes]; exact hi)) := by
  have e : t.srcAddr i = s.srcAddr i := by simp [State.srcAddr, hs]
  rw [State.memRead_eq_ok, getElem_sourceBytes, e]
  refine ⟨by rw [State.access_congr hc]; exact ha i hi, (byteAt_memPutAll_outside ?_ t hm).symm⟩
  by_contra hn
  have hd : s.srcAddr i = s.dstAddr (s.srcAddr i - s.regs.dstBase.toNat) := by
    simp only [State.dstAddr] at hn ⊢; omega
  refine State.srcAddr_ne_dstAddr hb hi (o := s.srcAddr i - s.regs.dstBase.toNat) ?_ hd
  simp only [State.dstAddr] at hn; omega

/-- The encoding pass over the whole source (spec/46_codec_commands.md R118). -/
theorem encode_loop (hf : ∀ u, u.eng.phase = .encode → f u = encodeStep u) (s : State) (hp : s.eng.phase = .encode)
    (len : Nat) (ha : s.AdmitsDest len) (hsrc : s.AdmitsSource) (hb : s.checkBoth = none)
    (hlen : headerLen s.eng.n + s.eng.bits / 8 ≤ len) (hcap : len ≤ s.regs.dstCap.toNat)
    (hcode : ∀ b ∈ s.sourceBytes, tableGet s.eng.codes b ≠ [])
    (hbits : (s.sourceBytes.flatMap (tableGet s.eng.codes)).length = s.eng.bits) :
    ∀ (rest done : List Byte), s.sourceBytes = done ++ rest →
      Reaches f (rest.length + (rest.flatMap (tableGet s.eng.codes)).length)
        (encodeState s (done.flatMap (tableGet s.eng.codes)) [] done.length
          (done.flatMap (tableGet s.eng.codes)).length)
        (encodeState s (s.sourceBytes.flatMap (tableGet s.eng.codes)) [] s.sourceBytes.length s.eng.bits)
  | [], done, h => by
    rw [List.append_nil] at h
    rw [← hbits, ← h]
    exact Reaches.refl _ _
  | b :: rest, done, h => by
    have hl := length_sourceBytes s
    have hlt : done.length < s.sourceBytes.length := by rw [h]; simp
    have hget : s.sourceBytes[done.length] = b := by simp [h]
    have htot : (done.flatMap (tableGet s.eng.codes)).length + (tableGet s.eng.codes b).length +
        (rest.flatMap (tableGet s.eng.codes)).length = s.eng.bits := by
      rw [← hbits, h]; simp; omega
    have hne : tableGet s.eng.codes b ≠ [] := hcode b (by rw [h]; simp)
    have ih := encode_loop hf s hp len ha hsrc hb hlen hcap hcode hbits rest (done ++ [b]) (by rw [h]; simp)
    have hc := encode_code hf s hp (done.length + 1)
      ((done.flatMap (tableGet s.eng.codes)).length + (tableGet s.eng.codes b).length) len ha (tableGet s.eng.codes b)
      (done.flatMap (tableGet s.eng.codes)) (by omega)
    have hstep : encodeStep (encodeState s (done.flatMap (tableGet s.eng.codes)) [] done.length
        (done.flatMap (tableGet s.eng.codes)).length) =
        .ok (encodeState s (done.flatMap (tableGet s.eng.codes)) (tableGet s.eng.codes b) (done.length + 1)
          ((done.flatMap (tableGet s.eng.codes)).length + (tableGet s.eng.codes b).length)) := by
      generalize hd : done.flatMap (tableGet s.eng.codes) = d at *
      have hr := memRead_source_of (t := encodeState s d [] done.length d.length) hsrc hb rfl rfl rfl
        (by rw [length_packBytes]; omega) (i := done.length) (by omega)
      rw [hget] at hr
      unfold encodeStep
      rw [show (encodeState s d [] done.length d.length).eng.pending = [] from rfl]
      dsimp only
      rw [if_pos (show (encodeState s d [] done.length d.length).eng.idx <
        (encodeState s d [] done.length d.length).regs.srcLen.toNat from by simp only [encodeState]; omega)]
      rw [show (encodeState s d [] done.length d.length).eng.idx = done.length from rfl, hr]
      simp only [Answer.andThen]
      unfold encodeByte
      dsimp only
      rw [if_neg (show ¬ codeLen (encodeState s d [] done.length d.length).eng.codes b = 0 from fun h0 =>
        hne (List.length_eq_zero_iff.1 h0))]
      rw [if_neg (show ¬ (encodeState s d [] done.length d.length).eng.bits <
        (encodeState s d [] done.length d.length).eng.packed +
          codeLen (encodeState s d [] done.length d.length).eng.codes b from by
        simp only [encodeState, codeLen]; omega)]
      rfl
    refine Reaches.cons (by simp [encodeState, hp]) (by rw [hf _ (by simp [encodeState, hp])]; exact hstep) ?_
      (b := (tableGet s.eng.codes b).length + (rest.length + (rest.flatMap (tableGet s.eng.codes)).length))
      (by rw [List.length_cons, List.flatMap_cons, List.length_append]; omega)
    refine hc.trans ?_ (Nat.le_refl _)
    simp only [List.flatMap_append, List.flatMap_cons, List.flatMap_nil, List.append_nil, List.length_append,
      List.length_singleton] at ih
    exact ih

/-- The stream's last byte (spec/44_bit_packer.md R97). -/
theorem encode_end (s : State) (d : Bits) (len : Nat) (ha : s.AdmitsDest len)
    (hlen : headerLen s.eng.n + (d.length + padOf d.length) / 8 ≤ len) (hbits : s.eng.bits = d.length) :
    ∃ out, encodeStep (encodeState s d [] s.regs.srcLen.toNat s.eng.bits) =
      .ok { (encodeState s d [] s.regs.srcLen.toNat s.eng.bits) with
        mem := memPutAll s.mem (s.dstAddr (headerLen s.eng.n)) (pack d).1
        eng := { (encodeState s d [] s.regs.srcLen.toNat s.eng.bits).eng with out := out, phase := .finish } } := by
  unfold encodeStep
  rw [show (encodeState s d [] s.regs.srcLen.toNat s.eng.bits).eng.pending = [] from rfl]
  dsimp only
  rw [if_neg (show ¬ (encodeState s d [] s.regs.srcLen.toNat s.eng.bits).eng.idx <
    (encodeState s d [] s.regs.srcLen.toNat s.eng.bits).regs.srcLen.toNat from by simp [encodeState])]
  rw [if_neg (show ¬ (encodeState s d [] s.regs.srcLen.toNat s.eng.bits).eng.packed ≠
    (encodeState s d [] s.regs.srcLen.toNat s.eng.bits).eng.bits from by simp [encodeState])]
  unfold packFinish
  by_cases h0 : d.length % 8 = 0
  · have hpad : padOf d.length = 0 := by simp [padOf, h0]
    rw [if_neg (show ¬ 0 < (encodeState s d [] s.regs.srcLen.toNat s.eng.bits).eng.nb from by
      simp [encodeState, h0])]
    refine ⟨headerLen s.eng.n + d.length / 8, ?_⟩
    have : (pack d).1 = packBytes (d.length / 8) d := by simp [pack, hpad]
    rw [this]
    rfl
  · have hpad : padOf d.length = 8 - d.length % 8 := by unfold padOf; omega
    have hk : (d.length + padOf d.length) / 8 = d.length / 8 + 1 := by omega
    rw [if_pos (show 0 < (encodeState s d [] s.regs.srcLen.toNat s.eng.bits).eng.nb from by
      simp only [encodeState]; omega)]
    refine ⟨headerLen s.eng.n + d.length / 8 + 1, ?_⟩
    have hw := memWrite_dest (o := headerLen s.eng.n + d.length / 8) ha (by omega)
      (encodeState s d [] s.regs.srcLen.toNat s.eng.bits) rfl rfl
      (BitVec.ofNat 8 ((encodeState s d [] s.regs.srcLen.toNat s.eng.bits).eng.shift.toNat *
        2 ^ (8 - (encodeState s d [] s.regs.srcLen.toNat s.eng.bits).eng.nb)))
    rw [show (encodeState s d [] s.regs.srcLen.toNat s.eng.bits).eng.out = headerLen s.eng.n + d.length / 8 from rfl,
      hw]
    simp only [Answer.andThen]
    have hlast : BitVec.ofNat 8 ((encodeState s d [] s.regs.srcLen.toNat s.eng.bits).eng.shift.toNat *
        2 ^ (8 - (encodeState s d [] s.regs.srcLen.toNat s.eng.bits).eng.nb)) =
        byteOfBits (((d ++ List.replicate (padOf d.length) false).drop (8 * (d.length / 8))).take 8) := by
      have hlt := bitsToNat_lt (d.drop (8 * (d.length / 8)))
      have hpow : 2 ^ (d.drop (8 * (d.length / 8))).length ≤ 2 ^ 7 :=
        Nat.pow_le_pow_right (by omega) (by rw [List.length_drop]; omega)
      have hz : ∀ k, bitsToNat (List.replicate k false) = 0 := by
        intro k
        induction k with
        | zero => rfl
        | succ k ih => rw [List.replicate_succ', bitsToNat_append, ih]; rfl
      rw [List.drop_append_of_le_length (by omega), List.take_of_length_le (by
        rw [List.length_append, List.length_drop, List.length_replicate]; omega), byteOfBits, bitsToNat_append, hz,
        List.length_replicate, hpad, Nat.add_zero]
      simp only [encodeState]
      rw [BitVec.toNat_ofNat, Nat.mod_eq_of_lt (by omega)]
    have hmem : memPut (encodeState s d [] s.regs.srcLen.toNat s.eng.bits).mem
        (s.dstAddr (headerLen s.eng.n + d.length / 8))
        (BitVec.ofNat 8 ((encodeState s d [] s.regs.srcLen.toNat s.eng.bits).eng.shift.toNat *
          2 ^ (8 - (encodeState s d [] s.regs.srcLen.toNat s.eng.bits).eng.nb))) =
        memPutAll s.mem (s.dstAddr (headerLen s.eng.n)) (pack d).1 := by
      rw [hlast]
      simp only [pack, hk]
      rw [packBytes_succ, memPutAll_concat, packBytes_append _ _ _ (by omega), length_packBytes]
      simp only [encodeState, State.dstAddr, Nat.add_assoc]
    rw [hmem]
    rfl

/-- ENCODE leaves the packed stream behind the header. -/
theorem encode_reaches (hf : ∀ u, u.eng.phase = .encode → f u = encodeStep u) (s : State) (e : Engine)
    (hs : s.eng = e.startEncode) (len : Nat) (ha : s.AdmitsDest len) (hsrc : s.AdmitsSource) (hb : s.checkBoth = none)
    (hlen : headerLen s.eng.n + (s.eng.bits + padOf s.eng.bits) / 8 ≤ len) (hcap : len ≤ s.regs.dstCap.toNat)
    (hcode : ∀ b ∈ s.sourceBytes, tableGet s.eng.codes b ≠ [])
    (hbits : (s.sourceBytes.flatMap (tableGet s.eng.codes)).length = s.eng.bits) :
    ∃ e', Reaches f (s.regs.srcLen.toNat + s.eng.bits + 1) s
      { s with
        mem := memPutAll s.mem (s.dstAddr (headerLen s.eng.n))
          (pack (s.sourceBytes.flatMap (tableGet s.eng.codes))).1
        eng := e' } ∧ e'.phase = .finish ∧ e'.n = s.eng.n ∧ e'.payload = s.eng.payload ∧ e'.bits = s.eng.bits ∧
      e'.pad = s.eng.pad ∧ e'.freq = s.eng.freq ∧ e'.codes = s.eng.codes := by
  have hp : s.eng.phase = .encode := by rw [hs]; rfl
  have h0 : encodeState s [] [] 0 0 = s := by
    obtain ⟨⟩ := s
    simp only at hs
    subst hs
    rfl
  have hloop := encode_loop hf s hp len ha hsrc hb (by omega) hcap hcode hbits s.sourceBytes [] rfl
  simp only [List.flatMap_nil, List.length_nil] at hloop
  rw [h0, length_sourceBytes, hbits] at hloop
  obtain ⟨out, he⟩ := encode_end s (s.sourceBytes.flatMap (tableGet s.eng.codes)) len ha (by rw [hbits]; exact hlen)
    hbits.symm
  let last := (encodeState s (s.sourceBytes.flatMap (tableGet s.eng.codes)) [] s.regs.srcLen.toNat s.eng.bits).eng
  refine ⟨{ last with out := out, phase := .finish }, hloop.trans (Reaches.step (by simp [encodeState, hp]) (by
    rw [hf _ (by simp [encodeState, hp]), he]; rfl)) (Nat.le_refl _), rfl, rfl, rfl, rfl, rfl, rfl, rfl⟩

end Sys2Proof.Machine
end

