-- ==== Sys2Proof/Laws/Header.lean ====
section
/-! SUPPORT. The READ_HDR phase runs to its end: what it leaves is what the deserializer's function says (spec/45_container.md
R106). -/

namespace Sys2Proof.Machine

open Sys2Proof

/-- One header byte read by the running DECOMPRESS (R106). -/
theorem readHdr_byte {s : State} (ha : s.AdmitsSource) (h4 : 4 ≤ s.regs.srcLen.toNat) (e : Engine)
    (hp : e.phase = .readHdr) (hi : e.idx < s.sourceBytes.length) :
    stepOf .decompress { s with eng := e } =
      .ok (headerByte e.idx (fromBeStep e.field s.sourceBytes[e.idx]) s.sourceBytes[e.idx]
        { s with eng := { e with idx := e.idx + 1, field := fromBeStep e.field s.sourceBytes[e.idx] } }) := by
  have hl := length_sourceBytes s
  have hr : ({ s with eng := e } : State).memRead (({ s with eng := e } : State).srcAddr e.idx) =
      .ok s.sourceBytes[e.idx] := memRead_source ha (by omega)
  simp only [stepOf, decompressStep, hp, readHdrStep]
  rw [if_neg (by omega), hr]
  rfl

/-- An offset inside a field, before its last byte. -/
def Silent (n o : Nat) : Prop :=
  o < 3 ∨ (o ≠ 3 ∧ o < 4 + 12 * n ∧ (o - 4) % 12 ≠ 3 ∧ (o - 4) % 12 ≠ 11)

theorem headerByte_silent {s : State} {o v : Nat} {b : Byte} (h : Silent s.eng.n o) : headerByte o v b s = s := by
  unfold headerByte
  dsimp only
  rcases h with h | ⟨h1, h2, h3, h4⟩
  · rw [if_pos h]
  · by_cases h0 : o < 3
    · rw [if_pos h0]
    · rw [if_neg h0, if_neg h1, if_pos h2, if_neg h3, if_neg h4]

theorem fieldAt_succ (a : List Byte) (o k : Nat) (h : o + k < a.length) :
    fieldAt a o (k + 1) = fromBeStep (fieldAt a o k) a[o + k] := by
  unfold fieldAt fromBe
  rw [List.take_add_one, List.getElem?_drop, List.getElem?_eq_getElem h, List.foldl_append]
  rfl

@[simp] theorem fieldAt_zero (a : List Byte) (o : Nat) : fieldAt a o 0 = 0 := by simp [fieldAt, fromBe]

/-- The bytes of a field before its last. -/
theorem readHdr_silent {s : State} (ha : s.AdmitsSource) (h4 : 4 ≤ s.regs.srcLen.toNat) (e : Engine)
    (hp : e.phase = .readHdr) (o : Nat) (ho : e.idx = o) (hf : e.field = 0) :
    ∀ k, (∀ j, j < k → Silent e.n (o + j)) → o + k ≤ s.sourceBytes.length →
      Reaches (stepOf .decompress) k { s with eng := e }
        { s with eng := { e with idx := o + k, field := fieldAt s.sourceBytes o k } }
  | 0, _, _ => by
    have aux : ∀ a b : Nat, a = e.idx → b = e.field → ({ e with idx := a, field := b } : Engine) = e := by
      rintro _ _ rfl rfl; rfl
    have e0 := aux (o + 0) (fieldAt s.sourceBytes o 0) ho.symm (by rw [fieldAt_zero, hf])
    rw [e0]
    exact Reaches.refl _ _
  | k + 1, hs, hl => by
    have ih := readHdr_silent ha h4 e hp o ho hf k (fun j hj => hs j (by omega)) (by omega)
    refine ih.trans (Reaches.step (by simp [hp]) ?_) (Nat.le_refl _)
    rw [readHdr_byte ha h4 { e with idx := o + k, field := fieldAt s.sourceBytes o k } hp
      (show o + k < s.sourceBytes.length by omega)]
    rw [headerByte_silent (hs k (by omega))]
    rw [fieldAt_succ _ _ _ (by omega)]
    rfl

/-- A whole field: what its last byte does, with the field's value. -/
theorem readHdr_field {s : State} (ha : s.AdmitsSource) (h4 : 4 ≤ s.regs.srcLen.toNat) (e : Engine)
    (hp : e.phase = .readHdr) (o : Nat) (ho : e.idx = o) (hf : e.field = 0) (k : Nat)
    (hs : ∀ j, j < k → Silent e.n (o + j)) (hl : o + k < s.sourceBytes.length) :
    Reaches (stepOf .decompress) (k + 1) { s with eng := e }
      (headerByte (o + k) (fieldAt s.sourceBytes o (k + 1)) s.sourceBytes[o + k]
        { s with eng := { e with idx := o + k + 1, field := fieldAt s.sourceBytes o (k + 1) } }) := by
  refine (readHdr_silent ha h4 e hp o ho hf k hs (by omega)).trans (Reaches.step (by simp [hp]) ?_) (Nat.le_refl _)
  rw [readHdr_byte ha h4 { e with idx := o + k, field := fieldAt s.sourceBytes o k } hp
      (show o + k < s.sourceBytes.length by omega), fieldAt_succ _ _ _ (by omega)]

/-- READ_HDR between two entries. -/
structure AtEntry (e : Engine) (i n : Nat) (t : Table Word) (total : Nat) (prev : Option Nat) : Prop where
  phase : e.phase = .readHdr
  idx : e.idx = 4 + 12 * i
  field : e.field = 0
  n : e.n = n
  freq : e.freq = t
  total : e.total = total
  prev : e.prev = prev

theorem Silent.of_entry {n i k o : Nat} (hk : i + (k + 1) = n) (h1 : 4 + 12 * i ≤ o) (h2 : o < 4 + 12 * i + 11)
    (h3 : o ≠ 4 + 12 * i + 3) : Silent n o :=
  .inr ⟨by omega, by omega, by omega, by omega⟩

/-- What reading the entries leads to (steps 4 to 7 of R106). -/
theorem entries_reach {s : State} (ha : s.AdmitsSource) (h4 : 4 ≤ s.regs.srcLen.toNat) {n : Nat}
    (hn : headerLen n ≤ s.sourceBytes.length) :
    ∀ (k i : Nat) (t : Table Word) (total : Nat) (prev : Option Nat) (e : Engine), i + k = n →
      AtEntry e i n t total prev →
      match parseEntries s.cfg.maxSrcLen s.sourceBytes k i t total prev with
      | .error o => ∃ e', Reaches (stepOf .decompress) (12 * k) { s with eng := e }
          (({ s with eng := e' } : State).raise .malformedHeader o 0)
      | .ok (t', total') => ∃ e' prev', Reaches (stepOf .decompress) (12 * k) { s with eng := e } { s with eng := e' } ∧
          AtEntry e' n n t' total' prev'
  | 0, i, t, total, prev, e, hk, he => by
    have : i = n := by omega
    subst this
    exact ⟨e, prev, Reaches.refl _ _, he⟩
  | k + 1, i, t, total, prev, e, hk, he => by
    have hH : headerLen n = 6 + 12 * n := rfl
    have r1 := readHdr_field ha h4 e he.phase (4 + 12 * i) he.idx he.field 3
      (fun j hj => Silent.of_entry (by rw [he.n]; exact hk) (by omega) (by omega) (by omega)) (by omega)
    have d1 : headerByte (4 + 12 * i + 3) (fieldAt s.sourceBytes (4 + 12 * i) 4) s.sourceBytes[4 + 12 * i + 3]
        { s with eng := { e with idx := 4 + 12 * i + 3 + 1, field := fieldAt s.sourceBytes (4 + 12 * i) 4 } } =
        afterSymbol i (fieldAt s.sourceBytes (4 + 12 * i) 4)
        { s with eng := { e with idx := 4 + 12 * i + 3 + 1, field := fieldAt s.sourceBytes (4 + 12 * i) 4 } } := by
      unfold headerByte
      dsimp only
      rw [he.n, if_neg (by omega), if_neg (by omega), if_pos (by omega), if_pos (by omega)]
      congr 1; omega
    rw [d1] at r1
    unfold parseEntries
    dsimp only
    by_cases c1 : 255 < fieldAt s.sourceBytes (4 + 12 * i) 4
    · rw [if_pos c1]
      rw [afterSymbol, if_pos c1] at r1
      exact ⟨_, r1.mono (by omega)⟩
    · rw [if_neg c1]
      rw [afterSymbol, if_neg c1] at r1
      dsimp only at r1
      rw [← he.prev]
      by_cases c2 : e.prev.any (fun p => decide (fieldAt s.sourceBytes (4 + 12 * i) 4 ≤ p)) = true
      · rw [if_pos c2]
        rw [if_pos c2] at r1
        exact ⟨_, r1.mono (by omega)⟩
      · rw [if_neg c2]
        rw [if_neg c2] at r1
        generalize he2 : ({ (Engine.nextField { e with
          idx := 4 + 12 * i + 3 + 1, field := fieldAt s.sourceBytes (4 + 12 * i) 4 }) with
          sym := fieldAt s.sourceBytes (4 + 12 * i) 4 } : Engine) = e2 at r1
        have p2 : e2.phase = .readHdr := by subst he2; exact he.phase
        have i2 : e2.idx = 8 + 12 * i := by subst he2; simp only [Engine.nextField]; omega
        have f2 : e2.field = 0 := by subst he2; rfl
        have n2 : e2.n = n := by subst he2; exact he.n
        have fr2 : e2.freq = t := by subst he2; exact he.freq
        have t2 : e2.total = total := by subst he2; exact he.total
        have s2 : e2.sym = fieldAt s.sourceBytes (4 + 12 * i) 4 := by subst he2; rfl
        have r2 := readHdr_field ha h4 e2 p2 (8 + 12 * i) i2 f2 7
          (fun j hj => Silent.of_entry (by rw [n2]; exact hk) (by omega) (by omega) (by omega)) (by omega)
        have d2 : headerByte (8 + 12 * i + 7) (fieldAt s.sourceBytes (8 + 12 * i) 8) s.sourceBytes[8 + 12 * i + 7]
            { s with eng := { e2 with idx := 8 + 12 * i + 7 + 1, field := fieldAt s.sourceBytes (8 + 12 * i) 8 } } =
            afterFreq i (fieldAt s.sourceBytes (8 + 12 * i) 8)
            { s with eng := { e2 with idx := 8 + 12 * i + 7 + 1, field := fieldAt s.sourceBytes (8 + 12 * i) 8 } } := by
          unfold headerByte
          dsimp only
          rw [n2, if_neg (by omega), if_neg (by omega), if_pos (by omega), if_neg (by omega), if_pos (by omega)]
          congr 1; omega
        rw [d2] at r2
        by_cases c3 : fieldAt s.sourceBytes (8 + 12 * i) 8 = 0
        · rw [if_pos c3]
          rw [afterFreq, if_pos c3] at r2
          exact ⟨_, Reaches.trans (d := 12 * (k + 1)) r1 r2 (by omega)⟩
        · rw [if_neg c3]
          rw [afterFreq, if_neg c3] at r2
          dsimp only at r2
          rw [← t2]
          by_cases c4 : s.cfg.maxSrcLen < e2.total + fieldAt s.sourceBytes (8 + 12 * i) 8
          · rw [if_pos c4]
            rw [if_pos c4] at r2
            exact ⟨_, Reaches.trans (d := 12 * (k + 1)) r1 r2 (by omega)⟩
          · rw [if_neg c4]
            rw [if_neg c4] at r2
            generalize he3 : ({ (Engine.nextField { e2 with
              idx := 8 + 12 * i + 7 + 1, field := fieldAt s.sourceBytes (8 + 12 * i) 8 }) with
              total := e2.total + fieldAt s.sourceBytes (8 + 12 * i) 8
              freq := tablePut e2.freq (BitVec.ofNat 8 e2.sym) (BitVec.ofNat 64 (fieldAt s.sourceBytes (8 + 12 * i) 8))
              prev := some e2.sym } : Engine) = e3 at r2
            have h3 : AtEntry e3 (i + 1) n
                (tablePut t (BitVec.ofNat 8 (fieldAt s.sourceBytes (4 + 12 * i) 4))
                  (BitVec.ofNat 64 (fieldAt s.sourceBytes (8 + 12 * i) 8)))
                (e2.total + fieldAt s.sourceBytes (8 + 12 * i) 8) (some (fieldAt s.sourceBytes (4 + 12 * i) 4)) := by
              refine ⟨?_, ?_, ?_, ?_, ?_, ?_, ?_⟩
              · subst he3; exact p2
              · subst he3; simp only [Engine.nextField]; omega
              · subst he3; rfl
              · subst he3; exact n2
              · subst he3; rw [← fr2, ← s2]
              · subst he3; rfl
              · subst he3; rw [← s2]
            have ih := entries_reach ha h4 hn k (i + 1) _ _ _ e3 (by omega) h3
            split at ih
            · rename_i o hpe
              obtain ⟨e', hr⟩ := ih
              exact ⟨e', (r1.trans r2 (Nat.le_refl _)).trans hr (by omega)⟩
            · rename_i t' total' hpe
              obtain ⟨e', prev', hr, hat⟩ := ih
              exact ⟨e', prev', (r1.trans r2 (Nat.le_refl _)).trans hr (by omega), hat⟩

/-- A field of one byte. -/
theorem fieldAt_one (a : List Byte) (o : Nat) (h : o < a.length) : fieldAt a o 1 = a[o].toNat := by
  rw [fieldAt_succ a o 0 h, fieldAt_zero]
  simp [fromBeStep]

/-- `paddingCount`, `emptyFlag` and what follows from them (steps 8 to 12 of R106). -/
theorem tail_reach {s : State} (ha : s.AdmitsSource) (h4 : 4 ≤ s.regs.srcLen.toNat) {n : Nat}
    (hn : headerLen n ≤ s.sourceBytes.length) {t : Table Word} {total : Nat} {prev : Option Nat} {e : Engine}
    (he : AtEntry e n n t total prev) :
    match parseTail s.sourceBytes.length n (fieldAt s.sourceBytes (4 + 12 * n) 1)
      (fieldAt s.sourceBytes (5 + 12 * n) 1) t total with
    | .error code info => ∃ e', Reaches (stepOf .decompress) 2 { s with eng := e }
        (({ s with eng := e' } : State).raise code info 0)
    | .empty => ∃ e', Reaches (stepOf .decompress) 2 { s with eng := e } { s with eng := e' } ∧ e'.phase = .finish ∧
        e'.n = 0 ∧ n = 0 ∧ e'.total = total ∧ e'.pad = 0 ∧ e'.payload = 0 ∧ e'.freq = t ∧
        e'.codes = Vector.replicate 256 []
    | .table t' n' total' pad p => ∃ e', Reaches (stepOf .decompress) 2 { s with eng := e } { s with eng := e' } ∧
        e'.phase = .plan ∧ e'.n = n' ∧ e'.total = total' ∧ e'.pad = pad ∧ e'.payload = p ∧ e'.freq = t' ∧
        t' = t ∧ n' = n ∧ total' = total ∧ 1 ≤ n ∧ pad ≤ 8 * p ∧ headerLen n + p = s.sourceBytes.length := by
  have hH : headerLen n = 6 + 12 * n := rfl
  have hl := length_sourceBytes s
  have r1 := readHdr_field ha h4 e he.phase (4 + 12 * n) he.idx he.field 0 (fun j hj => by omega) (by omega)
  have d1 : headerByte (4 + 12 * n + 0) (fieldAt s.sourceBytes (4 + 12 * n) (0 + 1)) s.sourceBytes[4 + 12 * n + 0]
      { s with eng := { e with
        idx := 4 + 12 * n + 0 + 1, field := fieldAt s.sourceBytes (4 + 12 * n) (0 + 1) } } =
      { s with eng := { (Engine.nextField { e with
        idx := 4 + 12 * n + 0 + 1, field := fieldAt s.sourceBytes (4 + 12 * n) (0 + 1) }) with
        pad := s.sourceBytes[4 + 12 * n + 0].toNat } } := by
    unfold headerByte
    dsimp only
    rw [he.n, if_neg (by omega), if_neg (by omega), if_neg (by omega), if_pos (by omega)]
  rw [d1] at r1
  generalize he2 : ({ (Engine.nextField { e with
    idx := 4 + 12 * n + 0 + 1, field := fieldAt s.sourceBytes (4 + 12 * n) (0 + 1) }) with
    pad := s.sourceBytes[4 + 12 * n + 0].toNat } : Engine) = e2 at r1
  have p2 : e2.phase = .readHdr := by subst he2; exact he.phase
  have i2 : e2.idx = 5 + 12 * n := by subst he2; simp only [Engine.nextField]; omega
  have f2 : e2.field = 0 := by subst he2; rfl
  have n2 : e2.n = n := by subst he2; exact he.n
  have fr2 : e2.freq = t := by subst he2; exact he.freq
  have t2 : e2.total = total := by subst he2; exact he.total
  have q2 : e2.pad = fieldAt s.sourceBytes (4 + 12 * n) 1 := by
    subst he2; rw [fieldAt_one _ _ (by omega)]; rfl
  have r2 := readHdr_field ha h4 e2 p2 (5 + 12 * n) i2 f2 0 (fun j hj => by omega) (by omega)
  have d2 : headerByte (5 + 12 * n + 0) (fieldAt s.sourceBytes (5 + 12 * n) (0 + 1)) s.sourceBytes[5 + 12 * n + 0]
      { s with eng := { e2 with
        idx := 5 + 12 * n + 0 + 1, field := fieldAt s.sourceBytes (5 + 12 * n) (0 + 1) } } =
      afterFlag s.regs.srcLen.toNat (fieldAt s.sourceBytes (5 + 12 * n) 1)
      { s with eng := { e2 with
        idx := 5 + 12 * n + 0 + 1, field := fieldAt s.sourceBytes (5 + 12 * n) (0 + 1) } } := by
    unfold headerByte
    dsimp only
    rw [n2, if_neg (by omega), if_neg (by omega), if_neg (by omega), if_neg (by omega),
      fieldAt_one _ _ (by omega)]
    rfl
  rw [d2, ← hl] at r2
  have r := Reaches.trans (d := 2) r1 r2 (by omega)
  clear r1 r2 d1 d2
  generalize he3 : ({ e2 with
    idx := 5 + 12 * n + 0 + 1, field := fieldAt s.sourceBytes (5 + 12 * n) (0 + 1) } : Engine) = e3 at r
  have n3 : e3.n = n := by subst he3; exact n2
  have fr3 : e3.freq = t := by subst he3; exact fr2
  have t3 : e3.total = total := by subst he3; exact t2
  have q3 : e3.pad = fieldAt s.sourceBytes (4 + 12 * n) 1 := by subst he3; exact q2
  clear he3
  generalize fieldAt s.sourceBytes (5 + 12 * n) 1 = flag at r ⊢
  rw [← q3, ← n3]
  unfold afterFlag at r
  unfold parseTail
  dsimp only at r ⊢
  by_cases c1 : 7 < e3.pad
  · rw [if_pos c1] at r ⊢; exact ⟨_, r⟩
  · rw [if_neg c1] at r ⊢
    by_cases c2 : 1 < flag
    · rw [if_pos c2] at r ⊢; exact ⟨_, r⟩
    · rw [if_neg c2] at r ⊢
      by_cases c3 : flag = 1
      · rw [if_pos c3] at r ⊢
        by_cases c4 : e3.n ≠ 0 ∨ e3.pad ≠ 0
        · rw [if_pos c4] at r ⊢; exact ⟨_, r⟩
        · rw [if_neg c4] at r ⊢
          by_cases c5 : s.sourceBytes.length - headerLen e3.n ≠ 0
          · rw [if_pos c5] at r ⊢; exact ⟨_, r⟩
          · rw [if_neg c5] at r ⊢
            exact ⟨_, r, rfl, by show e3.n = 0; omega, by omega, t3, by show e3.pad = 0; omega, rfl, fr3, rfl⟩
      · rw [if_neg c3] at r ⊢
        by_cases c4 : e3.n = 0
        · rw [if_pos c4] at r ⊢; exact ⟨_, r⟩
        · rw [if_neg c4] at r ⊢
          by_cases c5 : 8 * (s.sourceBytes.length - headerLen e3.n) < e3.pad
          · rw [if_pos c5] at r ⊢; exact ⟨_, r⟩
          · rw [if_neg c5] at r ⊢
            exact ⟨_, r, rfl, rfl, t3, rfl, rfl, fr3, rfl, rfl, rfl, by omega, by omega, by rw [n3]; omega⟩

/-- What the deserializer's parser leaves of a table it accepts. -/
theorem parseEntries_table {maxLen : Nat} {a : List Byte} (hm : maxLen < 2 ^ 64) :
    ∀ (k i : Nat) (t : Table Word) (total : Nat) (prev : Option Nat) (t' : Table Word) (total' : Nat),
      parseEntries maxLen a k i t total prev = .ok (t', total') →
      (∀ s, tableGet t s ≠ 0 → ∃ p, prev = some p ∧ s.toNat ≤ p) →
      distinct t' = distinct t + k
  | 0, i, t, total, prev, t', total', h, _ => by
    simp only [parseEntries, Except.ok.injEq, Prod.mk.injEq] at h
    rw [h.1, Nat.add_zero]
  | k + 1, i, t, total, prev, t', total', h, hp => by
    unfold parseEntries at h
    dsimp only at h
    split at h
    · simp at h
    · rename_i c1
      split at h
      · simp at h
      · rename_i c2
        split at h
        · simp at h
        · rename_i c3
          split at h
          · simp at h
          · rename_i c4
            generalize hb : BitVec.ofNat 8 (fieldAt a (4 + 12 * i) 4) = b at h
            have hbn : b.toNat = fieldAt a (4 + 12 * i) 4 := by
              subst hb; rw [BitVec.toNat_ofNat]; exact Nat.mod_eq_of_lt (by omega)
            have hf0 : (BitVec.ofNat 64 (fieldAt a (8 + 12 * i) 8) : Word) ≠ 0 := by
              intro h0
              have := congrArg BitVec.toNat h0
              rw [BitVec.toNat_ofNat, Nat.mod_eq_of_lt (by omega)] at this
              exact c3 this
            have h0 : tableGet t b = 0 := by
              by_contra hne
              obtain ⟨p, hp1, hp2⟩ := hp b hne
              apply c2
              rw [hp1]
              simp; omega
            have ih := parseEntries_table hm k (i + 1) _ _ _ t' total' h (fun s hs => by
              rw [tableGet_tablePut] at hs
              by_cases hsb : s = b
              · subst hsb; exact ⟨_, rfl, by omega⟩
              · rw [if_neg hsb] at hs
                obtain ⟨p, hp1, hp2⟩ := hp s hs
                refine ⟨_, rfl, ?_⟩
                rw [hp1] at c2
                simp at c2
                omega)
            have hd : distinct (tablePut t b (BitVec.ofNat 64 (fieldAt a (8 + 12 * i) 8))) = distinct t + 1 := by
              have hperm : (present (tablePut t b (BitVec.ofNat 64 (fieldAt a (8 + 12 * i) 8)))).Perm
                  (b :: present t) := by
                refine (List.perm_ext_iff_of_nodup (present_nodup _) ?_).2 ?_
                · exact List.nodup_cons.2 ⟨by rw [mem_present]; simpa using h0, present_nodup t⟩
                · intro s
                  rw [mem_present, tableGet_tablePut, List.mem_cons, mem_present]
                  by_cases hsb : s = b
                  · rw [if_pos hsb]; exact ⟨fun _ => .inl hsb, fun _ => hf0⟩
                  · rw [if_neg hsb]; exact ⟨.inr, fun h => h.resolve_left hsb⟩
              simpa [distinct] using hperm.length_eq
            rw [ih, hd]
            omega

/-- READ_HDR does what the deserializer's function says (R106). -/
theorem readHdr_reaches {s : State} (ha : s.AdmitsSource) :
    match parseHeader s.cfg.maxSrcLen s.sourceBytes with
    | .error code info => ∃ e', Reaches (stepOf .decompress) (s.regs.srcLen.toNat + 1)
        { s with eng := s.eng.startRead } (({ s with eng := e' } : State).raise code info 0)
    | .empty => ∃ e', Reaches (stepOf .decompress) (s.regs.srcLen.toNat + 1)
        { s with eng := s.eng.startRead } { s with eng := e' } ∧ e'.phase = .finish ∧
        e'.n = 0 ∧ e'.total = 0 ∧ e'.pad = 0 ∧ e'.payload = 0 ∧ e'.freq = zeroFreq ∧
        e'.codes = Vector.replicate 256 []
    | .table t n total pad p => ∃ e', Reaches (stepOf .decompress) (s.regs.srcLen.toNat + 1)
        { s with eng := s.eng.startRead } { s with eng := e' } ∧
        e'.phase = .plan ∧ e'.n = n ∧ e'.total = total ∧ e'.pad = pad ∧ e'.payload = p ∧ e'.freq = t ∧
        (s.cfg.maxSrcLen < 2 ^ 64 → n = distinct t) ∧ 1 ≤ n ∧ pad ≤ 8 * p ∧
        headerLen n + p = s.sourceBytes.length := by
  have hl := length_sourceBytes s
  unfold parseHeader
  dsimp only
  by_cases c1 : s.sourceBytes.length < 4
  · rw [if_pos c1]
    refine ⟨s.eng.startRead, (Reaches.step (by simp [Engine.startRead]) ?_).mono (by omega)⟩
    have hp : s.eng.startRead.phase = .readHdr := rfl
    simp only [stepOf, decompressStep, hp, readHdrStep]
    rw [if_pos (by omega), hl]
  · rw [if_neg c1]
    have h4 : 4 ≤ s.regs.srcLen.toNat := by omega
    have r1 := readHdr_field ha h4 s.eng.startRead rfl 0 rfl rfl 3 (fun j hj => .inl (by omega)) (by omega)
    have d1 : headerByte (0 + 3) (fieldAt s.sourceBytes 0 (3 + 1)) s.sourceBytes[0 + 3]
        { s with eng := { s.eng.startRead with idx := 0 + 3 + 1, field := fieldAt s.sourceBytes 0 (3 + 1) } } =
        afterCount s.regs.srcLen.toNat (fieldAt s.sourceBytes 0 4)
        { s with eng := { s.eng.startRead with idx := 0 + 3 + 1, field := fieldAt s.sourceBytes 0 (3 + 1) } } := by
      unfold headerByte
      dsimp only
      rw [if_neg (by omega), if_pos (by omega)]
    rw [d1, ← hl] at r1
    clear d1
    generalize fieldAt s.sourceBytes 0 4 = n at r1 ⊢
    unfold afterCount at r1
    by_cases c2 : 256 < n
    · rw [if_pos c2] at r1 ⊢; exact ⟨_, r1.mono (by omega)⟩
    · rw [if_neg c2] at r1 ⊢
      by_cases c3 : s.sourceBytes.length < headerLen n
      · rw [if_pos c3] at r1 ⊢; exact ⟨_, r1.mono (by omega)⟩
      · rw [if_neg c3] at r1 ⊢
        have hH : headerLen n = 6 + 12 * n := rfl
        dsimp only at r1
        generalize he1 : ({ (Engine.nextField { s.eng.startRead with
          idx := 0 + 3 + 1, field := n }) with
          n := n, total := 0, prev := none } : Engine) = e1 at r1
        have hat : AtEntry e1 0 n zeroFreq 0 none := by subst he1; exact ⟨rfl, rfl, rfl, rfl, rfl, rfl, rfl⟩
        have r2 := entries_reach ha h4 (n := n) (by omega) n 0 zeroFreq 0 none e1 (by omega) hat
        cases hpe : parseEntries s.cfg.maxSrcLen s.sourceBytes n 0 zeroFreq 0 none with
        | error o =>
          rw [hpe] at r2
          obtain ⟨e', r2⟩ := r2
          exact ⟨e', Reaches.trans (d := s.regs.srcLen.toNat + 1) r1 r2 (by omega)⟩
        | ok x =>
          obtain ⟨t, total⟩ := x
          rw [hpe] at r2
          obtain ⟨e2, prev, r2, hat2⟩ := r2
          have r12 := Reaches.trans (d := s.regs.srcLen.toNat - 1) r1 r2 (by omega)
          have r3 := tail_reach ha h4 (by omega) hat2
          dsimp only
          split at r3
          · rename_i code info hpt
            obtain ⟨e', r3⟩ := r3
            exact ⟨e', Reaches.trans (d := s.regs.srcLen.toNat + 1) r12 r3 (by omega)⟩
          · rename_i hpt
            obtain ⟨e', r3, g1, g2, g3, g4, g5, g6, g7, g8⟩ := r3
            subst g3
            simp only [parseEntries, Except.ok.injEq, Prod.mk.injEq] at hpe
            exact ⟨e', Reaches.trans (d := s.regs.srcLen.toNat + 1) r12 r3 (by omega), g1, g2, g4.trans hpe.2.symm, g5, g6, g7.trans hpe.1.symm, g8⟩
          · rename_i t' n' total' pad p hpt
            obtain ⟨e', r3, g1, g2, g3, g4, g5, g6, g7, g8, g9, g10, g11, g12⟩ := r3
            refine ⟨e', Reaches.trans (d := s.regs.srcLen.toNat + 1) r12 r3 (by omega), g1, g2, g3, g4, g5, g6, ?_, by omega, g11, by rw [g8]; exact g12⟩
            intro hm
            have := parseEntries_table hm n 0 zeroFreq 0 none t total hpe (by simp)
            rw [g7, g8, this]
            simp

end Sys2Proof.Machine
end

