-- ==== Sys2Proof/Laws/PerInstr.lean ====
section
/-! SUPPORT. The family of statements made per command: its word. -/

/-- The word of command `i` (spec/30_encoding.md R54, R55): `OPCODE` below a zero `MBZ`, no operand field, read back as
`i` by the decoder and at the opcode table's width. -/
def Sys2Proof.Laws.CommandWord.Statement (i : Sys2Proof.Instr) : Prop :=
  i.wf = true ∧
  Sys2Proof.opcodeField (Sys2Proof.encode i) = Sys2Proof.opcodeOf i ∧
  Sys2Proof.mbzField (Sys2Proof.encode i) = 0 ∧
  Sys2Proof.legal (Sys2Proof.encode i) = true ∧
  Sys2Proof.decode (Sys2Proof.encode i) = .ok i ∧
  Sys2Proof.decodeTableWord 64 (Sys2Proof.encode i).toNat = some i

theorem Sys2Proof.Laws.CommandWord.nop : Sys2Proof.Laws.CommandWord.Statement .nop := by
  unfold Sys2Proof.Laws.CommandWord.Statement; decide

theorem Sys2Proof.Laws.CommandWord.compress : Sys2Proof.Laws.CommandWord.Statement .compress := by
  unfold Sys2Proof.Laws.CommandWord.Statement; decide

theorem Sys2Proof.Laws.CommandWord.decompress : Sys2Proof.Laws.CommandWord.Statement .decompress := by
  unfold Sys2Proof.Laws.CommandWord.Statement; decide

theorem Sys2Proof.Laws.CommandWord.analyze : Sys2Proof.Laws.CommandWord.Statement .analyze := by
  unfold Sys2Proof.Laws.CommandWord.Statement; decide
end

