-- ==== Sys2Proof/Laws/Walk.lean ====
section
/-! SUPPORT. The DECODE phase runs to its end: what it leaves is what the walk's function says
(spec/46_codec_commands.md R123). -/

namespace Sys2Proof.Machine

open Sys2Proof

/-! ## The stream's bits -/

theorem getElem_flatMap_bitsOfByte : ∀ (l : List Byte) (t : Nat) (h : t / 8 < l.length) (h' : t < (l.flatMap bitsOfByte).length),
    (l.flatMap bitsOfByte)[t] = l[t / 8].getLsbD (7 - t % 8)
  | [], t, h, _ => by simp at h
  | b :: l, t, h, h' => by
    have hb : (bitsOfByte b).length = 8 := by simp [bitsOfByte]
    simp only [List.flatMap_cons] at h' ⊢
    by_cases ht : t < 8
    · rw [List.getElem_append_left (by omega)]
      have h0 : t / 8 = 0 := by omega
      have h1 : t % 8 = t := by omega
      simp [bitsOfByte, h0, h1]
    · rw [List.getElem_append_right (by omega)]
      simp only [hb]
      have ih := getElem_flatMap_bitsOfByte l (t - 8) (by rw [List.length_cons] at h; omega)
        (by rw [List.length_append, hb] at h'; omega)
      rw [ih]
      have e1 : (t - 8) % 8 = t % 8 := by omega
      have e2 : t / 8 = (t - 8) / 8 + 1 := by omega
      simp [e1, e2]

/-- The stream of an artifact (R99): its payload's bits without the padding. -/
def streamOf (a : List Byte) (n pad : Nat) : Bits := (unpack (a.drop (headerLen n)) pad).getD []

theorem length_streamOf {a : List Byte} {n pad p : Nat} (hl : headerLen n + p = a.length) (hp : pad ≤ 8 * p) :
    (streamOf a n pad).length = 8 * p - pad := by
  have hd : (a.drop (headerLen n)).length = p := by rw [List.length_drop]; omega
  have hf : ∀ l : List Byte, (l.flatMap bitsOfByte).length = 8 * l.length := by
    intro l
    induction l with
    | nil => rfl
    | cons b l ih => rw [List.flatMap_cons, List.length_append, ih, List.length_cons]; simp [bitsOfByte]; omega
  unfold streamOf unpack
  rw [if_neg (by omega), Option.getD_some, List.length_take, hf, hd]
  omega

theorem getElem_streamOf {a : List Byte} {n pad p t : Nat} (hl : headerLen n + p = a.length) (hp : pad ≤ 8 * p)
    (h : t < (streamOf a n pad).length) (h' : headerLen n + t / 8 < a.length) :
    (streamOf a n pad)[t] = a[headerLen n + t / 8].getLsbD (7 - t % 8) := by
  have hd : (a.drop (headerLen n)).length = p := by rw [List.length_drop]; omega
  unfold streamOf unpack at h ⊢
  simp only [hd] at h ⊢
  have hn : ¬ 8 * p < pad := by omega
  simp only [if_neg hn, Option.getD_some] at h ⊢
  rw [List.getElem_take, getElem_flatMap_bitsOfByte _ _ (by rw [hd]; omega)]
  simp

/-! ## The engine's walk -/

/-- DECODE before stream bit `t`, with `out` emitted. -/
def walkState (s : State) (out : List Byte) (acc : Bits) (start t : Nat) (fetched : Bool) (cur : Byte) : State :=
  { s with
    mem := memPutAll s.mem (s.dstAddr 0) out
    eng := { s.eng with
      acc := acc
      accStart := start
      emitted := out.length
      idx := t
      fetched := fetched
      cur := cur } }

/-- What DECODE works on: an artifact inside the source, a destination that takes `T` bytes. -/
structure WalkReady (s : State) : Prop where
  phase : s.eng.phase = .decode
  source : s.AdmitsSource
  checked : s.checkBoth = none
  parts : headerLen s.eng.n + s.eng.payload = s.regs.srcLen.toNat
  pad : s.eng.pad ≤ 8 * s.eng.payload
  dest : s.AdmitsDest s.eng.total
  fits : s.eng.total ≤ s.regs.dstCap.toNat

/-- One fetched bit (R123). -/
theorem walk_bit {s : State} (h : WalkReady s) (out : List Byte) (acc : Bits) (start t : Nat)
    (ho : out.length ≤ s.eng.total) (ht : t < (streamOf s.sourceBytes s.eng.n s.eng.pad).length) :
    ∃ cur, ∀ f0 cur0, (f0 = false ∨ (f0 = true ∧ ∃ hb, cur0 = s.sourceBytes[headerLen s.eng.n + t / 8]'hb)) →
      Reaches (stepOf .decompress) 2 (walkState s out acc start t f0 cur0)
        (match reverseLookup s.eng.decode (acc ++ [(streamOf s.sourceBytes s.eng.n s.eng.pad)[t]]) with
          | none => walkState s out (acc ++ [(streamOf s.sourceBytes s.eng.n s.eng.pad)[t]]) start (t + 1)
              (decide ((t + 1) % 8 ≠ 0)) cur
          | some sym =>
            if out.length = s.eng.total then
              (walkState s out acc start t true cur).raise .lengthMismatch (s.eng.total + 1) s.eng.total
            else walkState s (out ++ [sym]) [] (t + 1) (t + 1) (decide ((t + 1) % 8 ≠ 0)) cur) ∧
      ∃ hb, cur = s.sourceBytes[headerLen s.eng.n + t / 8]'hb := by
  have hl := length_sourceBytes s
  have hlen := length_streamOf (a := s.sourceBytes) (by rw [hl]; exact h.parts) h.pad
  have hpa := h.parts
  have hb : headerLen s.eng.n + t / 8 < s.sourceBytes.length := by omega
  refine ⟨s.sourceBytes[headerLen s.eng.n + t / 8], ?_⟩
  intro f0 cur0 hf0
  refine ⟨?_, hb, rfl⟩
  have hidx : t < s.eng.streamBits := by unfold Engine.streamBits; omega
  have hbit := getElem_streamOf (by rw [hl]; exact h.parts) h.pad ht hb
  generalize hx : (streamOf s.sourceBytes s.eng.n s.eng.pad)[t] = x at hbit ⊢
  generalize hc : s.sourceBytes[headerLen s.eng.n + t / 8] = c at *
  -- the fetch
  have hfetch : Reaches (stepOf .decompress) 1 (walkState s out acc start t f0 cur0)
      (walkState s out acc start t true c) := by
    rcases hf0 with rfl | ⟨rfl, hb', rfl⟩
    · refine Reaches.step (by simp [walkState, h.phase]) ?_
      have hr := memRead_source_of (t := walkState s out acc start t false cur0) h.source h.checked rfl rfl rfl
        (by have := h.fits; omega) (i := headerLen s.eng.n + t / 8) (by omega)
      rw [hc] at hr
      simp only [stepOf, decompressStep, show (walkState s out acc start t false cur0).eng.phase = .decode from h.phase]
      unfold decodeStep
      rw [if_pos (show (walkState s out acc start t false cur0).eng.idx <
        (walkState s out acc start t false cur0).eng.streamBits from hidx)]
      rw [if_neg (show ¬ (walkState s out acc start t false cur0).eng.fetched = true from by simp [walkState])]
      rw [show (walkState s out acc start t false cur0).srcAddr
        (headerLen (walkState s out acc start t false cur0).eng.n +
          (walkState s out acc start t false cur0).eng.idx / 8) =
        (walkState s out acc start t false cur0).srcAddr (headerLen s.eng.n + t / 8) from rfl, hr]
      rfl
    · rw [hc]; exact Reaches.refl _ _
  refine hfetch.trans (c := 1) (Reaches.step (by simp [walkState, h.phase]) ?_) (Nat.le_refl _)
  simp only [stepOf, decompressStep, show (walkState s out acc start t true c).eng.phase = .decode from h.phase]
  unfold decodeStep
  rw [if_pos (show (walkState s out acc start t true c).eng.idx <
    (walkState s out acc start t true c).eng.streamBits from hidx)]
  rw [if_pos (show (walkState s out acc start t true c).eng.fetched = true from rfl)]
  unfold walkBit
  have hsb : (walkState s out acc start t true c).eng.streamBit = x := by
    rw [hbit]; rfl
  dsimp only
  rw [hsb, show (walkState s out acc start t true c).eng.acc = acc from rfl,
    show (walkState s out acc start t true c).eng.decode = s.eng.decode from rfl]
  cases hrl : reverseLookup s.eng.decode (acc ++ [x]) with
  | none => rfl
  | some sym =>
    dsimp only
    by_cases hfull : out.length = s.eng.total
    · rw [if_pos hfull, if_pos (show (walkState s out acc start t true c).eng.emitted =
        (walkState s out acc start t true c).eng.total from hfull)]
      rfl
    · rw [if_neg hfull, if_neg (show ¬ (walkState s out acc start t true c).eng.emitted =
        (walkState s out acc start t true c).eng.total from hfull)]
      have hw := memWrite_dest (o := out.length) h.dest (by omega) (walkState s out acc start t true c) rfl rfl sym
      rw [show (walkState s out acc start t true c).eng.emitted = out.length from rfl, hw]
      simp only [Answer.andThen, walkState, Engine.matched, Engine.nextBit, memPutAll_concat, List.length_append,
        List.length_singleton, State.dstAddr, Nat.add_zero]
      rfl

/-- How the engine's walk ends. -/
def WalkEnds (s : State) (b : Nat) (u : State) : WalkResult → Prop
  | .output out => ∃ e', Reaches (stepOf .decompress) b u
      { s with mem := memPutAll s.mem (s.dstAddr 0) out, eng := e' } ∧
      e'.phase = .finish ∧ e'.n = s.eng.n ∧ e'.payload = s.eng.payload ∧ e'.pad = s.eng.pad ∧
      e'.total = s.eng.total ∧ e'.freq = s.eng.freq ∧ e'.codes = s.eng.codes ∧ out.length = s.eng.total
  | .lengthMismatch info => ∃ e' out, Reaches (stepOf .decompress) b u
      (({ s with mem := memPutAll s.mem (s.dstAddr 0) out, eng := e' } : State).raise .lengthMismatch info s.eng.total) ∧
      out.length ≤ s.eng.total
  | .undecodable info => ∃ e' out, Reaches (stepOf .decompress) b u
      (({ s with mem := memPutAll s.mem (s.dstAddr 0) out, eng := e' } : State).raise .undecodableStream info
        s.eng.total) ∧ out.length ≤ s.eng.total

theorem WalkEnds.of_reaches {s u v : State} {b c d : Nat} {r : WalkResult} (h : Reaches (stepOf .decompress) b u v)
    (h' : WalkEnds s c v r) (hd : b + c ≤ d) : WalkEnds s d u r := by
  cases r with
  | output out =>
    obtain ⟨e', hr, hrest⟩ := h'
    exact ⟨e', h.trans hr hd, hrest⟩
  | lengthMismatch info =>
    obtain ⟨e', out, hr, hrest⟩ := h'
    exact ⟨e', out, h.trans hr hd, hrest⟩
  | undecodable info =>
    obtain ⟨e', out, hr, hrest⟩ := h'
    exact ⟨e', out, h.trans hr hd, hrest⟩

/-- The engine's walk from bit `t` on is the function's (R123). -/
theorem walk_reaches {s : State} (h : WalkReady s) :
    ∀ (bs : Bits) (t : Nat) (acc : Bits) (start : Nat) (out : List Byte) (f0 : Bool) (cur0 : Byte),
      (streamOf s.sourceBytes s.eng.n s.eng.pad).drop t = bs → t ≤ (streamOf s.sourceBytes s.eng.n s.eng.pad).length →
      out.length ≤ s.eng.total →
      (f0 = false ∨ (f0 = true ∧ ∃ hb, cur0 = s.sourceBytes[headerLen s.eng.n + t / 8]'hb)) →
      WalkEnds s (2 * bs.length + 1) (walkState s out acc start t f0 cur0)
        (walk s.eng.decode s.eng.total bs t acc start out)
  | [], t, acc, start, out, f0, cur0, hbs, hle, ho, _ => by
    have hl := length_sourceBytes s
    have hlen := length_streamOf (a := s.sourceBytes) (by rw [hl]; exact h.parts) h.pad
    have ht : t = (streamOf s.sourceBytes s.eng.n s.eng.pad).length := by
      have := congrArg List.length hbs
      rw [List.length_drop, List.length_nil] at this
      omega
    have hstep : stepOf .decompress (walkState s out acc start t f0 cur0) =
        .ok (walkEnd (walkState s out acc start t f0 cur0)) := by
      simp only [stepOf, decompressStep, show (walkState s out acc start t f0 cur0).eng.phase = .decode from h.phase]
      unfold decodeStep
      rw [if_neg (show ¬ (walkState s out acc start t f0 cur0).eng.idx <
        (walkState s out acc start t f0 cur0).eng.streamBits from by
          show ¬ t < s.eng.streamBits
          unfold Engine.streamBits; omega)]
    have hr := Reaches.step (f := stepOf .decompress) (by simp [walkState, h.phase]) hstep
    unfold walkEnd at hr
    rw [walk]
    by_cases c1 : acc ≠ []
    · rw [if_pos c1]
      rw [if_pos (show (walkState s out acc start t f0 cur0).eng.acc ≠ [] from c1)] at hr
      exact ⟨_, out, hr, ho⟩
    · rw [if_neg c1]
      rw [if_neg (show ¬ (walkState s out acc start t f0 cur0).eng.acc ≠ [] from c1)] at hr
      by_cases c2 : out.length ≠ s.eng.total
      · rw [if_pos c2]
        rw [if_pos (show (walkState s out acc start t f0 cur0).eng.emitted ≠
          (walkState s out acc start t f0 cur0).eng.total from c2)] at hr
        exact ⟨_, out, hr, ho⟩
      · rw [if_neg c2]
        rw [if_neg (show ¬ (walkState s out acc start t f0 cur0).eng.emitted ≠
          (walkState s out acc start t f0 cur0).eng.total from c2)] at hr
        exact ⟨_, hr, rfl, rfl, rfl, rfl, rfl, rfl, rfl, by omega⟩
  | x :: bs, t, acc, start, out, f0, cur0, hbs, hle, ho, hf0 => by
    have hlt : t < (streamOf s.sourceBytes s.eng.n s.eng.pad).length := by
      have := congrArg List.length hbs
      rw [List.length_drop, List.length_cons] at this
      omega
    rw [List.drop_eq_getElem_cons hlt] at hbs
    obtain ⟨hx, hbs⟩ := List.cons.inj hbs
    obtain ⟨cur, hcur⟩ := walk_bit h out acc start t ho hlt
    obtain ⟨hr, hb, hc⟩ := hcur f0 cur0 hf0
    rw [hx] at hr
    have hnext : decide ((t + 1) % 8 ≠ 0) = false ∨
        (decide ((t + 1) % 8 ≠ 0) = true ∧ ∃ hb, cur = s.sourceBytes[headerLen s.eng.n + (t + 1) / 8]'hb) := by
      by_cases h8 : (t + 1) % 8 = 0
      · exact .inl (by simp [h8])
      · refine .inr ⟨by simp [h8], ?_⟩
        have e : (t + 1) / 8 = t / 8 := by omega
        simp only [e]
        exact ⟨hb, hc⟩
    rw [walk]
    cases hrl : reverseLookup s.eng.decode (acc ++ [x]) with
    | none =>
      rw [hrl] at hr
      have ih := walk_reaches h bs (t + 1) (acc ++ [x]) start out (decide ((t + 1) % 8 ≠ 0)) cur hbs (by omega) ho hnext
      exact ih.of_reaches hr (by rw [List.length_cons]; omega)
    | some sym =>
      rw [hrl] at hr
      dsimp only at hr ⊢
      by_cases hfull : out.length = s.eng.total
      · rw [if_pos hfull] at hr ⊢
        exact ⟨_, out, hr.mono (by rw [List.length_cons]; omega), ho⟩
      · rw [if_neg hfull] at hr ⊢
        have ih := walk_reaches h bs (t + 1) [] (t + 1) (out ++ [sym]) (decide ((t + 1) % 8 ≠ 0)) cur hbs (by omega)
          (by rw [List.length_append, List.length_singleton]; omega) hnext
        exact ih.of_reaches hr (by rw [List.length_cons]; omega)

end Sys2Proof.Machine
end

