-- ==== Sys2Proof/Laws/Results.lean ====
section
/-! SUPPORT. What the results of whole commands are put together from: the tables of a source, the bytes a command has
stored, the header's error codes, the buffers' bounds, and the walk over a stream of codes. -/

namespace Sys2Proof.Machine

open Sys2Proof

/-! ## The walk over codes -/

/-- The walk over one symbol's code emits the symbol (spec/46_codec_commands.md R123). -/
theorem walk_code {as : List (Byte × Bits)} (hp : PrefixFree as) (total : Nat) (rest : Bits) (s : Byte) :
    ∀ (c acc : Bits) (t start : Nat) (out : List Byte), (s, acc ++ c) ∈ as → c ≠ [] → out.length ≠ total →
      walk (decodeMap as) total (c ++ rest) t acc start out =
        walk (decodeMap as) total rest (t + c.length) [] (t + c.length) (out ++ [s])
  | [], _, _, _, _, _, h, _ => by simp at h
  | x :: c, acc, t, start, out, hm, _, ho => by
    rw [List.cons_append, walk]
    by_cases hc : c = []
    · subst hc
      rw [(reverseLookup_decodeMap hp).2 hm]
      dsimp only
      rw [if_neg ho]
      simp
    · have hn : reverseLookup (decodeMap as) (acc ++ [x]) = none := by
        cases hl : reverseLookup (decodeMap as) (acc ++ [x]) with
        | none => rfl
        | some s' =>
          have hm' := (reverseLookup_decodeMap hp).1 hl
          have := hp.eq_of_prefix hm' hm ⟨c, by simp⟩
          simp at this
          exact absurd this.2 hc
      rw [hn]
      dsimp only
      have := walk_code hp total rest s c (acc ++ [x]) (t + 1) start out (by simpa using hm) hc ho
      rw [this, List.length_cons]
      congr 1 <;> omega

/-- The walk over the codes of a byte sequence emits the sequence (R123, spec/44_bit_packer.md R101). -/
theorem walk_stream {as : List (Byte × Bits)} (hp : PrefixFree as) (code : Byte → Bits) (total : Nat) :
    ∀ (bytes : List Byte) (t start : Nat) (out : List Byte), (∀ b ∈ bytes, (b, code b) ∈ as ∧ code b ≠ []) →
      out.length + bytes.length = total →
      walk (decodeMap as) total (bytes.flatMap code) t [] start out = .output (out ++ bytes)
  | [], t, start, out, _, ho => by
    simp at ho
    simp [walk, ho]
  | b :: bytes, t, start, out, h, ho => by
    rw [List.length_cons] at ho
    rw [List.flatMap_cons,
      walk_code hp total _ b (code b) [] t start out (h b List.mem_cons_self).1 (h b List.mem_cons_self).2 (by omega),
      walk_stream hp code total bytes _ _ (out ++ [b]) (fun x hx => h x (List.mem_cons_of_mem _ hx)) (by simp; omega)]
    simp

/-! ## Stored bytes -/

/-- What was stored from the destination's first byte on is what the destination holds. -/
theorem holds_of_putAll {s t : State} {bs : List Byte} (hm : t.mem = memPutAll s.mem (s.dstAddr 0) bs)
    (hb : t.regs.dstBase = s.regs.dstBase) : t.Holds bs := by
  intro o ho
  have hd : t.dstAddr o = s.dstAddr 0 + o := by simp [State.dstAddr, hb]
  simp only [State.byteAt, hm, hd]
  rw [memFind_memPutAll _ _ _ _ ho]
  exact (List.getD_eq_getElem _ _ ho).symm

/-- Storing `bs` keeps what lies outside the first `len` bytes. -/
theorem keeps_of_putAll {s t : State} {bs : List Byte} {len : Nat}
    (hm : t.mem = memPutAll s.mem (s.dstAddr 0) bs) (hl : bs.length ≤ len) : s.KeepsOutside t len := by
  intro a ha
  simp only [State.dstAddr] at ha
  exact byteAt_memPutAll_outside (a := s.dstAddr 0) (bs := bs) (by simp only [State.dstAddr]; omega) _ hm

/-- A late error after storing `bs` keeps what lies outside the planned range (spec/60_exceptions.md R134). -/
theorem keeps_raise {s u : State} {bs : List Byte} {len : Nat}
    (hm : u.mem = memPutAll s.mem (s.dstAddr 0) bs) (hr : u.regs = s.regs) (hl : bs.length ≤ len) (code : ErrCode) (info : Nat) :
    s.KeepsOutside (u.raise code info len) len := by
  intro a ha
  have h1 := (MemEffect.raise u code info len).keepsOutside
  have h2 := h1 a (by simpa [State.dstAddr, hr] using ha)
  rw [h2]
  exact keeps_of_putAll hm hl a ha

/-- Stores to the destination leave the source's bytes alone: the buffers share no byte (spec/46_codec_commands.md
R110). -/
theorem sourceBytes_of_memPutAll {s t : State} (hb : s.checkBoth = none) {a : Nat} {bs : List Byte}
    (hm : t.mem = memPutAll s.mem (s.dstAddr a) bs) (hr : t.regs = s.regs)
    (hl : a + bs.length ≤ s.regs.dstCap.toNat) : t.sourceBytes = s.sourceBytes := by
  unfold State.sourceBytes
  rw [hr]
  refine List.map_congr_left fun i hi => ?_
  have hi := List.mem_range.1 hi
  have e : t.srcAddr i = s.srcAddr i := by simp [State.srcAddr, hr]
  rw [e]
  refine byteAt_memPutAll_outside ?_ t hm
  by_contra hn
  have hd : s.srcAddr i = s.dstAddr (s.srcAddr i - s.regs.dstBase.toNat) := by
    simp only [State.dstAddr] at hn ⊢; omega
  refine State.srcAddr_ne_dstAddr hb hi (o := s.srcAddr i - s.regs.dstBase.toNat) ?_ hd
  simp only [State.dstAddr] at hn; omega

/-! ## The header's error codes -/

/-- No check of the header's tail is a late error. -/
theorem parseTail_code {m n pad flag : Nat} {t : Table Word} {total : Nat} {code : ErrCode} {info : Nat}
    (h : parseTail m n pad flag t total = .error code info) : code.spoilsDestination = false := by
  unfold parseTail at h
  simp only at h
  repeat' split at h
  all_goals first | (cases h; rfl) | cases h

/-- No check of the header is a late error (spec/45_container.md R106, spec/60_exceptions.md R134). -/
theorem parseHeader_code {k : Nat} {a : List Byte} {code : ErrCode} {info : Nat}
    (h : parseHeader k a = .error code info) :
    code.spoilsDestination = false := by
  unfold parseHeader at h
  simp only at h
  split at h
  · cases h; rfl
  split at h
  · cases h; rfl
  split at h
  · cases h; rfl
  split at h
  · cases h; rfl
  · exact parseTail_code h

/-! ## The buffers' bounds -/

/-- An accepted source lies inside the address space (spec/46_codec_commands.md R110). -/
theorem bounds_of_checkSrc {s : State} (h : s.checkSrc = none) :
    s.regs.srcBase.toNat + s.regs.srcLen.toNat ≤ 2 ^ s.cfg.addrW := by
  by_contra hc
  have : s.checkSrc = some 1 := by unfold State.checkSrc; rw [if_pos (by simp only [Regs.source]; omega)]
  simp [this] at h

/-- Accepted buffers lie inside the address space (R110). -/
theorem bounds_of_check {s : State} (h : s.checkBoth = none) :
    s.checkSrc = none ∧ s.regs.dstBase.toNat + s.regs.dstCap.toNat ≤ 2 ^ s.cfg.addrW := by
  have h0 : s.checkSrc = none := by
    cases hc : s.checkSrc with
    | none => rfl
    | some k => simp [State.checkBoth, hc] at h
  refine ⟨h0, ?_⟩
  by_contra hc
  have : s.checkDst = some 3 := by unfold State.checkDst; rw [if_pos (by simp only [Regs.dest]; omega)]
  simp [State.checkBoth, h0, this] at h

/-! ## The tables of a source -/

/-- A payload has at most 255 bits per source byte (spec/43_code_table.md R91). -/
theorem payloadBits_le {bytes : List Byte} (hne : bytes ≠ []) (hlt : bytes.length < 2 ^ 64) :
    payloadBits (countBytes bytes) (codesOf (countBytes bytes)) ≤ 255 * bytes.length := by
  obtain ⟨hd, hsum, _⟩ := countBytes_spec hne hlt
  rw [← hsum]
  unfold payloadBits freqSum
  rw [← List.sum_map_mul_left]
  apply List.sum_le_sum
  intro x _
  rw [Nat.mul_comm]
  apply Nat.mul_le_mul_right
  by_cases hx : tableGet (countBytes bytes) x = 0
  · simp [codeLen, (codesOf_get hd x).2 hx]
  · have := (assignments_length hd ((codesOf_get hd x).1 hx)).2
    have hdl := distinct_le (countBytes bytes)
    simp only [codeLen]
    simp only at this
    omega

/-- COUNT, TREE and CODES of a non-empty source, up to PLAN (R116, R125). -/
theorem tables_reach {f : State → Answer State} (h1 : ∀ u, u.eng.phase = .count → f u = countStep u)
    (h2 : ∀ u, u.eng.phase = .tree → f u = treeStep u)
    (h3 : ∀ u, u.eng.phase = .codes → f u = codesStep (fun e => { e with phase := .plan }) u)
    (s : State) (ha : s.AdmitsSource) (hne : s.regs.srcLen ≠ 0) :
    ∃ e, Reaches f (s.regs.srcLen.toNat + 259) { s with eng := s.eng.startCount } { s with eng := e } ∧
      e.phase = .plan ∧ e.freq = countBytes s.sourceBytes ∧ e.n = distinct (countBytes s.sourceBytes) ∧
      e.codes = codesOf (countBytes s.sourceBytes) := by
  have hl := length_sourceBytes s
  have hne' : s.sourceBytes ≠ [] := by
    intro h; rw [h] at hl; simp at hl
    exact hne (BitVec.eq_of_toNat_eq (by simpa using hl.symm))
  have hlt : s.sourceBytes.length < 2 ^ 64 := by rw [hl]; exact s.regs.srcLen.isLt
  obtain ⟨hd, _, _⟩ := countBytes_spec hne' hlt
  have hc := count_reaches h1 (s := { s with eng := s.eng.startCount }) rfl rfl rfl ha
  have hsrc : State.sourceBytes { s with eng := s.eng.startCount } = s.sourceBytes := rfl
  rw [hsrc] at hc
  generalize hsb : s.sourceBytes = sb at *
  obtain ⟨q, seq, ht⟩ := tree_reaches h2 (s := { s with eng := ({ s.eng.startCount with
          freq := countBytes sb
          idx := s.regs.srcLen.toNat
          n := distinct (countBytes sb)
          total := s.regs.srcLen.toNat } : Engine).startTree }) rfl rfl hd rfl rfl rfl
  have hcode := fun (e : Engine) (hp : e.phase = .codes) =>
    Reaches.step (f := f) (s := { s with eng := e }) (t := { s with eng := { e.derive with phase := .plan } })
      (by simp [hp]) (by rw [h3 _ hp]; rfl)
  refine ⟨_, (hc.trans ht (Nat.le_refl _)).trans (hcode _ rfl) (by dsimp only; omega), rfl, rfl, rfl, rfl⟩

end Sys2Proof.Machine
end

