-- ==== Sys2Proof/Tests/Slice0.lean ====
section
/-! SUPPORT. The model's own tests, one step each on a small state. The expected values are those of
spec/95_test_vectors.md, named by their vectors, or are written out from the rules cited. -/

namespace Sys2Proof.Tests

open Sys2Proof Sys2Proof.Machine

/-! ## Small states -/

/-- Memory with bytes laid out from an address. -/
def laid : List Host.Cell → Nat → List Byte → List Host.Cell
  | m, _, [] => m
  | m, a, b :: bs => laid (memPut m a b) (a + 1) bs

/-- Reset, with a source at 0x100, a destination at 0x4000, and the command issued. -/
def job (src : List Byte) (cap : Nat) (i : Instr) : State :=
  let s := State.reset
  ({ s with
    mem := laid [] 0x100 src
    regs := { s.regs with
      srcBase := 0x100
      srcLen := BitVec.ofNat 64 src.length
      dstBase := 0x4000
      dstCap := BitVec.ofNat 64 cap } } : State).withCommand (encode i)

/-- Reset, with a command word issued on these operands. -/
def operands (srcBase srcLen dstBase dstCap w : Word) : State :=
  let s := State.reset
  ({ s with regs := { s.regs with
    srcBase := srcBase
    srcLen := srcLen
    dstBase := dstBase
    dstCap := dstCap } } : State).withCommand w

/-- Reset, with the host's next operation its turn. -/
def hostTurn (op : HostOp) : State := { State.reset with host := [op], sched := [.host] }

/-- The state a step leaves; reset where it leaves none. -/
def after (o : Host.Outcome State Fault Refusal) : State :=
  match o with
  | .next t => t
  | _ => State.reset

/-- A step answers a next state. -/
def goesOn (o : Host.Outcome State Fault Refusal) : Bool :=
  match o with
  | .next _ => true
  | _ => false

/-- What the host would read after a step: `STATUS`, `DST_LEN`, `ERR_INFO`, `BIT_LEN`, `SYM_COUNT`, `PAD_COUNT`. -/
def results (o : Host.Outcome State Fault Refusal) : List Nat :=
  let t := after o
  [t.regs.statusWord, t.regs.dstLen, t.regs.errInfo, t.regs.bitLen, t.regs.symCount, t.regs.padCount].map (·.toNat)

/-- The bytes written at the destination. -/
def destination (o : Host.Outcome State Fault Refusal) (k : Nat) : List (Option Byte) :=
  (List.range k).map fun j => memFind (after o).mem (0x4000 + j)

/-- "aaaa". -/
def aaaa : List Byte := [0x61, 0x61, 0x61, 0x61]

/-- The artifact of "aaaa" (V-S1). -/
def aaaaArtifact : List Byte :=
  [0x00, 0x00, 0x00, 0x01, 0x00, 0x00, 0x00, 0x61] ++ [0x00, 0x00, 0x00, 0x00, 0x00, 0x00, 0x00, 0x04] ++
  [0x04, 0x00, 0x00]

/-- "abracadabra". -/
def abracadabra : List Byte := [0x61, 0x62, 0x72, 0x61, 0x63, 0x61, 0x64, 0x61, 0x62, 0x72, 0x61]

/-! ## Well-formedness refuses what the spec forbids

A command word has no operand field (R54), so no term of `Instr` is ill formed. -/

theorem test_wf_every_command : ∀ i : Instr, i.wf = true := fun _ => rfl

/-- R21: an access of 32 bits. -/
theorem test_wf_refuses_narrow_read : (HostOp.read 0x018 .w32).wf = false := by decide

theorem test_wf_refuses_narrow_write : (HostOp.write 0x020 .w8 5).wf = false := by decide

/-- R21: an offset that is not a multiple of 8. -/
theorem test_wf_refuses_misaligned_read : (HostOp.read 0x01C .w64).wf = false := by decide

theorem test_wf_refuses_misaligned_write : (HostOp.write 0x3FFF .w64 5).wf = false := by decide

theorem test_wf_accepts_last_window : (HostOp.read 0x3FF8 .w64).wf = true := by decide

/-- R7: `ADDR_W` from 1 to 64. -/
theorem test_wf_refuses_no_address : (Config.mk 0 0 []).wf = false := by decide

theorem test_wf_refuses_wide_address : (Config.mk 65 4 []).wf = false := by decide

/-- R7: 255 bits a source byte fit 64 bits. -/
theorem test_wf_refuses_long_source : (Config.mk 64 (2 ^ 57) []).wf = false := by decide

/-- R7: `MAX_SRC_LEN < 2^ADDR_W`. -/
theorem test_wf_refuses_source_past_memory : (Config.mk 16 0x10000 []).wf = false := by decide

theorem test_wf_accepts_default : Config.default.wf = true := by decide

theorem test_wf_accepts_small : (Config.mk 16 0xFFFF []).wf = true := by decide

/-! ## Command words, written out bit by bit from R54 and R55 -/

theorem test_decode_nop : decode
    0b0000000000000000000000000000000000000000000000000000000000000000#64 = .ok .nop := by decide

theorem test_decode_compress : decode
    0b0000000000000000000000000000000000000000000000000000000000000001#64 = .ok .compress := by decide

theorem test_decode_decompress : decode
    0b0000000000000000000000000000000000000000000000000000000000000010#64 = .ok .decompress := by decide

theorem test_decode_analyze : decode
    0b0000000000000000000000000000000000000000000000000000000000000011#64 = .ok .analyze := by decide

/-- V-X5: the low byte is no opcode. -/
theorem test_decode_unassigned : decode 0xFF = .error .opcodeUnassigned := by decide

/-- V-X3, V-X4: a bit above the opcode. -/
theorem test_decode_mbz : decode 0x104 = .error .mbzNotZero ∧ decode 0x0000000100000001 = .error .mbzNotZero := by decide

/-- R64: the top bit is part of the field that must be zero. -/
theorem test_decode_top_bit : decode 0x8000000000000002 = .error .mbzNotZero := by decide

theorem test_decode_table_rows :
    decodeTableWord 64 0 = some .nop ∧ decodeTableWord 64 1 = some .compress ∧
    decodeTableWord 64 2 = some .decompress ∧ decodeTableWord 64 3 = some .analyze ∧
    decodeTableWord 64 4 = none := by decide

/-! ## Commands -/

/-- V-X1. -/
theorem test_nop : results (step (job aaaa 8 .nop)) = [0x2, 0, 0, 0, 0, 0] := by decide +kernel

/-- V-X1: the operands are not checked. -/
theorem test_nop_bad_operands :
    results (step (operands 0xFFFFFFFFFFFFFFFF 2 0 0 (encode .nop))) = [0x2, 0, 0, 0, 0, 0] := by decide +kernel

/-- V-C18: no room for it. -/
theorem test_compress_overflow : results (step (job [] 5 .compress)) = [0x302, 0, 6, 0, 0, 0] := by decide +kernel

set_option Elab.async false in
/-- V-C19: the last byte of the empty input's artifact is its flag, 1. -/
theorem test_compress_empty_flag :
    let s := (job [] 6 .compress).goto .writeHdr
    let t := after (step { s with eng := { s.eng with out := 5 }, sched := [.engine] })
    memFind t.mem 0x4005 = some 1 ∧ memFind t.mem 0x4004 = none := by decide +kernel

set_option Elab.async false in
/-- V-D14: the padding bits are not checked. -/
theorem test_decompress_aaaa :
    results (step (job (aaaaArtifact.take 18 ++ [0x0F]) 4 .decompress)) = [0x2, 4, 0, 4, 1, 4] ∧
    destination (step (job (aaaaArtifact.take 18 ++ [0x0F]) 4 .decompress)) 4 = aaaa.map some := by decide +kernel

set_option Elab.async false in
/-- V-D9: the bit 1 never matches. -/
theorem test_decompress_undecodable :
    results (step (job (aaaaArtifact.take 18 ++ [0x20]) 4 .decompress)) = [0x1202, 0, 2, 0, 0, 0] := by decide +kernel

set_option Elab.async false in
/-- V-X14: the destination is not checked. -/
theorem test_analyze_aaaa :
    let t := after (step { job aaaa 0x20 .analyze with
      regs := { (job aaaa 0x20 .analyze).regs with dstBase := 0xFFFFFFFFFFFFFFF0 } })
    t.regs.statusWord = 0x2 ∧ t.regs.symCount = 1 := by decide +kernel

set_option Elab.async false in
/-- V-X14, V-K2: its windows for 0x61. -/
theorem test_analyze_windows :
    [0x1308, 0x1B08, 0x2C20].map (after (step (job aaaa 0x20 .analyze))).readValue = [4, 1, 0] := by decide +kernel

/-- V-X2: the word itself in `ERR_INFO`. -/
theorem test_illegal_word : results (step (operands 0 0 0 0 0x4)) = [0x102, 0, 4, 0, 0, 0] := by decide +kernel

/-- V-X5: dispatch comes before the buffer checks. -/
theorem test_illegal_before_buffers :
    results (step (operands 0xFFFFFFFFFFFFFFFF 2 0 0 0xFF)) = [0x102, 0, 0xFF, 0, 0, 0] := by decide +kernel

/-! ## The stages -/

set_option Elab.async false in
/-- V-T1: the merges of "abracadabra", smaller key on the left. -/
theorem test_tree_abracadabra : (buildTree (countBytes abracadabra)).1.drop 5 =
    [.internal 2 0 2 3, .internal 4 1 1 4, .internal 6 2 5 6, .internal 11 3 0 7] := by decide +kernel

set_option Elab.async false in
/-- V-S1, V-C1: the artifact of "aaaa", 19 bytes. -/
theorem test_artifact_aaaa : artifact aaaa = aaaaArtifact := by decide +kernel

set_option Elab.async false in
/-- V-T2: a leaf is taken before an internal node of the same frequency. -/
theorem test_tree_tie : (buildTree (countBytes [0, 1, 2, 2, 3, 3, 3, 3])).1.drop 4 =
    [.internal 2 0 0 1, .internal 4 1 2 4, .internal 8 2 3 5] := by decide +kernel

set_option Elab.async false in
/-- V-K6: b is the left child. -/
theorem test_codes_aab :
    tableGet (codesOf (countBytes [0x61, 0x61, 0x62])) 0x61 = [true] ∧
    tableGet (codesOf (countBytes [0x61, 0x61, 0x62])) 0x62 = [false] := by decide +kernel

set_option Elab.async false in
/-- V-K1: the window words of "abracadabra". -/
theorem test_windows_abracadabra :
    let e := { Engine.reset with codes := codesOf (countBytes abracadabra) }
    [0x1B10, 0x2C40, 0x2C60, 0x2C80, 0x2E40, 0x2C20, 0x2C48].map e.windowWord =
      [3, 0xC000000000000000, 0x8000000000000000, 0xA000000000000000, 0xE000000000000000, 0, 0] := by decide +kernel

/-- V-P4. -/
theorem test_pack : pack [true, false, true, true, false] = ([0xB0], 3) := by decide +kernel

/-- V-P10: padding bits are dropped unchecked. -/
theorem test_unpack : unpack [0x0F] 4 = some [false, false, false, false] ∧ unpack [] 1 = none := by decide +kernel

/-- V-H8, V-H18, V-H20's step 12 on a shorter header: a duplicate symbol, no symbol, padding past the payload. -/
theorem test_header_errors :
    parseHeader (2 ^ 56 - 1) ([0, 0, 0, 2] ++ [0, 0, 0, 0x61, 0, 0, 0, 0, 0, 0, 0, 1] ++
      [0, 0, 0, 0x61, 0, 0, 0, 0, 0, 0, 0, 1] ++ [6, 0, 0x40]) = .error .malformedHeader 16 ∧
    parseHeader (2 ^ 56 - 1) [0, 0, 0, 0, 0, 0] = .error .emptyInput 0 ∧
    parseHeader (2 ^ 56 - 1) (aaaaArtifact.take 18) = .error .corruptPadding 16 := by decide +kernel

/-! ## The host, the status and reset -/

/-- V-R1, V-R2. -/
theorem test_reset_reads :
    [0x000, 0x008, 0x018, 0x010, 0x068, 0x0FF8].map State.reset.readValue = [0x0000000148554646, 0, 0, 0, 0, 0] := by
  decide +kernel

/-- V-R4: reserved bits of `CTRL` read 0. -/
theorem test_ctrl_reserved : (after (step (hostTurn (.write 0x008 .w64 0xFFFFFFFFFFFFFFFF)))).readValue 0x008 = 1 := by
  decide +kernel

/-- V-R3: a write of `ID` is ignored. -/
theorem test_id_read_only : (after (step (hostTurn (.write 0x000 .w64 5)))).readValue 0x000 = 0x0000000148554646 := by
  decide +kernel

/-- R145: the reset input abandons a running command. -/
theorem test_reset_input :
    results (step { job aaaa 0 .analyze with sched := [.reset] }) = [0, 0, 0, 0, 0, 0] := by decide +kernel

/-- R48: the last command's byte is seen once its `DONE = 1` is read, inside an earlier command's unread range too;
the rest of that range is not. -/
theorem test_read_of_done_releases :
    let s := { State.reset with
      regs := { State.reset.regs with done := true }
      unseen := [⟨0x4001, 2⟩, ⟨0x3FFF, 6⟩] }
    [0x3FFF, 0x4000, 0x4001, 0x4002, 0x4003, 0x4004, 0x4005].map (hostRead 0x018 s).notSeen =
      [true, true, false, false, true, true, false] := by decide +kernel

/-- R66: `WAIT` stays while `DONE = 0`. -/
theorem test_wait_stays :
    (after (step { job aaaa 8 .compress with host := [.wait], sched := [.host] })).host = [.wait] ∧
    (after (step { hostTurn .wait with regs := { State.reset.regs with done := true } })).host = [] := by
  decide +kernel

theorem test_reset_memory_wf : memWf State.reset.mem = true := by decide

/-! ## Witnesses: states and operands that meet the hypotheses of the statements, clause by clause -/

theorem eq_next_after {o : Host.Outcome State Fault Refusal} (h : goesOn o = true) : o = .next (after o) := by
  cases o with
  | next t => rfl
  | fault f => exact absurd h Bool.false_ne_true
  | refused r => exact absurd h Bool.false_ne_true

/-- The state a command's meaning leaves. -/
def afterExec (i : Instr) (s : State) : State := after (exec i s)

/-- `job`, with its phase set. -/
def jobIn (i : Instr) (p : Phase) : State := (job aaaa 64 i).goto p

/-- `jobIn`, on memory that answers no access. -/
def unanswered (i : Instr) (p : Phase) : State := { jobIn i p with cfg := ⟨64, 4, []⟩ }

/-- A state with its engine's loop variables set. -/
def withEng (s : State) (f : Engine → Engine) : State := { s with eng := f s.eng }

/-- Reset, with a command completed that wrote the byte at 0x4000. -/
def completed : State :=
  { State.reset with
    regs := { State.reset.regs with done := true }
    unseen := [⟨0x4000, 1⟩] }

/-- The header holds a table. -/
def isTable : HeaderResult → Bool
  | .table _ _ _ _ _ => true
  | _ => false

theorem test_meets_StepRunsDecodedCommand :
    Instr.compress.wf = true ∧ (job aaaa 19 .compress).regs.busy = true ∧
    decode (job aaaa 19 .compress).regs.cmd = .ok .compress ∧ (job aaaa 19 .compress).sched = [] := by decide

theorem test_meets_StepRunsDecodedCommand_scheduled :
    let s := { job aaaa 19 .analyze with sched := [.engine, .host] }
    Instr.analyze.wf = true ∧ s.regs.busy = true ∧ decode s.regs.cmd = .ok .analyze ∧
    s.sched.head? = some .engine := by decide

theorem test_meets_StepFollowsSchedule :
    ({ State.reset with sched := [.host] } : State).sched = .host :: [] ∧
    ({ State.reset with sched := [.reset] } : State).sched = .reset :: [] ∧
    ({ State.reset with sched := [.engine] } : State).sched = .engine :: [] ∧
    ({ State.reset with sched := [.engine] } : State).regs.busy = false ∧
    State.reset.sched = [] ∧ State.reset.regs.busy = false ∧ State.reset.host = [] := by decide

theorem test_meets_PlacedCommandRuns : Instr.nop.wf = true ∧ Instr.analyze.wf = true := by decide

theorem test_meets_ExecIsEngineSteps :
    (job aaaa 8 .nop).sched = [] ∧ exec .nop (job aaaa 8 .nop) = .next (afterExec .nop (job aaaa 8 .nop)) :=
  ⟨rfl, eq_next_after (by decide +kernel)⟩

theorem test_meets_ExecIsEngineSteps_scheduled :
    ({ job aaaa 8 .nop with sched := [.engine] } : State).sched = .engine :: [] ∧
    stepOf .nop { job aaaa 8 .nop with sched := [] } = .ok ((job aaaa 8 .nop).goto .finish) :=
  ⟨rfl, rfl⟩

theorem test_meets_RegisterReadHasNoSideEffect :
    (hostTurn (.read 0x018 .w64)).sched = .host :: [] ∧
    (hostTurn (.read 0x018 .w64)).host = .read 0x018 .w64 :: [] ∧ (0x018#14).toNat % 8 = 0 := by decide

/-- The last window word, and while a command runs. -/
theorem test_meets_RegisterReadHasNoSideEffect_window :
    let s := { job aaaa 8 .analyze with host := [.read 0x3FF8 .w64], sched := [.host] }
    s.sched = .host :: [] ∧ s.host = .read 0x3FF8 .w64 :: [] ∧ (0x3FF8#14).toNat % 8 = 0 := by decide

theorem test_meets_RegisterReadValues : 0x068 ≤ 0x0FF8 ∧ 0x0FF8 < 0x1000 ∧ 0x068 ≤ 0x068 := by decide

theorem test_meets_WindowsReadTheTables :
    State.reset.regs.busy = false ∧ State.reset.winDraw = none ∧ 3 < 4 ∧ 63 < 64 := by decide

/-- The first and the last window word while a command runs. -/
theorem test_meets_WindowsReadTheTables_busy :
    (job aaaa 8 .analyze).regs.busy = true ∧ 0x1000 ≤ 0x1000 ∧ 0x1000 ≤ 0x3FF8 := by decide

theorem test_meets_NarrowAccessRefused :
    (hostTurn (.read 0x018 .w32)).sched = .host :: [] ∧ (hostTurn (.read 0x018 .w32)).host = [.read 0x018 .w32] ∧
    AccessWidth.w32 ≠ .w64 := by decide

theorem test_meets_NarrowAccessRefused_misaligned :
    (hostTurn (.write 0x021 .w64 7)).sched = .host :: [] ∧
    (hostTurn (.write 0x021 .w64 7)).host = [.write 0x021 .w64 7] ∧ (0x021#14).toNat % 8 ≠ 0 := by decide

theorem test_meets_StatusAndCtrlFields : (2 ≤ 2 ∧ 2 < 8) ∧ (2 ≤ 7 ∧ 7 < 8) ∧ 16 ≤ 16 ∧ 1 ≤ 63 := by decide

theorem test_meets_InterruptFollowsDoneAndEnable :
    completed.regs.busy = false ∧ (2#64).getLsbD 1 = true := by decide

theorem test_meets_WritesIgnoredWhileBusy :
    let s := { job aaaa 8 .compress with host := [.write 0x020 .w64 7], sched := [.host] }
    s.sched = .host :: [] ∧ s.host = .write 0x020 .w64 7 :: [] ∧ (0x020#14).toNat % 8 = 0 ∧
    s.regs.busy = true := by decide

/-- The one register a running command leaves open. -/
theorem test_meets_WritesIgnoredWhileBusy_ctrl :
    let s := { job aaaa 8 .compress with host := [.write 0x008 .w64 1], sched := [.host] }
    s.sched = .host :: [] ∧ s.host = .write 0x008 .w64 1 :: [] ∧ (0x008#14).toNat % 8 = 0 ∧
    s.regs.busy = true := by decide

theorem test_meets_IdleWrites :
    State.reset.regs.busy = false ∧
    0x000 ∉ [0x008, 0x010, 0x018, 0x020, 0x028, 0x030, 0x038] ∧
    0x040 ∉ [0x008, 0x010, 0x018, 0x020, 0x028, 0x030, 0x038] ∧
    0x3FF8 ∉ [0x008, 0x010, 0x018, 0x020, 0x028, 0x030, 0x038] := by decide

theorem test_meets_WriteToCmdIssues :
    (hostTurn (.write 0x010 .w64 0x104)).sched = .host :: [] ∧
    (hostTurn (.write 0x010 .w64 0x104)).host = .write 0x010 .w64 0x104 :: [] ∧
    (hostTurn (.write 0x010 .w64 0x104)).regs.busy = false := by decide

theorem test_meets_HostLoadReturnsStore :
    State.reset.hostAccess (2 ^ 64 - 1) = .ok () ∧ State.reset.mayStore (2 ^ 64 - 1) = true ∧
    State.reset.mayLoad (2 ^ 64 - 1) = true ∧ State.reset.notSeen (2 ^ 64 - 1) = false := by decide +kernel

/-- The host's turn: a store with its first and its last byte to do, a load of a byte the host sees and of one it is
not promised to see, and a load and a store past a space of 16 bits. -/
theorem test_meets_HostLoadReturnsStore_turns :
    let w := hostTurn (.store (2 ^ 64 - 1) [7, 8])
    let e := hostTurn (.store 0x200 [])
    let l := hostTurn (.load 0x3FFF)
    let u := { hostTurn (.load 0x4000) with unseen := [⟨0x4000, 1⟩] }
    let o := { hostTurn (.load 0x10000) with cfg := ⟨16, 4, []⟩ }
    let p := { hostTurn (.store 0x10000 [7]) with cfg := ⟨16, 4, []⟩ }
    w.sched = .host :: [] ∧ w.host = .store (2 ^ 64 - 1) (7 :: [8]) :: [] ∧ w.mayStore (2 ^ 64 - 1) = true ∧
    w.hostAccess (2 ^ 64 - 1) = .ok () ∧ e.host = .store 0x200 [] :: [] ∧
    l.host = .load 0x3FFF :: [] ∧ l.mayLoad 0x3FFF = true ∧ l.hostAccess 0x3FFF = .ok () ∧ l.notSeen 0x3FFF = false ∧
    u.mayLoad 0x4000 = true ∧ u.hostAccess 0x4000 = .ok () ∧ u.notSeen 0x4000 = true ∧
    o.host = .load 0x10000 :: [] ∧ o.mayLoad 0x10000 = true ∧ 2 ^ o.cfg.addrW ≤ 0x10000 ∧
    p.sched = .host :: [] ∧ p.host = .store 0x10000 (7 :: []) :: [] ∧ p.mayStore 0x10000 = true ∧
    2 ^ p.cfg.addrW ≤ 0x10000 := by decide +kernel

/-- `WAIT` with and without a completion. -/
theorem test_meets_HostLoadReturnsStore_wait :
    let s := { job aaaa 8 .compress with host := [.wait], sched := [.host] }
    let t := { completed with host := [.wait], sched := [.host] }
    s.sched = .host :: [] ∧ s.host = .wait :: [] ∧ s.regs.done = false ∧
    t.sched = .host :: [] ∧ t.host = .wait :: [] ∧ t.regs.done = true := by decide

/-- The first and the last byte of each buffer. -/
theorem test_meets_BusyBuffersAreRefused :
    let s := job aaaa 19 .compress
    s.regs.busy = true ∧ s.regs.source.contains 0x100 = true ∧ s.regs.source.contains 0x103 = true ∧
    s.regs.dest.contains 0x4000 = true ∧ s.regs.dest.contains 0x4012 = true := by decide

theorem test_meets_CompletionReleasesWrites :
    completed.unseen = [⟨0x4000, 1⟩] ∧ completed.regs.done = true ∧ completed.regs.busy = false ∧
    completed.hostAccess 0x4000 = .ok () ∧ completed.notSeen 0x4000 = true := by decide +kernel

/-- An earlier command's unread range around it: the last command's byte, and a byte of neither. -/
theorem test_meets_CompletionReleasesWrites_overlap :
    let p : Span := ⟨0x4000, 1⟩
    let q : Span := ⟨0x3FFF, 4⟩
    p.contains 0x4000 = true ∧ q.contains 0x4000 = true ∧ ∀ r ∈ [q], r.contains 0x3FFE = false := by decide

/-- The last byte of a destination, and of a planned range. -/
theorem test_meets_CompletionReleasesWrites_ends :
    let s := (job aaaa 19 .compress).setResults 19 4 1 4
    s.hostAccess 0x4012 = .ok () ∧ s.dstAddr 0 ≤ 0x4012 ∧ 0x4012 < s.dstAddr s.regs.dstLen.toNat ∧
    ErrCode.lengthMismatch ∈ [.unsupportedSymbol, .lengthMismatch, .undecodableStream] ∧
    0x4012 < s.dstAddr 19 := by decide +kernel

theorem test_meets_ResetValues : 0 < 1 ∧ 1 < 0x4000 ∧ 0 < 0x3FF8 ∧ 0x3FF8 < 0x4000 := by decide

theorem test_meets_ResetInputRestoresTheCore :
    let s := { job aaaa 19 .compress with sched := [.reset] }
    s.sched = .reset :: [] ∧ s.eng.phase = .check := by decide

theorem test_meets_ResetInputRestoresTheCore_idle :
    let s := { State.reset with sched := [.reset] }
    s.sched = .reset :: [] ∧ s.eng.phase = .idle := by decide

/-- The phases on both sides of PLAN. -/
theorem test_meets_AbandonedRange :
    decode (jobIn .compress .plan).regs.cmd = .ok .compress ∧
    (jobIn .compress .plan).eng.phase ∈ [.check, .count, .tree, .codes, .plan] ∧
    (jobIn .compress .writeHdr).eng.phase ∈ [.writeHdr, .encode, .finish] ∧
    decode (jobIn .decompress .plan).regs.cmd = .ok .decompress ∧
    (jobIn .decompress .plan).eng.phase ∈ [.check, .readHdr, .plan] ∧
    (jobIn .decompress .tree).eng.phase ∈ [.tree, .codes, .decode, .finish] ∧
    decode (jobIn .nop .check).regs.cmd = .ok .nop ∧ decode (jobIn .analyze .count).regs.cmd = .ok .analyze ∧
    decode (operands 0 0 0 0 4).regs.cmd = .error .opcodeUnassigned := by decide

theorem test_meets_DestinationAfterError :
    ErrCode.malformedHeader ∉ [.unsupportedSymbol, .lengthMismatch, .undecodableStream] := by decide

theorem test_meets_WindowsAfterError :
    0x1000 ≤ 0x1000 ∧ 0x1000 ≤ 0x3FF8 ∧ ErrCode.badBuffer ∈ [.illegalCmd, .badBuffer] ∧
    ErrCode.outputOverflow ∉ [.illegalCmd, .badBuffer] := by decide

theorem test_meets_IllegalWordCompletes :
    (operands 0 0 0 0 0x104).Fresh ∧ (operands 0 0 0 0 0x104).regs.busy = true ∧
    decode (operands 0 0 0 0 0x104).regs.cmd = .error .mbzNotZero := by decide

/-- V-X6, V-X8, V-X9: each bound, one past its last legal value. -/
theorem test_meets_BufferChecks_refused :
    (operands 0xFFFFFFFFFFFFFFFC 5 0 0 1).checkBoth = some 1 ∧
    (operands 0xFFFFFFFFFFFFFFFC 5 0 0 3).checkSrc = some 1 ∧
    (operands 0 0x0100000000000000 0 0 1).checkBoth = some 2 ∧
    (operands 0 0x0100000000000000 0 0 3).checkSrc = some 2 ∧
    (operands 0x10000 11 0xFFFFFFFFFFFFFFF0 0x20 1).checkBoth = some 3 ∧
    (operands 0x10000 11 0x1000A 0x100 1).checkBoth = some 4 := by decide

/-- V-X7, V-X11, V-X12: the last legal value of each bound. -/
theorem test_meets_BufferChecks_accepted :
    (operands 0xFFFFFFFFFFFFFFFC 4 0x20000 0x100 1).checkBoth = none ∧
    (operands 0x10000 11 0x1000B 0x100 1).checkBoth = none ∧
    (operands 0x10000 11 0x10005 0 1).checkBoth = none := by decide

theorem test_meets_RefusedBuffersComplete :
    (operands 0x10000 11 0x1000A 0x100 1).Fresh ∧ (operands 0x10000 11 0x1000A 0x100 1).checkBoth = some 4 ∧
    (operands 0 0x0100000000000000 0 0 3).Fresh ∧ (operands 0 0x0100000000000000 0 0 3).checkSrc = some 2 := by decide

theorem test_meets_UnansweredAccessIsStuck_reads :
    let c := unanswered .compress .count
    let a := { unanswered .analyze .count with sched := [.engine] }
    let e := unanswered .compress .encode
    let h := unanswered .decompress .readHdr
    let d := withEng (unanswered .decompress .decode) fun g => { g with payload := 1, n := 1 }
    c.sched = [] ∧ a.sched = .engine :: [] ∧
    c.nextAccess .compress = some (0x100, false) ∧ c.access 0x100 false = .stuck ∧
    a.nextAccess .analyze = some (0x100, false) ∧ a.access 0x100 false = .stuck ∧
    e.nextAccess .compress = some (0x100, false) ∧ e.access 0x100 false = .stuck ∧
    h.nextAccess .decompress = some (0x100, false) ∧ h.access 0x100 false = .stuck ∧
    d.nextAccess .decompress = some (0x112, false) ∧ d.access 0x112 false = .stuck := by decide +kernel

set_option Elab.async false in
/-- The writes: the last header byte, an eighth bit, the last partial byte and a decoded symbol. -/
theorem test_meets_UnansweredAccessIsStuck_writes :
    let w := withEng (unanswered .compress .writeHdr) fun g => { g with out := 5 }
    let b := withEng (unanswered .compress .encode) fun g => { g with nb := 7, out := 18, pending := [true] }
    let f := withEng (unanswered .compress .encode) fun g => { g with idx := 4, nb := 1, out := 18 }
    let d := withEng (unanswered .decompress .decode) fun g =>
      { g with payload := 1, fetched := true, total := 4, decode := [([false], 0x61)] }
    w.nextAccess .compress = some (0x4005, true) ∧ w.access 0x4005 true = .stuck ∧
    b.nextAccess .compress = some (0x4012, true) ∧ b.access 0x4012 true = .stuck ∧
    f.nextAccess .compress = some (0x4012, true) ∧ f.access 0x4012 true = .stuck ∧
    d.nextAccess .decompress = some (0x4000, true) ∧ d.access 0x4000 true = .stuck := by decide +kernel

/-- A step that is stuck. -/
theorem test_meets_UnansweredAccessIsStuck_stuck :
    stepOf .decompress (unanswered .decompress .readHdr) = .stuck := by decide +kernel

theorem test_meets_NopCompletes : (job aaaa 8 .nop).Fresh ∧ (job aaaa 8 .nop).ControlWf := by decide

theorem test_meets_CountsAreOccurrences : aaaa.length < 2 ^ 64 ∧ List.Perm [0x62#8, 0x61#8] [0x61#8, 0x62#8] :=
  ⟨by decide, List.Perm.swap _ _ _⟩

theorem test_meets_MinKeyIsLeast : minKey [.leaf 2 0x61, .leaf 1 0x62] [0, 1] = some 1 := by decide

/-- R79: frequency before kind, kind before tag. -/
theorem test_key_order :
    keyLt (1, 1, 5) (2, 0, 0) = true ∧ keyLt (2, 0, 9) (2, 1, 0) = true ∧ keyLt (2, 1, 0) (2, 1, 1) = true ∧
    keyLt (2, 1, 1) (2, 1, 1) = false := by decide

set_option Elab.async false in
theorem test_meets_TreeKeysAreDistinct :
    2 < (buildTree (countBytes [0x61, 0x62])).1.length ∧
    (nodeAt (buildTree (countBytes [0x61, 0x62])).1 2).key = (nodeAt (buildTree (countBytes [0x61, 0x62])).1 2).key :=
  ⟨by decide +kernel, rfl⟩

/-- The smallest table with a tree. -/
theorem test_meets_TreeSize : 1 ≤ distinct (countBytes aaaa) := (countBytes_spec (by decide) (by decide)).1

set_option Elab.async false in
theorem test_meets_TreeFrequencies :
    8 < (buildTree (countBytes abracadabra)).1.length ∧
    nodeAt (buildTree (countBytes abracadabra)).1 8 = .internal 11 3 0 7 ∧
    1 ≤ distinct (countBytes abracadabra) := by decide +kernel

theorem test_meets_CodeLengths :
    1 ≤ distinct (countBytes aaaa) ∧ tableGet (countBytes aaaa) 0x61 ≠ 0 ∧ tableGet (countBytes aaaa) 0x62 = 0 :=
  ⟨(countBytes_spec (by decide) (by decide)).1, by decide +kernel, by decide +kernel⟩

theorem test_meets_CodesArePrefixFree :
    tableGet (countBytes abracadabra) 0x61 ≠ 0 ∧ tableGet (countBytes abracadabra) 0x72 ≠ 0 ∧
    (0x61 : Byte) ≠ 0x72 :=
  ⟨by decide +kernel, by decide +kernel, by decide⟩

set_option Elab.async false in
theorem test_meets_CodesAreComplete :
    2 ≤ distinct (countBytes [0x61, 0x62]) ∧ present (countBytes aaaa) = [0x61] := by decide +kernel

set_option Elab.async false in
theorem test_meets_ReverseLookupInverts :
    1 ≤ distinct (countBytes aaaa) ∧
    reverseLookup (decodeMap (assignments (buildTree (countBytes aaaa)).1 (buildTree (countBytes aaaa)).2)) [false] =
      some 0x61 := by decide +kernel

/-- Both aligned lengths, and the first and the last bit of a payload of two bytes. -/
theorem test_meets_PackLength :
    ([] : Bits).length % 8 = 0 ∧ (List.replicate 8 true).length % 8 = 0 ∧
    0 < 8 * (pack (List.replicate 9 true)).1.length ∧ 15 < 8 * (pack (List.replicate 9 true)).1.length := by decide

theorem test_meets_ArtifactLength : aaaa ≠ [] ∧ aaaa.length < 2 ^ 64 ∧ 3 < 4 ∧ 2 < 3 ∧ 7 < 8 := by decide

set_option Elab.async false in
theorem test_meets_ArtifactLength_entry : (present (countBytes abracadabra))[4]? = some 0x72 := by decide +kernel

theorem test_meets_HeaderReadsBack : aaaa ≠ [] ∧ aaaa.length ≤ 4 ∧ 4 < 2 ^ 64 := by decide

theorem test_meets_WalkDecodesArtifact : abracadabra ≠ [] ∧ abracadabra.length < 2 ^ 64 := by decide

/-- V-C19 and V-C18. -/
theorem test_meets_CompressOfEmptyInput :
    (job [] 6 .compress).Fresh ∧ (job [] 6 .compress).checkBoth = none ∧ (job [] 6 .compress).regs.srcLen = 0 ∧
    6 ≤ (job [] 6 .compress).regs.dstCap.toNat ∧ (job [] 6 .compress).AdmitsDest 6 ∧
    (job [] 5 .compress).Fresh ∧ (job [] 5 .compress).checkBoth = none ∧
    (job [] 5 .compress).regs.dstCap.toNat < 6 := by decide +kernel

set_option Elab.async false in
/-- V-C1's bytes with the smallest capacity that takes the artifact. -/
theorem test_meets_CompressWritesArtifact :
    let s := job aaaa 19 .compress
    s.Fresh ∧ s.cfg.wf = true ∧ s.checkBoth = none ∧ s.regs.srcLen ≠ 0 ∧ s.AdmitsSource ∧
    (artifact s.sourceBytes).length ≤ s.regs.dstCap.toNat ∧ s.AdmitsDest (artifact s.sourceBytes).length := by
  decide +kernel

set_option Elab.async false in
theorem test_meets_CompressWritesArtifact_overflow :
    let s := job aaaa 18 .compress
    s.Fresh ∧ s.cfg.wf = true ∧ s.checkBoth = none ∧ s.regs.srcLen ≠ 0 ∧ s.AdmitsSource ∧
    s.regs.dstCap.toNat < (artifact s.sourceBytes).length := by decide +kernel

/-- A byte with no code. -/
theorem test_meets_EncodeChecks :
    let s := jobIn .compress .encode
    s.sched = [] ∧ s.eng.phase = .encode ∧ s.eng.pending = [] ∧ s.eng.idx < s.regs.srcLen.toNat ∧
    s.access (s.srcAddr s.eng.idx) false = .ok () ∧ s.byteAt (s.srcAddr s.eng.idx) = 0x61 ∧
    codeLen s.eng.codes 0x61 = 0 := by decide +kernel

/-- A code past `B = 0` bits. -/
theorem test_meets_EncodeChecks_long :
    let s := jobIn .compress .encode
    let e := { s.eng with codes := tablePut s.eng.codes 0x61 [true] }
    let t := { s with eng := e }
    t.eng.phase = .encode ∧ t.eng.pending = [] ∧ t.byteAt (t.srcAddr t.eng.idx) = 0x61 ∧
    0 < codeLen t.eng.codes 0x61 ∧ t.eng.bits < t.eng.packed + codeLen t.eng.codes 0x61 := by decide +kernel

/-- A total other than `B`. -/
theorem test_meets_EncodeChecks_end :
    let s := jobIn .compress .encode
    let t := { s with eng := { s.eng with idx := 4, bits := 4 } }
    t.sched = [] ∧ t.eng.phase = .encode ∧ t.eng.pending = [] ∧ t.eng.idx = t.regs.srcLen.toNat ∧
    t.eng.packed ≠ t.eng.bits := by decide +kernel

theorem test_meets_CompressFrame :
    let s := { job aaaa 19 .compress with sched := [.engine] }
    s.CompressWf ∧ exec .compress s = .next (afterExec .compress s) :=
  ⟨True.intro, eq_next_after (by decide +kernel)⟩

set_option Elab.async false in
/-- The last phase before any byte is written. -/
theorem test_meets_CompressFrame_plan :
    let s := { jobIn .compress .plan with sched := [.engine] }
    s.CompressWf ∧ exec .compress s = .next (afterExec .compress s) ∧ s.sched = .engine :: [] ∧
    s.eng.phase ∈ [.check, .count, .tree, .codes, .plan] :=
  ⟨⟨by decide, by decide +kernel⟩, eq_next_after (by decide +kernel), rfl, by decide⟩

set_option Elab.async false in
/-- The table branch, with an output that just fits. -/
theorem test_meets_DecompressFollowsArtifact :
    let s := job aaaaArtifact 4 .decompress
    s.Fresh ∧ s.cfg.wf = true ∧ s.checkBoth = none ∧ s.AdmitsSource ∧ s.AdmitsDest s.regs.dstCap.toNat ∧
    isTable (parseHeader s.cfg.maxSrcLen s.sourceBytes) = true := by decide +kernel

set_option Elab.async false in
/-- The other branches: V-H1, V-H17, V-D2's overflow, V-D11, V-D9. -/
theorem test_meets_DecompressFollowsArtifact_branches :
    parseHeader (2 ^ 56 - 1) [] = .error .malformedHeader 0 ∧
    parseHeader (2 ^ 56 - 1) [0, 0, 0, 0, 0, 1] = .empty ∧
    (job aaaaArtifact 3 .decompress).regs.dstCap.toNat < 4 ∧
    decodeArtifact aaaaArtifact (countBytes aaaa) 1 4 3 = .lengthMismatch 5 ∧
    decodeArtifact (aaaaArtifact.take 18 ++ [0x20]) (countBytes aaaa) 1 4 4 = .undecodable 2 := by decide +kernel

set_option Elab.async false in
theorem test_meets_DecompressInvertsCompress :
    let s := job aaaaArtifact 4 .decompress
    s.Fresh ∧ s.cfg.wf = true ∧ s.checkBoth = none ∧ s.AdmitsSource ∧ s.AdmitsDest aaaa.length ∧
    aaaa.length ≤ s.cfg.maxSrcLen ∧ s.sourceBytes = artifact aaaa ∧ aaaa.length ≤ s.regs.dstCap.toNat := by
  decide +kernel

set_option Elab.async false in
/-- The empty input, with no room at the destination. -/
theorem test_meets_DecompressInvertsCompress_empty :
    let s := job [0, 0, 0, 0, 0, 1] 0 .decompress
    s.Fresh ∧ s.cfg.wf = true ∧ s.checkBoth = none ∧ s.AdmitsSource ∧ s.AdmitsDest 0 ∧
    s.sourceBytes = artifact [] ∧ 0 ≤ s.regs.dstCap.toNat := by decide +kernel

set_option Elab.async false in
theorem test_meets_DecompressFrame :
    (job aaaaArtifact 4 .decompress).DecompressWf ∧
    exec .decompress (job aaaaArtifact 4 .decompress) =
      .next (afterExec .decompress (job aaaaArtifact 4 .decompress)) :=
  ⟨True.intro, eq_next_after (by decide +kernel)⟩

theorem test_meets_DecompressFrame_readHdr :
    let s := { jobIn .decompress .readHdr with sched := [.engine] }
    s.DecompressWf ∧ exec .decompress s = .next (afterExec .decompress s) ∧ s.sched = .engine :: [] ∧
    s.eng.phase ∈ [.check, .readHdr, .plan, .tree, .codes] :=
  ⟨⟨by decide, .inl (by decide)⟩, eq_next_after (by decide +kernel), rfl, by decide⟩

/-- V-X15 and V-X14: the empty source, and a source with a destination past the address space. -/
theorem test_meets_AnalyzeReportsTables :
    let s := job [] 0 .analyze
    let t := { job aaaa 0x20 .analyze with
      regs := { (job aaaa 0x20 .analyze).regs with dstBase := 0xFFFFFFFFFFFFFFF0 } }
    s.Fresh ∧ s.cfg.wf = true ∧ s.checkSrc = none ∧ s.regs.srcLen = 0 ∧
    t.Fresh ∧ t.cfg.wf = true ∧ t.checkSrc = none ∧ t.regs.srcLen ≠ 0 ∧ t.AdmitsSource := by decide +kernel

set_option Elab.async false in
theorem test_meets_NopAndAnalyzeFrame :
    exec .nop (job aaaa 8 .nop) = .next (afterExec .nop (job aaaa 8 .nop)) ∧
    exec .analyze (job aaaa 8 .analyze) = .next (afterExec .analyze (job aaaa 8 .analyze)) :=
  ⟨eq_next_after (by decide +kernel), eq_next_after (by decide +kernel)⟩

set_option Elab.async false in
theorem test_meets_StepKeepsMemoryCanonical :
    memWf (job aaaaArtifact 4 .decompress).mem = true ∧
    step (job aaaaArtifact 4 .decompress) = .next (after (step (job aaaaArtifact 4 .decompress))) :=
  ⟨by decide +kernel, eq_next_after (by decide +kernel)⟩

/-- A command that runs, one engine step of it scheduled. -/
theorem test_meets_StepKeepsControl :
    let s := { job aaaa 19 .compress with sched := [.engine, .host] }
    s.ControlWf ∧ step s = .next (after (step s)) :=
  ⟨by decide, eq_next_after (by decide +kernel)⟩

theorem test_meets_StepKeepsWorkingState :
    let s := { job aaaaArtifact 4 .decompress with sched := [.engine, .host] }
    s.ControlWf ∧ s.EngineWf ∧ step s = .next (after (step s)) :=
  ⟨by decide, True.intro, eq_next_after (by decide +kernel)⟩

theorem test_meets_EngineWritesOnlyTheDestination :
    let s := { job aaaa 19 .compress with sched := [.engine] }
    s.ControlWf ∧ s.EngineWf ∧ s.regs.busy = true ∧ s.sched.head? = some .engine ∧ step s = .next (after (step s)) ∧
    s.regs.dest.contains 0x3FFF = false ∧ s.regs.dest.contains 0x4013 = false :=
  ⟨by decide, True.intro, rfl, rfl, eq_next_after (by decide +kernel), by decide, by decide⟩

theorem test_meets_EngineNeverFaults :
    let s := { job aaaa 19 .analyze with sched := [.engine] }
    s.ControlWf ∧ s.EngineWf ∧ s.regs.busy = true ∧ s.sched.head? = some .engine :=
  ⟨by decide, True.intro, rfl, rfl⟩

theorem test_meets_EveryCommandCompletes :
    (job aaaa 19 .compress).Fresh ∧ (job aaaa 19 .compress).cfg.wf = true ∧
    ∀ a w, a < 2 ^ (job aaaa 19 .compress).cfg.addrW → (job aaaa 19 .compress).access a w = .ok () := by
  refine ⟨by decide, by decide, fun a w h => ?_⟩
  have h' : a < 2 ^ 64 := h
  have hk : kindAt (job aaaa 19 .compress).cfg a = some (.memory true true) := by
    show kindAt Config.default a = _
    simp [kindAt, Config.default, regionHas]
    omega
  unfold State.access
  rw [if_neg (Nat.not_le.2 h), hk]
  cases w <;> rfl

end Sys2Proof.Tests
end

/-! PROOFS. The invariants of every step, the register map and the windows (spec/10_state.md). -/

namespace Sys2Proof.Machine

open Sys2Proof

/-! ## The step, one agent at a time -/

/-- The single engine step of a command word: a word that is no command runs the illegal command (R109, R111). -/
def stepOfWord (w : Word) : State → Answer State :=
  match decode w with
  | .ok i    => stepOf i
  | .error _ => illegalStep

theorem stepOfWord_of_command {w : Word} {i : Instr} (h : decode w = .ok i) : stepOfWord w = stepOf i := by
  simp [stepOfWord, h]

theorem stepOfWord_of_illegal {w : Word} {e : DecodeError} (h : decode w = .error e) :
    stepOfWord w = illegalStep := by
  simp [stepOfWord, h]

/-- An engine step of any word leaves the operands. -/
theorem stepOfWord_kept {w : Word} {s t : State} (h : stepOfWord w s = .ok t) : Kept s t := by
  cases hd : decode w with
  | ok i => rw [stepOfWord_of_command hd] at h; exact (stepOf_effect h).kept
  | error e => rw [stepOfWord_of_illegal hd] at h; exact (illegalStep_effect h).kept

theorem stepOfWord_keeps_cmd {w : Word} {s t : State} (h : stepOfWord w s = .ok t) : t.regs.cmd = s.regs.cmd := by
  obtain ⟨-, -, hcmd, -⟩ := (stepOfWord_kept h).operands
  exact hcmd

/-- An idle engine's step does nothing, whatever the word. -/
theorem stepOfWord_idle {w : Word} {s t : State} (hp : s.eng.phase = .idle) (h : stepOfWord w s = .ok t) :
    t = s := by
  cases hd : decode w with
  | ok i => rw [stepOfWord_of_command hd] at h; exact stepOf_idle hp h
  | error e => rw [stepOfWord_of_illegal hd] at h; exact illegalStep_idle hp h

/-- An engine step of a word in hand goes on in the word's sequence, or ends the command. -/
theorem stepOfWord_leads {w : Word} {s t : State} (hp : s.eng.phase ≠ .idle) (h : stepOfWord w s = .ok t) :
    GoesOn (phasesOfWord w) s t ∨ HasEnded t := by
  cases hd : decode w with
  | ok i =>
    rw [stepOfWord_of_command hd] at h
    simpa only [phasesOfWord, hd] using stepOf_leads hp h
  | error e => rw [stepOfWord_of_illegal hd] at h; exact .inr (illegalStep_leads hp h)

/-- A property that every single engine step, every host step, the reset input and the passing of a turn keep is kept
by every step of the machine. -/
theorem step_keeps {P : State → Prop}
    (engine : ∀ s t, P s → stepOfWord s.regs.cmd s = .ok t → P t)
    (host : ∀ s t, P s → HostEffect s t → P t)
    (reset : ∀ s : State, P s.assertReset)
    (pass : ∀ s r, P s → P { s with sched := r })
    {s t : State} (hs : P s) (h : step s = .next t) : P t := by
  have run (hr : s.engineRun (stepOfWord s.regs.cmd) = .next t) : P t := by
    refine (State.engineRun_induction (P := fun u => u.regs.cmd = s.regs.cmd ∧ P u) ?_ ?_ ⟨rfl, hs⟩ hr).2
    · rintro u v ⟨hcmd, hu⟩ hv
      exact ⟨(stepOfWord_keeps_cmd hv).trans hcmd, engine u v hu (hcmd ▸ hv)⟩
    · rintro u r ⟨hcmd, hu⟩
      exact ⟨hcmd, pass u r hu⟩
  rcases step_cases h with ⟨i, -, -, hd, he⟩ | ⟨e, -, -, hd, he⟩ | ⟨-, rfl⟩ | he | rfl
  · rw [exec_eq_engineRun, ← stepOfWord_of_command hd] at he
    exact run he
  · rw [execIllegal, ← stepOfWord_of_illegal hd] at he
    exact run he
  · exact pass _ _ hs
  · exact host _ _ (pass _ _ hs) (hostStep_effect he)
  · exact reset _

/-! ## The control invariant -/

/-- An idle core that is not busy is in step. -/
theorem State.controlWf_of_idle {s : State} (hp : s.eng.phase = .idle) (hb : s.regs.busy = false) :
    s.ControlWf := by
  simp [State.ControlWf, hp, hb]

theorem State.ControlWf.idle_of_not_busy {s : State} (hs : s.ControlWf) (hb : s.regs.busy = false) :
    s.eng.phase = .idle := by
  obtain ⟨hidle, -⟩ := hs
  exact hidle.2 hb

/-- The sequence of a command never passes through IDLE. -/
theorem idle_not_mem_phasesOfWord (w : Word) : Phase.idle ∉ phasesOfWord w := by
  cases hd : decode w with
  | ok i => cases i <;> simp [phasesOfWord, hd, phasesOf]
  | error e => simp [phasesOfWord, hd]

/-- A command that goes on in its sequence stays in step. -/
theorem GoesOn.controlWf {s t : State} (hs : s.ControlWf) (hp : s.eng.phase ≠ .idle)
    (h : GoesOn (phasesOfWord s.regs.cmd) s t) : t.ControlWf := by
  obtain ⟨hidle, hdone, herr, hres, -⟩ := hs
  obtain ⟨hr, hmem⟩ := h
  have hp' : t.eng.phase ≠ .idle := fun he => idle_not_mem_phasesOfWord _ (he ▸ hmem)
  rw [State.ControlWf, hr]
  exact ⟨iff_of_false hp' (mt hidle.2 hp), hdone, herr, hres, fun _ => hmem⟩

theorem stepOfWord_controlWf {s t : State} (hs : s.ControlWf) (h : stepOfWord s.regs.cmd s = .ok t) :
    t.ControlWf := by
  by_cases hp : s.eng.phase = .idle
  · rw [stepOfWord_idle hp h]; exact hs
  · rcases stepOfWord_leads hp h with hgo | ⟨hidle, hbusy, -⟩
    · exact GoesOn.controlWf hs hp hgo
    · exact State.controlWf_of_idle hidle hbusy

/-- An issued command is about to be dispatched, and CHECK starts every sequence. -/
theorem check_mem_phasesOfWord (w : Word) : Phase.check ∈ phasesOfWord w := by
  cases hd : decode w with
  | ok i => cases i <;> simp [phasesOfWord, hd, phasesOf]
  | error e => simp [phasesOfWord, hd]

theorem HostEffect.controlWf {s t : State} (hs : s.ControlWf) (h : HostEffect s t) : t.ControlWf := by
  cases h.core with
  | kept b hr he => rw [State.ControlWf, hr, he]; exact hs
  | issued w hb hr he =>
    rw [State.ControlWf, hr, he]
    simp [check_mem_phasesOfWord]
  | wrote hb hr he => exact State.controlWf_of_idle (he ▸ hs.idle_of_not_busy hb) hr

theorem State.assertReset_controlWf (s : State) : s.assertReset.ControlWf :=
  State.controlWf_of_idle rfl rfl

/-- Settles O55: each agent's step keeps the control invariant. -/
theorem stepKeepsControl : Obligations.StepKeepsControl := fun _ _ hs h =>
  step_keeps (P := State.ControlWf) (fun _ _ => stepOfWord_controlWf) (fun _ _ => HostEffect.controlWf)
    State.assertReset_controlWf (fun _ _ hu => hu) hs h

/-! ## The working state -/

/-- Nothing is asked of an engine that is idle or about to dispatch. -/
theorem State.engineWf_of_idle_or_check {s : State} (h : s.eng.phase = .idle ∨ s.eng.phase = .check) :
    s.EngineWf := by
  unfold State.EngineWf State.CompressWf State.DecompressWf State.AnalyzeWf
  rcases h with h | h <;> rw [h] <;> split <;> trivial

/-- The working-state invariant looks at the engine, the parameters and the registers but for `IRQ_EN`. -/
theorem State.EngineWf.congr {s t : State} {b : Bool} (hs : s.EngineWf) (hc : t.cfg = s.cfg)
    (hr : t.regs = { s.regs with irqEn := b }) (he : t.eng = s.eng) : t.EngineWf := by
  obtain ⟨cfg, regs, eng, mem, winDraw, unseen, draws, host, sched, hostReads⟩ := t
  cases hc; cases hr; cases he
  exact hs

theorem stepOfWord_engineWf {s t : State} (hs : s.EngineWf) (h : stepOfWord s.regs.cmd s = .ok t) :
    t.EngineWf := by
  unfold State.EngineWf at hs ⊢
  rw [stepOfWord_keeps_cmd h]
  cases hd : decode s.regs.cmd with
  | error e => trivial
  | ok i =>
    rw [hd] at hs
    rw [stepOfWord_of_command hd] at h
    cases i with
    | nop => trivial
    | compress => exact compressStep_wf hs h
    | decompress => exact decompressStep_wf hs h
    | analyze => exact analyzeStep_wf hs h

/-- A host step keeps the working state: it leaves the engine and its operands alone, or finds the core idle. -/
theorem HostEffect.engineWf {s t : State} (hc : s.ControlWf) (hs : s.EngineWf) (h : HostEffect s t) :
    t.EngineWf := by
  cases h.core with
  | kept b hr he => exact hs.congr h.cfg hr he
  | issued w hb hr he => exact State.engineWf_of_idle_or_check (.inr (by rw [he]))
  | wrote hb hr he => exact State.engineWf_of_idle_or_check (.inl (he ▸ hc.idle_of_not_busy hb))

/-- Settles O56: each agent's step keeps the working state, with the control invariant beside it. -/
theorem stepKeepsWorkingState : Obligations.StepKeepsWorkingState := fun _ _ hc hs h =>
  (step_keeps (P := fun u => u.ControlWf ∧ u.EngineWf)
    (fun _ _ hu hv => ⟨stepOfWord_controlWf hu.1 hv, stepOfWord_engineWf hu.2 hv⟩)
    (fun _ _ hu hv => ⟨HostEffect.controlWf hu.1 hv, HostEffect.engineWf hu.1 hu.2 hv⟩)
    (fun u => ⟨u.assertReset_controlWf, State.engineWf_of_idle_or_check (.inl rfl)⟩)
    (fun _ _ hu => hu) ⟨hc, hs⟩ h).2

/-- Settles O57: the reset core is idle and its memory lists nothing. -/
theorem resetMeetsInvariants : Obligations.ResetMeetsInvariants :=
  ⟨rfl, State.controlWf_of_idle rfl rfl, State.engineWf_of_idle_or_check (.inl rfl), by decide⟩

/-! ## Reads of registers -/

theorem regAt_regOffset (r : Reg) : regAt (regOffset r) = some r := by cases r <;> rfl

theorem regOffset_of_regAt {o : Nat} {r : Reg} (h : regAt o = some r) : regOffset r = o := by
  simpa using List.find?_some h

theorem regOffset_lt (r : Reg) : regOffset r < 0x068 := by cases r <;> decide

/-- The register map ends at 0x060 (R20). -/
theorem regAt_eq_none {o : Nat} (h : 0x068 ≤ o) : regAt o = none := by
  unfold regAt
  rw [List.find?_eq_none]
  intro r _
  have := regOffset_lt r
  simp only [beq_iff_eq]
  omega

/-- Below the windows no read draws (R32). -/
theorem State.readValue_low (s : State) {o : Nat} (h : o < 0x1000) : s.readValue o = s.apertureWord o := by
  simp [State.readValue, State.readDraws, h]

/-- While `BUSY = 0` no read draws (R32). -/
theorem State.readValue_idle {s : State} (hb : s.regs.busy = false) (o : Nat) : s.readValue o = s.apertureWord o := by
  simp [State.readValue, State.readDraws, hb]

/-- A register reads its word at its offset. -/
@[simp] theorem State.readValue_regOffset (s : State) (r : Reg) : s.readValue (regOffset r) = s.regs.word r := by
  have := regOffset_lt r
  rw [s.readValue_low (by omega), State.apertureWord, regAt_regOffset]

/-- Between the registers and the windows everything reads 0 (R21). -/
theorem State.readValue_unmapped (s : State) {o : Nat} (h : 0x068 ≤ o) (h' : o < 0x1000) : s.readValue o = 0 := by
  simp [s.readValue_low h', State.apertureWord, regAt_eq_none h, h']

/-- Settles O8: the word of each register of the map. -/
theorem registerReadValues : Obligations.RegisterReadValues := fun s =>
  ⟨s.readValue_regOffset .id, s.readValue_regOffset .ctrl, s.readValue_regOffset .cmd,
    s.readValue_regOffset .status, s.readValue_regOffset .srcBase, s.readValue_regOffset .srcLen,
    s.readValue_regOffset .dstBase, s.readValue_regOffset .dstCap, s.readValue_regOffset .dstLen,
    s.readValue_regOffset .errInfo, s.readValue_regOffset .bitLen, s.readValue_regOffset .symCount,
    s.readValue_regOffset .padCount, fun _ => s.readValue_unmapped⟩

/-! ## Reads of the windows -/

section Windows

variable {s : State} {o : Nat} (ho : 0x1000 ≤ o)
include ho

/-- While `BUSY = 1` a window read is the next draw (R32). -/
theorem State.readValue_window_busy (hb : s.regs.busy = true) : s.readValue o = Config.drawWindow s.draws o := by
  simp [State.readValue, State.readDraws, hb, ho]

/-- While `BUSY = 0` a window word that no error has spoilt reads the tables (R32). -/
theorem State.readValue_window_shown (hb : s.regs.busy = false) (hw : s.winDraw = none) :
    s.readValue o = s.eng.windowWord o := by
  rw [State.readValue_idle hb]
  simp [State.apertureWord, regAt_eq_none (show 0x068 ≤ o by omega), Nat.not_lt.2 ho, hw]

/-- While `BUSY = 0` a spoilt window word reads the windows' draw (R32). -/
theorem State.readValue_window_spoilt {d : Nat} (hb : s.regs.busy = false) (hw : s.winDraw = some d) :
    s.readValue o = Config.drawWindow d o := by
  rw [State.readValue_idle hb]
  simp [State.apertureWord, regAt_eq_none (show 0x068 ≤ o by omega), Nat.not_lt.2 ho, hw]

/-- A window read uses up a draw while `BUSY = 1` and nothing else. -/
theorem State.afterRead_window :
    s.afterRead o = if s.regs.busy = true then { s with draws := s.draws + 1 } else s := by
  simp [State.afterRead, State.readDraws, ho, show o ≠ 0x018 by omega]

end Windows

/-- `FREQ[b]` (R29). -/
theorem Engine.windowWord_freq (e : Engine) (b : Byte) :
    e.windowWord (0x1000 + 8 * b.toNat) = tableGet e.freq b := by
  have := b.isLt
  rw [Engine.windowWord, if_pos (by omega), show (0x1000 + 8 * b.toNat - 0x1000) / 8 = b.toNat by omega]
  simp

/-- `CODE_LEN[b]` (R30). -/
theorem Engine.windowWord_codeLen (e : Engine) (b : Byte) :
    e.windowWord (0x1800 + 8 * b.toNat) = BitVec.ofNat 64 (tableGet e.codes b).length := by
  have := b.isLt
  rw [Engine.windowWord, if_neg (by omega), if_pos (by omega),
    show (0x1800 + 8 * b.toNat - 0x1800) / 8 = b.toNat by omega]
  simp

/-- `CODE_BITS[b].w` (R31). -/
theorem Engine.windowWord_codeBits (e : Engine) (b : Byte) {w : Nat} (hw : w < 4) :
    e.windowWord (0x2000 + 32 * b.toNat + 8 * w) = codeBitsWord (tableGet e.codes b) w := by
  rw [Engine.windowWord, if_neg (by omega), if_neg (by omega),
    show (0x2000 + 32 * b.toNat + 8 * w - 0x2000) / 32 = b.toNat by omega,
    show (0x2000 + 32 * b.toNat + 8 * w - 0x2000) / 8 % 4 = w by omega]
  simp

/-- The code is left-justified: its bit `64 w + j` is bit `63 - j` of word `w` (R31). -/
theorem codeBitsWord_getLsbD (c : Bits) (w : Nat) {j : Nat} (hj : j < 64) :
    (codeBitsWord c w).getLsbD (63 - j) = c.getD (64 * w + j) false := by
  have hbit := bitsToNat_testBit ((List.range 64).map fun k => c.getD (64 * w + k) false) j (by simpa using hj)
  simp only [List.length_map, List.length_range] at hbit
  rw [codeBitsWord, BitVec.getLsbD_ofNat, show 63 - j = 64 - 1 - j by omega, hbit]
  simp [hj, show 64 - 1 - j < 64 by omega]

/-- Settles O9: the window words of the tables, and the draw of a busy read. -/
theorem windowsReadTheTables : Obligations.WindowsReadTheTables := by
  intro s
  refine ⟨fun b hb hw => ⟨?_, ?_, fun w j hw4 hj => ?_⟩, fun o hb ho => ⟨State.readValue_window_busy ho hb, ?_⟩⟩
  · rw [State.readValue_window_shown (by omega) hb hw, Engine.windowWord_freq]
  · rw [State.readValue_window_shown (by omega) hb hw, Engine.windowWord_codeLen]
  · rw [State.readValue_window_shown (by omega) hb hw, Engine.windowWord_codeBits _ _ hw4, codeBitsWord_getLsbD _ _ hj]
  · simp [hostRead, State.afterRead_window ho, hb]

/-! ## The windows after an error -/

theorem ErrCode.keepsWindows_iff (code : ErrCode) :
    code.keepsWindows = true ↔ code ∈ [ErrCode.illegalCmd, ErrCode.badBuffer] := by
  cases code <;> decide

theorem State.raise_winDraw_kept (s : State) {code : ErrCode} (info planned : Nat) (h : code.keepsWindows = true) :
    (s.raise code info planned).winDraw = s.winDraw := by
  unfold State.raise
  cases code.spoilsDestination <;> simp [h]

/-- An error that spoils the windows draws for them anew (R32). -/
theorem State.raise_winDraw_drawn (s : State) {code : ErrCode} (info planned : Nat) (h : code.keepsWindows = false) :
    ∃ d, s.draws ≤ d ∧ (s.raise code info planned).winDraw = some d := by
  unfold State.raise
  cases code.spoilsDestination <;> simp [h]

/-- Idle cores with the same draw and the same tables show the same windows. -/
theorem State.readValue_window_congr {s t : State} {o : Nat} (ho : 0x1000 ≤ o) (hs : s.regs.busy = false)
    (ht : t.regs.busy = false) (hw : t.winDraw = s.winDraw) (hf : t.eng.freq = s.eng.freq)
    (hc : t.eng.codes = s.eng.codes) : t.readValue o = s.readValue o := by
  cases h : s.winDraw with
  | some d =>
    rw [State.readValue_window_spoilt ho hs h, State.readValue_window_spoilt ho ht (hw.trans h)]
  | none =>
    rw [State.readValue_window_shown ho hs h, State.readValue_window_shown ho ht (hw.trans h)]
    simp only [Engine.windowWord, hf, hc]

/-- While `BUSY = 0` reading a window word leaves every window word as it is. -/
theorem State.readValue_hostRead_window {s : State} {o : Nat} (ho : 0x1000 ≤ o) (hb : s.regs.busy = false) :
    (hostRead o s).readValue o = s.readValue o := by
  have hsame : s.afterRead o = s := by simp [State.afterRead_window ho, hb]
  rw [hostRead, hsame]
  exact State.readValue_window_congr ho hb hb rfl rfl rfl

/-- Settles O25: the kept windows and the drawn ones. -/
theorem windowsAfterError : Obligations.WindowsAfterError := by
  intro s code info planned o ho
  have hb : (s.raise code info planned).regs.busy = false := by simp
  rw [← ErrCode.keepsWindows_iff]
  constructor
  · intro hk
    exact State.readValue_window_congr ho rfl hb (s.raise_winDraw_kept info planned hk) (by simp) (by simp)
  · intro hk
    obtain ⟨d, hd, hw⟩ := s.raise_winDraw_drawn info planned (Bool.not_eq_true _ ▸ hk)
    have hread := State.readValue_window_spoilt ho hb hw
    exact ⟨d, hd, hw, hread, (State.readValue_hostRead_window ho hb).trans hread⟩

/-! ## Refused accesses -/

/-- On the host's scheduled turn the host moves. -/
theorem step_of_host {s : State} {rest : List Turn} (h : s.sched = .host :: rest) : step s = hostStep s.popTurn := by
  simp [step, turn, h]

/-- An operation outside the interface is refused (R21). -/
theorem hostStep_of_not_wf {s : State} {op : HostOp} {ops : List HostOp} (hh : s.host = op :: ops)
    (hwf : op.wf = false) : hostStep s = .refused .narrowAccess := by
  cases op with
  | read o w => simp [hostStep, hh, hwf]
  | write o w v => simp [hostStep, hh, hwf]
  | store a bytes => cases hwf
  | load a => cases hwf
  | wait => cases hwf

theorem accessWf_eq_false {o : BitVec 14} {w : AccessWidth} (h : w ≠ .w64 ∨ o.toNat % 8 ≠ 0) :
    accessWf o w = false := by
  rcases h with h | h <;> simp [accessWf, h]

/-- Settles O10: the access is outside the interface. -/
theorem narrowAccessRefused : Obligations.NarrowAccessRefused := by
  intro s rest o w v ops hs hh hbad
  have hwf := accessWf_eq_false hbad
  rw [step_of_host hs]
  rcases hh with hh | hh
  · exact hostStep_of_not_wf (op := .read o w) hh hwf
  · exact hostStep_of_not_wf (op := .write o w v) hh hwf

/-! ## The fields of CTRL and STATUS -/

theorem flagWord_getLsbD (b : Bool) (i : Nat) : (flagWord b).getLsbD i = (decide (i = 0) && b) := by
  cases b <;> simp [flagWord]

/-- Every bit of `STATUS` (R26). -/
theorem Regs.statusWord_getLsbD (r : Regs) (i : Nat) :
    r.statusWord.getLsbD i =
      (decide (i = 0) && r.busy || decide (i = 1) && r.done || decide (8 ≤ i) && r.err.code.getLsbD (i - 8)) := by
  simp only [Regs.statusWord, BitVec.getLsbD_or, BitVec.getLsbD_shiftLeft, BitVec.getLsbD_setWidth, flagWord_getLsbD]
  have hcode : 64 ≤ i → r.err.code.getLsbD (i - 8) = false := fun hi => BitVec.getLsbD_of_ge _ _ (by omega)
  obtain rfl | rfl | h : i = 0 ∨ i = 1 ∨ 2 ≤ i := by omega
  · simp
  · simp
  · grind

/-- Settles O11: the bits of both words, and the table of codes. -/
theorem statusAndCtrlFields : Obligations.StatusAndCtrlFields := by
  refine ⟨fun r => ⟨?_, ?_, ?_, fun i hi => ?_, ?_, fun i hi => ?_⟩, rfl, rfl, rfl, rfl, rfl, rfl, rfl, rfl, rfl, rfl⟩
  · rw [r.statusWord_getLsbD]; simp
  · rw [r.statusWord_getLsbD]; simp
  · apply BitVec.eq_of_getLsbD_eq
    intro i hi
    simp only [BitVec.getLsbD_extractLsb', r.statusWord_getLsbD, hi, Nat.add_sub_cancel_left]
    simp [show 8 + i ≠ 1 by omega]
  · have hcode : 16 ≤ i → r.err.code.getLsbD (i - 8) = false := fun h => BitVec.getLsbD_of_ge _ _ (by omega)
    rw [r.statusWord_getLsbD]
    rcases hi with hi | hi
    · simp [show i ≠ 0 by omega, show i ≠ 1 by omega, show ¬ 8 ≤ i by omega]
    · simp [hcode hi, show i ≠ 0 by omega, show i ≠ 1 by omega]
  · rw [Regs.ctrlWord, flagWord_getLsbD]; simp
  · rw [Regs.ctrlWord, flagWord_getLsbD]; simp [show i ≠ 0 by omega]

/-! ## The interrupt output -/

/-- Settles O12: what each operation leaves of DONE and IRQ_EN. -/
theorem interruptFollowsDoneAndEnable : Obligations.InterruptFollowsDoneAndEnable := by
  intro s
  refine ⟨rfl, fun code info planned => ?_, ?_, fun w => ?_, fun hb v hv => ?_, fun v => rfl, rfl⟩
  · simp [State.irq]
  · simp [State.irq]
  · simp [State.irq]
  · simp [State.irq, State.acknowledge, hb, hv]

/-! ## Reset -/

/-- Of the registers `ID` alone does not reset to 0 (R36). -/
theorem Regs.word_reset {r : Reg} (h : r ≠ .id) : Regs.reset.word r = 0 := by
  cases r with
  | id => exact absurd rfl h
  | ctrl | status => decide
  | _ => rfl

/-- No code, no code bits. -/
@[simp] theorem codeBitsWord_nil (w : Nat) : codeBitsWord [] w = 0 := by
  apply BitVec.eq_of_getLsbD_eq
  intro i hi
  have := codeBitsWord_getLsbD [] w (j := 63 - i) (by omega)
  rw [show 63 - (63 - i) = i by omega] at this
  simpa using this

/-- The reset tables show zero in every window. -/
@[simp] theorem Engine.windowWord_reset (o : Nat) : Engine.reset.windowWord o = 0 := by
  unfold Engine.windowWord Engine.reset
  split_ifs <;> simp

/-- A core at its reset values reads 0 at every offset but that of `ID` (R36). -/
theorem State.readValue_of_reset {s : State} (hr : s.regs = Regs.reset) (he : s.eng = Engine.reset)
    (hw : s.winDraw = none) {o : Nat} (ho : 0 < o) : s.readValue o = 0 := by
  have hb : s.regs.busy = false := by rw [hr]; rfl
  rw [State.readValue_idle hb, State.apertureWord, hw, hr, he]
  cases h : regAt o with
  | some r =>
    have hid : r ≠ .id := by
      rintro rfl
      exact ho.ne (regOffset_of_regAt h)
    exact Regs.word_reset hid
  | none => simp

/-- Settles O20: the registers' and the windows' reset values. -/
theorem resetValues : Obligations.ResetValues :=
  ⟨State.reset.readValue_regOffset .id, fun _ ho _ => State.readValue_of_reset rfl rfl rfl ho, rfl, rfl, rfl⟩

end Sys2Proof.Machine

/-! PROOFS. Memory: what an engine turn may write, and what the host stores, loads and is promised to see
(spec/20_memory.md). -/

namespace Sys2Proof.Machine

open Sys2Proof

/-! ## The engine's turn on any word -/

/-- While `BUSY = 1` the engine's turn runs the single step of the word in `CMD` (R109, R111). -/
theorem step_eq_engineRun {s : State} (hb : s.regs.busy = true) (hs : s.EngineNext) :
    step s = s.engineRun (stepOfWord s.regs.cmd) := by
  rw [step_of_busy hb hs]
  cases hd : decode s.regs.cmd with
  | ok i => rw [engineTurn_of_command hb hd, exec_eq_engineRun, stepOfWord_of_command hd]
  | error e => rw [engineTurn_of_illegal hb hd, execIllegal, stepOfWord_of_illegal hd]

/-- An engine step of any word touches memory only as one of the effects. -/
theorem stepOfWord_effect {w : Word} {s t : State} (h : stepOfWord w s = .ok t) : ∃ len, Effect s t len := by
  cases hd : decode w with
  | ok i => rw [stepOfWord_of_command hd] at h; exact ⟨_, stepOf_effect h⟩
  | error e => rw [stepOfWord_of_illegal hd] at h; exact ⟨_, illegalStep_effect h⟩

/-! ## The operands along a run -/

theorem State.SameOperands.refl (s : State) : s.SameOperands s := (Kept.refl s).operands

theorem State.SameOperands.trans {s t u : State} (h : s.SameOperands t) (h' : t.SameOperands u) :
    s.SameOperands u := by
  obtain ⟨a1, a2, a3, a4, a5, a6, a7, a8, a9⟩ := h
  obtain ⟨b1, b2, b3, b4, b5, b6, b7, b8, b9⟩ := h'
  exact ⟨b1.trans a1, b2.trans a2, b3.trans a3, b4.trans a4, b5.trans a5, b6.trans a6, b7.trans a7, b8.trans a8,
    b9.trans a9⟩

theorem State.SameOperands.cfg {s t : State} (h : s.SameOperands t) : t.cfg = s.cfg := by
  obtain ⟨hcfg, -⟩ := h
  exact hcfg

theorem State.SameOperands.cmd {s t : State} (h : s.SameOperands t) : t.regs.cmd = s.regs.cmd := by
  obtain ⟨-, -, hcmd, -⟩ := h
  exact hcmd

theorem State.SameOperands.dstBase {s t : State} (h : s.SameOperands t) : t.regs.dstBase = s.regs.dstBase := by
  obtain ⟨-, -, -, -, -, hbase, -⟩ := h
  exact hbase

theorem State.SameOperands.dstCap {s t : State} (h : s.SameOperands t) : t.regs.dstCap = s.regs.dstCap := by
  obtain ⟨-, -, -, -, -, -, hcap, -⟩ := h
  exact hcap

/-! ## The canonical form -/

/-- Memory of `t` is canonical if that of `s` is, and the parameters are the same. -/
abbrev State.CanonicalAs (s t : State) : Prop := (memWf s.mem = true → memWf t.mem = true) ∧ t.cfg = s.cfg

theorem Effect.canonicalAs {s t u : State} {len : Nat} (hs : s.CanonicalAs t) (h : Effect t u len) :
    s.CanonicalAs u := by
  obtain ⟨hmem, hcfg⟩ := hs
  exact ⟨fun hm => h.mem.memWf (hmem hm), h.kept.operands.cfg.trans hcfg⟩

/-- Settles O54: the engine's steps have one of the memory effects, the host stores at most a byte, the reset input
draws, and the rest leaves memory alone. -/
theorem stepKeepsMemoryCanonical : Obligations.StepKeepsMemoryCanonical := by
  intro s t h
  have engine (hb : s.regs.busy = true) (hn : s.EngineNext) : s.CanonicalAs t := by
    rw [step_eq_engineRun hb hn] at h
    refine State.engineRun_induction (P := s.CanonicalAs) (fun u v hu hv => ?_) (fun _ _ hu => hu) ⟨id, rfl⟩ h
    obtain ⟨len, he⟩ := stepOfWord_effect hv
    exact he.canonicalAs hu
  rcases step_cases h with ⟨-, hb, hn, -⟩ | ⟨-, hb, hn, -⟩ | ⟨-, rfl⟩ | hh | rfl
  · exact engine hb hn
  · exact engine hb hn
  · exact ⟨id, rfl⟩
  · exact ⟨(hostStep_effect hh).mem, (hostStep_effect hh).cfg⟩
  · exact ⟨fun hm => State.assertReset_memWf (s := s.popTurn) hm, State.assertReset_cfg _⟩

/-! ## Inside the destination buffer -/

/-- The byte at every address outside the destination buffer of `s` is as in `s`. -/
abbrev State.KeepsOutsideDest (s t : State) : Prop := ∀ a, s.regs.dest.contains a = false → t.byteAt a = s.byteAt a

theorem Span.contains_eq_false_iff {p : Span} {a : Nat} : p.contains a = false ↔ a < p.base ∨ p.base + p.len ≤ a := by
  rw [← Bool.not_eq_true, Span.contains_iff]
  omega

theorem State.KeepsOutside.of_mem {s t : State} (h : t.mem = s.mem) (len : Nat) : s.KeepsOutside t len :=
  fun a _ => State.byteAt_congr h a

theorem State.KeepsOutside.mono {s t : State} {len len' : Nat} (h : s.KeepsOutside t len) (hl : len ≤ len') :
    s.KeepsOutside t len' := by
  intro a ha
  simp only [State.dstAddr] at ha
  exact h a (by simp only [State.dstAddr]; omega)

/-- What two parts of a command keep outside the same bytes, the whole keeps. -/
theorem State.KeepsOutside.trans {s t u : State} {len : Nat} (h : s.KeepsOutside t len) (ho : s.SameOperands t)
    (h' : t.KeepsOutside u len) : s.KeepsOutside u len := by
  intro a ha
  rw [h' a (by simpa only [State.dstAddr, ho.dstBase] using ha), h a ha]

/-- The destination buffer is its `DST_CAP` bytes (spec/10_state.md R27). -/
theorem State.keepsOutside_dstCap_iff {s t : State} :
    s.KeepsOutside t s.regs.dstCap.toNat ↔ s.KeepsOutsideDest t := by
  refine forall_congr' fun a => ?_
  rw [Span.contains_eq_false_iff]
  simp only [State.dstAddr, Regs.dest]
  exact ⟨fun h ha => h (by omega), fun h ha => h (by omega)⟩

/-- What COMPRESS may touch of the destination fits (spec/46_codec_commands.md R117). -/
theorem compressRange_le_dstCap {s : State} (hs : s.CompressWf) : compressRange s ≤ s.regs.dstCap.toNat := by
  unfold State.CompressWf at hs
  unfold compressRange
  cases hp : s.eng.phase <;> rw [hp] at hs <;> simp only at hs ⊢
  case writeHdr =>
    obtain ⟨-, -, ⟨-, hfit⟩, -⟩ := hs
    exact hfit
  case encode =>
    obtain ⟨-, ⟨-, hfit⟩, -⟩ := hs
    exact hfit
  all_goals exact Nat.zero_le _

/-- What DECOMPRESS may touch of the destination fits (spec/46_codec_commands.md R122). -/
theorem decompressRange_le_dstCap {s : State} (hs : s.DecompressWf) : decompressRange s ≤ s.regs.dstCap.toNat := by
  unfold State.DecompressWf at hs
  unfold decompressRange
  cases hp : s.eng.phase <;> rw [hp] at hs <;> simp only at hs ⊢
  case decode =>
    obtain ⟨-, -, hfit, -⟩ := hs
    exact hfit
  all_goals exact Nat.zero_le _

/-- From a working state the step of the word in `CMD` touches nothing outside the destination buffer. -/
theorem stepOfWord_inside {s t : State} (hs : s.EngineWf) (h : stepOfWord s.regs.cmd s = .ok t) :
    Effect s t s.regs.dstCap.toNat := by
  unfold State.EngineWf at hs
  cases hd : decode s.regs.cmd with
  | error e =>
    rw [stepOfWord_of_illegal hd] at h
    exact (illegalStep_effect h).mono (Nat.zero_le _)
  | ok i =>
    rw [stepOfWord_of_command hd] at h
    rw [hd] at hs
    cases i with
    | nop => exact (nopStep_effect h).mono (Nat.zero_le _)
    | compress => exact (compressStep_range hs h).mono (compressRange_le_dstCap hs)
    | decompress => exact (decompressStep_range hs h).mono (decompressRange_le_dstCap hs)
    | analyze => exact (analyzeStep_effect h).mono (Nat.zero_le _)

/-- Settles O58: along an engine turn the working state stays, and each single step stays inside the buffer. -/
theorem engineWritesOnlyTheDestination : Obligations.EngineWritesOnlyTheDestination := by
  intro s t _ hs hb hn h
  rw [step_eq_engineRun hb hn] at h
  have hrun := State.engineRun_induction
    (P := fun u => s.SameOperands u ∧ u.EngineWf ∧ s.KeepsOutside u s.regs.dstCap.toNat)
    (fun u v ⟨ho, hu, hk⟩ hv => ?_) (fun _ _ hu => hu)
    ⟨.refl s, hs, .of_mem rfl _⟩ h
  · obtain ⟨-, -, hk⟩ := hrun
    exact State.keepsOutside_dstCap_iff.1 hk
  · rw [← ho.cmd] at hv
    have he := stepOfWord_inside hu hv
    rw [ho.dstCap] at he
    exact ⟨ho.trans he.kept.operands, stepOfWord_engineWf hu hv, hk.trans ho he.mem.keepsOutside⟩

/-! ## No fault -/

/-- A core in step has its engine idle or in the sequence of its word. -/
theorem State.ControlWf.phase_mem {s : State} (hs : s.ControlWf) :
    s.eng.phase ∈ Phase.idle :: phasesOfWord s.regs.cmd := by
  obtain ⟨hidle, -, -, -, hmem⟩ := hs
  cases hb : s.regs.busy with
  | false => exact hidle.2 hb ▸ List.mem_cons_self
  | true => exact List.mem_cons_of_mem _ (hmem hb)

theorem illegalStep_ne_fault (s : State) (f : Fault) : illegalStep s ≠ .fault f := by
  unfold illegalStep
  split <;> simp

/-- From a state with the invariants the step of the word in `CMD` does not fault. -/
theorem stepOfWord_ne_fault {s : State} (hc : s.ControlWf) (hs : s.EngineWf) (f : Fault) :
    stepOfWord s.regs.cmd s ≠ .fault f := by
  have hp := hc.phase_mem
  unfold State.EngineWf at hs
  unfold phasesOfWord at hp
  cases hd : decode s.regs.cmd with
  | error e => rw [stepOfWord_of_illegal hd]; exact illegalStep_ne_fault s f
  | ok i =>
    rw [hd] at hs hp
    rw [stepOfWord_of_command hd]
    cases i with
    | nop => exact nopStep_ne_fault hp f
    | compress => exact compressStep_ne_fault hs hp f
    | decompress => exact decompressStep_ne_fault hs hp f
    | analyze => exact analyzeStep_ne_fault hs hp f

/-- Settles O59: each single step keeps the invariants, and under them none faults. -/
theorem engineNeverFaults : Obligations.EngineNeverFaults := by
  intro s f hc hs hb hn
  rw [step_eq_engineRun hb hn]
  refine State.engineRun_ne_fault (P := fun u => u.regs.cmd = s.regs.cmd ∧ u.ControlWf ∧ u.EngineWf)
    ?_ (fun _ _ hu => hu) ?_ ⟨rfl, hc, hs⟩
  · rintro u v ⟨hcmd, huc, hu⟩ hv
    rw [← hcmd] at hv
    exact ⟨(stepOfWord_keeps_cmd hv).trans hcmd, stepOfWord_controlWf huc hv, stepOfWord_engineWf hu hv⟩
  · rintro u ⟨hcmd, huc, hu⟩
    rw [← hcmd]
    exact stepOfWord_ne_fault huc hu f

/-! ## The frame of COMPRESS and DECOMPRESS -/

/-- What the frame of a command needs of its single step `f`: a working state `Wf` it keeps, the `range` of destination
bytes it may touch, inside the buffer and the planned `size`, none in the `early` phases, and `size` settled in the
later ones. -/
structure PlannedStep (f : State → Answer State) (Wf : State → Prop) (range : State → Nat) (size : Engine → Nat)
    (early : List Phase) : Prop where
  wf {s t : State} : Wf s → f s = .ok t → Wf t
  popped (s : State) (r : List Turn) : Wf s → Wf { s with sched := r }
  effect {s t : State} : Wf s → f s = .ok t → Effect s t (range s)
  range_le_dstCap {s : State} : Wf s → range s ≤ s.regs.dstCap.toNat
  range_le_size (s : State) : range s ≤ size s.eng
  range_early {s : State} : s.eng.phase ∈ early → range s = 0
  late {s t : State} : s.eng.phase ∉ early → f s = .ok t → t.eng.phase ∉ early ∧ size t.eng = size s.eng

/-- What holds along a turn from `s`: the operands stay, nothing changes outside the buffer and the planned range, and
memory is untouched until the early phases are over. -/
structure FrameSoFar (Wf : State → Prop) (size : Engine → Nat) (early : List Phase) (s t : State) : Prop where
  wf : Wf t
  operands : s.SameOperands t
  buffer : s.KeepsOutside t s.regs.dstCap.toNat
  planned : s.KeepsOutside t (size t.eng)
  untouched : t.mem = s.mem ∨ t.eng.phase ∉ early

section

variable {f : State → Answer State} {Wf : State → Prop} {range : State → Nat} {size : Engine → Nat}
  {early : List Phase}

theorem FrameSoFar.refl {s : State} (hs : Wf s) : FrameSoFar Wf size early s s :=
  ⟨hs, .refl s, .of_mem rfl _, .of_mem rfl _, .inl rfl⟩

/-- An early step leaves memory as it was. -/
theorem PlannedStep.mem_early (hf : PlannedStep f Wf range size early) {s t : State} (hs : Wf s)
    (he : s.eng.phase ∈ early) (h : f s = .ok t) : t.mem = s.mem :=
  (hf.range_early he ▸ (hf.effect hs h).mem).mem_of_zero

theorem FrameSoFar.step (hf : PlannedStep f Wf range size early) {s t u : State}
    (hst : FrameSoFar Wf size early s t) (h : f t = .ok u) : FrameSoFar Wf size early s u := by
  have heff := hf.effect hst.wf h
  have hcap := hst.operands.dstCap ▸ hf.range_le_dstCap hst.wf
  have hops := hst.operands.trans heff.kept.operands
  have hbuf := hst.buffer.trans hst.operands (heff.mem.keepsOutside.mono hcap)
  by_cases he : t.eng.phase ∈ early
  · have hmem : u.mem = s.mem :=
      (hf.mem_early hst.wf he h).trans (hst.untouched.resolve_right (not_not_intro he))
    exact ⟨hf.wf hst.wf h, hops, hbuf, .of_mem hmem _, .inl hmem⟩
  · obtain ⟨hlate, hsize⟩ := hf.late he h
    have hplan := hst.planned.trans hst.operands (heff.mem.keepsOutside.mono (hf.range_le_size t))
    exact ⟨hf.wf hst.wf h, hops, hbuf, hsize.symm ▸ hplan, .inr hlate⟩

/-- The frame of one engine turn, a single step or a run (spec/20_memory.md R46). -/
theorem PlannedStep.frame (hf : PlannedStep f Wf range size early) {s t : State} (hs : Wf s)
    (h : s.engineRun f = .next t) :
    s.SameOperands t ∧ s.KeepsOutside t (size t.eng) ∧ s.KeepsOutsideDest t ∧
      ∀ rest, s.sched = .engine :: rest → s.eng.phase ∈ early → t.mem = s.mem := by
  have hframe := State.engineRun_induction (P := FrameSoFar Wf size early s) (fun _ _ hu hv => hu.step hf hv)
    (fun u r hu => ⟨hf.popped u r hu.wf, hu.operands, hu.buffer, hu.planned, hu.untouched⟩) (.refl hs) h
  refine ⟨hframe.operands, hframe.planned, State.keepsOutside_dstCap_iff.1 hframe.buffer, fun rest hr he => ?_⟩
  simp only [State.engineRun, hr] at h
  rcases settle_eq_next h with h | rfl
  · exact hf.mem_early (s := { s with sched := rest }) (hf.popped s rest hs) he h
  · rfl

end

/-! ### COMPRESS -/

/-- The phases of COMPRESS that touch no memory (spec/46_codec_commands.md R117). -/
abbrev compressEarly : List Phase := [.check, .count, .tree, .codes, .plan]

theorem writeHdrStep_late {s t : State} (hp : s.eng.phase = .writeHdr) (h : writeHdrStep s = .ok t) :
    t.eng.phase ∉ compressEarly ∧ t.eng.artifactSize = s.eng.artifactSize := by
  unfold writeHdrStep at h
  split at h
  · obtain ⟨u, hu, h⟩ := Answer.andThen_eq_ok.1 h
    obtain ⟨-, rfl⟩ := State.memWrite_eq_ok.1 hu
    cases h
    exact ⟨by simp [hp], rfl⟩
  · split at h <;> simp at h <;> subst h
    · exact ⟨by simp, rfl⟩
    · exact ⟨by simp [Engine.startEncode], rfl⟩

theorem encodeByte_late (b : Byte) {s : State} (hp : s.eng.phase = .encode) :
    (encodeByte b s).eng.phase ∉ compressEarly ∧ (encodeByte b s).eng.artifactSize = s.eng.artifactSize := by
  unfold encodeByte
  simp only
  split_ifs
  · exact ⟨by simp, by rw [State.raise_eng]; rfl⟩
  · exact ⟨by simp, by rw [State.raise_eng]; rfl⟩
  · exact ⟨by simp [hp], rfl⟩

theorem encodeStep_late {s t : State} (hp : s.eng.phase = .encode) (h : encodeStep s = .ok t) :
    t.eng.phase ∉ compressEarly ∧ t.eng.artifactSize = s.eng.artifactSize := by
  unfold encodeStep at h
  split at h
  · rcases packBit_cases h with ⟨-, -, rfl⟩ | ⟨-, rfl⟩
    · exact ⟨by simp [Engine.byteDone, Engine.shiftIn, hp], rfl⟩
    · exact ⟨by simp [Engine.shiftIn, hp], rfl⟩
  · split at h
    · obtain ⟨b, -, h⟩ := Answer.andThen_eq_ok.1 h
      cases h
      exact encodeByte_late b hp
    · split at h
      · cases h
        exact ⟨by simp, by rw [State.raise_eng]; rfl⟩
      · obtain ⟨v, hv, h⟩ := Answer.andThen_eq_ok.1 h
        cases h
        rcases packFinish_cases hv with ⟨-, -, rfl⟩ | ⟨-, rfl⟩
        · exact ⟨by simp, rfl⟩
        · exact ⟨by simp, rfl⟩

/-- From WRITE_HDR on the planned range is settled. -/
theorem compressStep_late {s t : State} (hl : s.eng.phase ∉ compressEarly) (h : compressStep s = .ok t) :
    t.eng.phase ∉ compressEarly ∧ t.eng.artifactSize = s.eng.artifactSize := by
  unfold compressStep at h
  cases hp : s.eng.phase <;> rw [hp] at h hl <;> simp only at h
  case idle => cases h; simp [hp]
  case writeHdr => exact writeHdrStep_late hp h
  case encode => exact encodeStep_late hp h
  case finish =>
    cases h
    exact ⟨by simp [finishCompress], rfl⟩
  case readHdr | decode => cases h
  all_goals simp at hl

theorem compressStep_planned :
    PlannedStep compressStep State.CompressWf compressRange Engine.artifactSize compressEarly where
  wf := compressStep_wf
  popped _ _ hs := hs
  effect := compressStep_range
  range_le_dstCap := compressRange_le_dstCap
  range_le_size s := by unfold compressRange; split <;> simp
  range_early {s} he := by
    unfold compressRange
    split
    next hp => simp [hp] at he
    next hp => simp [hp] at he
    next => rfl
  late := compressStep_late

/-- Settles O48: the frame of a planned step. -/
theorem compressFrame : Obligations.CompressFrame := fun _ _ hs h => compressStep_planned.frame hs h

/-! ### DECOMPRESS -/

/-- The phases of DECOMPRESS that touch no memory (spec/46_codec_commands.md R120, R122). -/
abbrev decompressEarly : List Phase := [.check, .readHdr, .plan, .tree, .codes]

theorem walkBit_late {s t : State} (hp : s.eng.phase = .decode) (h : walkBit s = .ok t) :
    t.eng.phase ∉ decompressEarly ∧ t.eng.total = s.eng.total := by
  unfold walkBit at h
  simp only at h
  split at h
  · cases h
    exact ⟨by simp [Engine.nextBit, hp], rfl⟩
  · split at h
    · cases h
      simp
    · obtain ⟨u, hu, h⟩ := Answer.andThen_eq_ok.1 h
      obtain ⟨-, rfl⟩ := State.memWrite_eq_ok.1 hu
      cases h
      exact ⟨by simp [Engine.matched, Engine.nextBit, hp], rfl⟩

theorem decodeStep_late {s t : State} (hp : s.eng.phase = .decode) (h : decodeStep s = .ok t) :
    t.eng.phase ∉ decompressEarly ∧ t.eng.total = s.eng.total := by
  unfold decodeStep at h
  split at h
  · split at h
    · exact walkBit_late hp h
    · obtain ⟨b, -, h⟩ := Answer.andThen_eq_ok.1 h
      cases h
      exact ⟨by simp [hp], rfl⟩
  · cases h
    unfold walkEnd
    split_ifs <;> simp

/-- From DECODE on the planned range is settled. -/
theorem decompressStep_late {s t : State} (hl : s.eng.phase ∉ decompressEarly) (h : decompressStep s = .ok t) :
    t.eng.phase ∉ decompressEarly ∧ t.eng.total = s.eng.total := by
  unfold decompressStep at h
  cases hp : s.eng.phase <;> rw [hp] at h hl <;> simp only at h
  case idle => cases h; simp [hp]
  case decode => exact decodeStep_late hp h
  case finish =>
    cases h
    simp [finishDecompress]
  case count | writeHdr | encode => cases h
  all_goals simp at hl

theorem decompressStep_planned :
    PlannedStep decompressStep State.DecompressWf decompressRange Engine.total decompressEarly where
  wf := decompressStep_wf
  popped _ _ hs := hs
  effect := decompressStep_range
  range_le_dstCap := decompressRange_le_dstCap
  range_le_size s := by unfold decompressRange; split <;> simp
  range_early {s} he := by
    unfold decompressRange
    split
    next hp => simp [hp] at he
    next => rfl
  late := decompressStep_late

/-- Settles O51: the frame of a planned step. -/
theorem decompressFrame : Obligations.DecompressFrame := fun _ _ hs h => decompressStep_planned.frame hs h

/-! ## The frame of NOP and ANALYZE -/

/-- Of the core NOP leaves everything but its phase and its completion (spec/46_codec_commands.md R113). -/
abbrev State.KeepsCore (s t : State) : Prop :=
  s.SameOperands t ∧ t.mem = s.mem ∧ t.winDraw = s.winDraw ∧ t.draws = s.draws ∧
    t.eng = { s.eng with phase := t.eng.phase }

theorem nopStep_keepsCore {s t u : State} (hst : s.KeepsCore t) (h : nopStep t = .ok u) : s.KeepsCore u := by
  obtain ⟨ho, hm, hw, hd, he⟩ := hst
  refine ⟨ho.trans (nopStep_effect h).kept.operands, (nopStep_effect h).mem.mem_of_zero.trans hm, ?_⟩
  unfold nopStep at h
  cases hp : t.eng.phase <;> rw [hp] at h <;> cases h
  case idle => exact ⟨hw, hd, he⟩
  case check => exact ⟨hw, hd, by rw [State.goto_eng, he]⟩
  case finish => exact ⟨hw, hd, by rw [State.complete_eng, he]⟩

/-- Settles O53: no step of either command touches memory, and NOP's two steps touch the phase and the completion
flags. -/
theorem nopAndAnalyzeFrame : Obligations.NopAndAnalyzeFrame := by
  intro s t
  constructor
  · intro h
    exact State.engineRun_induction (P := s.KeepsCore) (fun _ _ => nopStep_keepsCore) (fun _ _ hu => hu)
      ⟨.refl s, rfl, rfl, rfl, rfl⟩ h
  · intro h
    refine State.engineRun_induction (P := fun u => s.SameOperands u ∧ u.mem = s.mem) (fun u v ⟨ho, hm⟩ hv => ?_)
      (fun _ _ hu => hu) ⟨.refl s, rfl⟩ h
    have he := analyzeStep_effect hv
    exact ⟨ho.trans he.kept.operands, he.mem.mem_of_zero.trans hm⟩

/-! ## Accesses that are not answered -/

/-- A chain of answers that is stuck: one of the parts is stuck. -/
theorem Answer.andThen_eq_stuck {α β : Type} {x : Answer α} {f : α → Answer β} :
    x.andThen f = .stuck ↔ x = .stuck ∨ ∃ v, x = .ok v ∧ f v = .stuck := by
  cases x <;> simp [Answer.andThen]

/-- A chain whose second part always answers is stuck exactly where its first is. -/
theorem Answer.andThen_ok_eq_stuck {α β : Type} {x : Answer α} {g : α → β} :
    (x.andThen fun v => .ok (g v)) = .stuck ↔ x = .stuck := by
  simp [Answer.andThen_eq_stuck]

theorem State.memRead_eq_stuck {s : State} {a : Nat} : s.memRead a = .stuck ↔ s.access a false = .stuck :=
  Answer.andThen_ok_eq_stuck

theorem State.memWrite_eq_stuck {s : State} {a : Nat} {v : Byte} :
    s.memWrite a v = .stuck ↔ s.access a true = .stuck :=
  Answer.andThen_ok_eq_stuck

/-- The access `acc`, where there is one, is not answered (spec/20_memory.md R45). -/
def State.Unanswered (s : State) (acc : Option (Nat × Bool)) : Prop := ∃ a w, acc = some (a, w) ∧ s.access a w = .stuck

@[simp] theorem State.unanswered_none (s : State) : ¬ s.Unanswered none := by simp [State.Unanswered]

@[simp] theorem State.unanswered_some (s : State) (a : Nat) (w : Bool) :
    s.Unanswered (some (a, w)) ↔ s.access a w = .stuck := by
  simp [State.Unanswered, and_assoc]

theorem countStep_eq_stuck (s : State) : countStep s = .stuck ↔ s.Unanswered s.countAccess := by
  unfold countStep State.countAccess
  split
  · rw [Answer.andThen_ok_eq_stuck, State.memRead_eq_stuck, State.unanswered_some]
  · simp

theorem treeStep_ne_stuck (s : State) : treeStep s ≠ .stuck := by
  unfold treeStep
  split_ifs
  · simp
  · simp
  · split
    · simp
    · split <;> simp

theorem writeHdrStep_eq_stuck (s : State) : writeHdrStep s = .stuck ↔ s.Unanswered s.writeHdrAccess := by
  unfold writeHdrStep State.writeHdrAccess
  rw [← length_headerBytes s.eng.freq s.eng.n s.eng.pad s.emptySource]
  split
  next b hb =>
    rw [if_pos (List.getElem?_eq_some_iff.1 hb).1, Answer.andThen_ok_eq_stuck, State.memWrite_eq_stuck,
      State.unanswered_some]
  next hb =>
    rw [if_neg (Nat.not_lt.2 (List.getElem?_eq_none_iff.1 hb))]
    split <;> simp

theorem packBit_eq_stuck (x : Bool) (s : State) :
    packBit x s = .stuck ↔ s.eng.nb = 7 ∧ s.access (s.dstAddr s.eng.out) true = .stuck := by
  have hnb : (s.eng.shiftIn x).nb = 8 ↔ s.eng.nb = 7 := by simp [Engine.shiftIn]
  unfold packBit
  simp only
  split
  next h =>
    rw [Answer.andThen_ok_eq_stuck, State.memWrite_eq_stuck]
    exact (and_iff_right (hnb.1 h)).symm
  next h => simp [mt hnb.2 h]

theorem packFinish_eq_stuck (s : State) :
    packFinish s = .stuck ↔ 0 < s.eng.nb ∧ s.access (s.dstAddr s.eng.out) true = .stuck := by
  unfold packFinish
  split
  next h => rw [Answer.andThen_ok_eq_stuck, State.memWrite_eq_stuck]; simp [h]
  next h => simp [h]

/-- With a code in hand ENCODE packs its next bit (spec/44_bit_packer.md R97). -/
theorem encodeStep_of_pending {s : State} {x : Bool} {rest : Bits} (h : s.eng.pending = x :: rest) :
    encodeStep s = packBit x { s with eng := { s.eng with pending := rest } } := by
  simp only [encodeStep, h]

/-- With no code in hand ENCODE reads the next source byte, or ends the pass (spec/46_codec_commands.md R118). -/
theorem encodeStep_of_nil {s : State} (h : s.eng.pending = []) :
    encodeStep s =
      if s.eng.idx < s.regs.srcLen.toNat then
        (s.memRead (s.srcAddr s.eng.idx)).andThen fun b => .ok (encodeByte b s)
      else if s.eng.packed ≠ s.eng.bits then
        .ok (s.raise .lengthMismatch s.regs.srcLen.toNat s.eng.artifactSize)
      else (packFinish s).andThen fun t => .ok (t.goto .finish) := by
  simp only [encodeStep, h]

theorem State.encodeAccess_of_pending {s : State} {x : Bool} {rest : Bits} (h : s.eng.pending = x :: rest) :
    s.encodeAccess = if s.eng.nb = 7 then some (s.dstAddr s.eng.out, true) else none := by
  simp only [State.encodeAccess, h]

theorem State.encodeAccess_of_nil {s : State} (h : s.eng.pending = []) :
    s.encodeAccess =
      if s.eng.idx < s.regs.srcLen.toNat then some (s.srcAddr s.eng.idx, false)
      else if s.eng.packed = s.eng.bits ∧ 0 < s.eng.nb then some (s.dstAddr s.eng.out, true)
      else none := by
  simp only [State.encodeAccess, h]

theorem encodeStep_eq_stuck (s : State) : encodeStep s = .stuck ↔ s.Unanswered s.encodeAccess := by
  cases hpe : s.eng.pending with
  | cons x rest =>
    rw [encodeStep_of_pending hpe, State.encodeAccess_of_pending hpe, packBit_eq_stuck]
    by_cases h7 : s.eng.nb = 7
    · rw [if_pos h7, State.unanswered_some]
      exact and_iff_right h7
    · rw [if_neg h7]
      exact iff_of_false (fun h => h7 h.1) s.unanswered_none
  | nil =>
    rw [encodeStep_of_nil hpe, State.encodeAccess_of_nil hpe]
    by_cases hi : s.eng.idx < s.regs.srcLen.toNat
    · rw [if_pos hi, if_pos hi, Answer.andThen_ok_eq_stuck, State.memRead_eq_stuck, State.unanswered_some]
    · rw [if_neg hi, if_neg hi]
      by_cases hpk : s.eng.packed = s.eng.bits
      · rw [if_neg (not_not_intro hpk), Answer.andThen_ok_eq_stuck, packFinish_eq_stuck]
        by_cases hnb : 0 < s.eng.nb
        · rw [if_pos ⟨hpk, hnb⟩, State.unanswered_some]
          exact and_iff_right hnb
        · rw [if_neg (fun h => hnb h.2)]
          exact iff_of_false (fun h => hnb h.1) s.unanswered_none
      · rw [if_pos hpk, if_neg (fun h => hpk h.1)]
        exact iff_of_false nofun s.unanswered_none

theorem readHdrStep_eq_stuck (s : State) : readHdrStep s = .stuck ↔ s.Unanswered s.readHdrAccess := by
  unfold readHdrStep State.readHdrAccess
  simp only
  split
  next h => rw [if_neg (Nat.not_le.2 h)]; simp
  next h =>
    rw [if_pos (Nat.not_lt.1 h), Answer.andThen_ok_eq_stuck, State.memRead_eq_stuck, State.unanswered_some]

theorem walkBit_eq_stuck (s : State) : walkBit s = .stuck ↔
    (reverseLookup s.eng.decode (s.eng.acc ++ [s.eng.streamBit]) ≠ none ∧ s.eng.emitted ≠ s.eng.total) ∧
      s.access (s.dstAddr s.eng.emitted) true = .stuck := by
  unfold walkBit
  simp only
  split
  next h => simp [h]
  next sym h =>
    split
    next he => simp [he]
    next he => rw [Answer.andThen_ok_eq_stuck, State.memWrite_eq_stuck]; simp [h, he]

theorem decodeStep_eq_stuck (s : State) : decodeStep s = .stuck ↔ s.Unanswered s.decodeAccess := by
  unfold decodeStep State.decodeAccess
  split
  · cases hf : s.eng.fetched with
    | false =>
      simp only [Bool.false_eq_true, if_false, if_true]
      rw [Answer.andThen_ok_eq_stuck, State.memRead_eq_stuck, State.unanswered_some]
    | true =>
      simp only [if_true, Bool.true_eq_false, if_false]
      rw [walkBit_eq_stuck]
      split
      next h => rw [State.unanswered_some]; exact and_iff_right h
      next h => simp [h]
  · simp

/-- An engine step has no answer exactly where its access is not answered (spec/20_memory.md R45). -/
theorem stepOf_eq_stuck (i : Instr) (s : State) : stepOf i s = .stuck ↔ s.Unanswered (s.nextAccess i) := by
  cases i with
  | nop =>
    unfold stepOf nopStep State.nextAccess
    cases hp : s.eng.phase <;> simp only [hp] <;> simp
  | compress =>
    unfold stepOf compressStep State.nextAccess
    cases hp : s.eng.phase <;> simp only [hp]
    case count => exact countStep_eq_stuck s
    case tree => simp [treeStep_ne_stuck]
    case writeHdr => exact writeHdrStep_eq_stuck s
    case encode => exact encodeStep_eq_stuck s
    all_goals simp [codesStep]
  | decompress =>
    unfold stepOf decompressStep State.nextAccess
    cases hp : s.eng.phase <;> simp only [hp]
    case readHdr => exact readHdrStep_eq_stuck s
    case tree => simp [treeStep_ne_stuck]
    case decode => exact decodeStep_eq_stuck s
    all_goals simp [codesStep]
  | analyze =>
    unfold stepOf analyzeStep State.nextAccess
    cases hp : s.eng.phase <;> simp only [hp]
    case count => exact countStep_eq_stuck s
    case tree => simp [treeStep_ne_stuck]
    all_goals simp [codesStep]

/-- A run that starts stuck stays where it is. -/
theorem runToEnd_of_stuck {f : State → Answer State} {s : State} (h : f s = .stuck) (k : Nat) :
    runToEnd f k s = .next s := by
  cases k with
  | zero => rfl
  | succ k => simp [runToEnd, h]

/-- Settles O29: the stuck step is the unanswered access, and neither a run nor a single step moves a stuck engine. -/
theorem unansweredAccessIsStuck : Obligations.UnansweredAccessIsStuck := by
  intro s i
  refine ⟨fun a w hacc hst => ⟨fun hs => ?_, fun rest hs => ?_⟩, (stepOf_eq_stuck i s).1⟩
  · have hstuck := (stepOf_eq_stuck i s).2 ⟨a, w, hacc, hst⟩
    rw [exec_eq_engineRun, State.engineRun_nil hs, runToEnd_of_stuck hstuck]
  · have hstuck := (stepOf_eq_stuck i { s with sched := rest }).2 ⟨a, w, hacc, hst⟩
    simp only [exec_eq_engineRun, State.engineRun, hs, hstuck, settle]

/-! ## The host's stores and loads -/

/-- A stored byte is read back. -/
theorem State.byteAt_of_memPut_self {s t : State} {a : Nat} {v : Byte} (h : t.mem = memPut s.mem a v) :
    t.byteAt a = v := by
  simp [State.byteAt, h]

/-- A store leaves every other byte. -/
theorem State.byteAt_of_memPut_of_ne {s t : State} {a b : Nat} {v : Byte} (h : t.mem = memPut s.mem a v)
    (hb : b ≠ a) : t.byteAt b = s.byteAt b := by
  simp only [State.byteAt, h, memFind_memPut_of_ne _ _ hb]

/-- A load that is promised to the host returns the byte in memory (spec/20_memory.md R48). -/
theorem hostLoad_of_seen {s : State} {a : Nat} (hm : s.mayLoad a = true) (ha : s.hostAccess a = .ok ())
    (hn : s.notSeen a = false) : hostLoad a s = .ok (s.answerHost ((s.byteAt a).setWidth 64)) := by
  simp [hostLoad_eq_ok hm ha, hn]

theorem hostStore_outside {s : State} {a : Nat} (v : Byte) (hm : s.mayStore a = true) (ha : 2 ^ s.cfg.addrW ≤ a) :
    hostStore a v s = .fault .noSuchAddress := by
  simp [hostStore, hm, State.hostAccess_outside ha, Answer.andThen]

theorem hostLoad_outside {s : State} {a : Nat} (hm : s.mayLoad a = true) (ha : 2 ^ s.cfg.addrW ≤ a) :
    hostLoad a s = .fault .noSuchAddress := by
  simp [hostLoad, hm, State.hostAccess_outside ha, Answer.andThen]

/-- Bit 1 of `STATUS` is `DONE` (spec/10_state.md R26). -/
theorem Regs.statusWord_done (r : Regs) : r.statusWord.getLsbD 1 = r.done := by
  rw [r.statusWord_getLsbD]
  simp

/-- A read of `STATUS` returns it and leaves memory, the registers, the engine, and what is left to do. -/
theorem hostRead_status_frame (s : State) :
    (hostRead 0x018 s).hostReads = s.regs.statusWord :: s.hostReads ∧ (hostRead 0x018 s).host = s.host ∧
      (hostRead 0x018 s).mem = s.mem ∧ (hostRead 0x018 s).regs = s.regs ∧ (hostRead 0x018 s).eng = s.eng ∧
      (hostRead 0x018 s).sched = s.sched := by
  rw [hostRead_status]
  split <;> exact ⟨rfl, rfl, rfl, rfl, rfl, rfl⟩

section

variable {s : State} {rest : List Turn} {ops : List HostOp} {a : Nat} (hs : s.sched = .host :: rest)
include hs

theorem step_of_store {v : Byte} {vs : List Byte} (hh : s.host = .store a (v :: vs) :: ops) :
    step s = settle s.popTurn (hostStore a v (s.popTurn.setHost (.store (a + 1) vs :: ops))) := by
  rw [step_of_host hs, hostStep, State.popTurn_host, hh]

theorem step_of_load (hh : s.host = .load a :: ops) :
    step s = settle s.popTurn (hostLoad a (s.popTurn.setHost ops)) := by
  rw [step_of_host hs, hostStep, State.popTurn_host, hh]

theorem step_of_wait (hh : s.host = .wait :: ops) :
    step s = .next (hostRead 0x018 (s.popTurn.setHost (if s.regs.done then ops else .wait :: ops))) := by
  rw [step_of_host hs, hostStep, State.popTurn_host, hh]
  simp only [State.popTurn_regs, Regs.statusWord_done]

end

/-- Settles O17: a store and a load compose, and each host operation in one turn. -/
theorem hostLoadReturnsStore : Obligations.HostLoadReturnsStore := by
  refine ⟨fun s a v ha hst hld hn => ?_, fun s rest ops a hs => ⟨fun v vs hh hm => ⟨fun ha => ?_, fun ha => ?_⟩,
    fun hh => ?_, fun hh hm => ⟨fun ha => ?_, fun ha => ?_⟩, fun hh => ?_⟩⟩
  · refine ⟨_, hostStore_eq_ok v hst ha, ?_, fun b hb => State.byteAt_of_memPut_of_ne rfl hb, rfl, rfl⟩
    have hload := hostLoad_of_seen (s := { s with mem := memPut s.mem a v }) hld ha hn
    rwa [State.byteAt_of_memPut_self rfl] at hload
  · rw [step_of_store hs hh, hostStore_eq_ok (s := s.popTurn.setHost _) v hm ha]
    exact ⟨_, rfl, State.byteAt_of_memPut_self (s := s) rfl, fun b hb => State.byteAt_of_memPut_of_ne rfl hb, rfl, rfl,
      rfl, rfl, by simp [hs]⟩
  · rw [step_of_store hs hh, hostStore_outside (s := s.popTurn.setHost _) v hm ha]
    rfl
  · rw [step_of_host hs, hostStep, State.popTurn_host, hh]
    simp [State.popTurn, State.setHost, hs]
  · rw [step_of_load hs hh, hostLoad_eq_ok (s := s.popTurn.setHost _) hm ha]
    refine ⟨_, rfl, ?_⟩
    have hn : (s.popTurn.setHost ops).notSeen a = s.notSeen a := rfl
    rw [hn]
    cases s.notSeen a with
    | false => exact ⟨rfl, rfl, rfl, rfl, rfl, rfl, by simp [hs]⟩
    | true => exact ⟨rfl, rfl, rfl, rfl, rfl, rfl, by simp [hs]⟩
  · rw [step_of_load hs hh, hostLoad_outside (s := s.popTurn.setHost _) hm ha]
    rfl
  · obtain ⟨hreads, hhost, hmem, hregs, heng, hsched⟩ :=
      hostRead_status_frame (s.popTurn.setHost (if s.regs.done then ops else .wait :: ops))
    exact ⟨_, step_of_wait hs hh, hreads, hhost, hmem, hregs, heng, hsched.trans (by simp [hs])⟩

/-! ## What the read of DONE = 1 releases -/

/-- In an idle core with `DONE = 1`, the load after a read of `STATUS` returns the byte in memory where the last
command's range, the first of the unread ones, holds it, or no unread range of an earlier command does
(spec/20_memory.md R48). -/
theorem hostLoad_after_status {s : State} {a : Nat} {p : Span} {rest : List Span} (ha : s.hostAccess a = .ok ())
    (hu : s.unseen = p :: rest) (hd : s.regs.done = true) (hb : s.regs.busy = false)
    (hp : p.contains a = true ∨ ∀ q ∈ rest, q.contains a = false) :
    hostLoad a (hostRead 0x018 s) = .ok ((hostRead 0x018 s).answerHost ((s.byteAt a).setWidth 64)) := by
  have hread : hostRead 0x018 s = s.observeDone.answerHost s.regs.statusWord := by simp [hostRead_status, hd]
  have hseen : s.observeDone.notSeen a = false := by
    rw [State.observeDone_notSeen hu]
    rcases hp with hp | hp
    · simp [hp]
    · simpa using fun q hq hc => absurd hc (by simp [hp q hq])
  have hload : (hostRead 0x018 s).mayLoad a = true := by simp [hread, State.mayLoad, hb]
  rw [hread] at hload ⊢
  exact hostLoad_of_seen hload ha hseen

/-- A command that ends releases what it has published: `t` is the ended core, `len` the bytes the command wrote. -/
theorem hostLoad_of_published {t : State} {a len : Nat} (ha : t.hostAccess a = .ok ())
    (hu : ∃ rest, t.unseen = ⟨t.regs.dstBase.toNat, len⟩ :: rest) (hd : t.regs.done = true)
    (hb : t.regs.busy = false) (hlo : t.dstAddr 0 ≤ a) (hhi : a < t.dstAddr len) :
    hostLoad a (hostRead 0x018 t) = .ok ((hostRead 0x018 t).answerHost ((t.byteAt a).setWidth 64)) := by
  obtain ⟨rest, hu⟩ := hu
  exact hostLoad_after_status ha hu hd hb (.inl (Span.contains_iff.2 ⟨hlo, hhi⟩))

/-- A completion publishes the `DST_LEN` bytes of the destination (spec/46_codec_commands.md R112). -/
theorem State.complete_unseen_head (s : State) :
    ∃ rest, s.complete.unseen = ⟨s.regs.dstBase.toNat, s.regs.dstLen.toNat⟩ :: rest :=
  State.publish_unseen_head _ _

theorem ErrCode.spoilsDestination_iff (code : ErrCode) :
    code.spoilsDestination = true ↔ code ∈ [ErrCode.unsupportedSymbol, .lengthMismatch, .undecodableStream] := by
  cases code <;> decide

/-- A late error publishes the planned range (spec/60_exceptions.md R134). -/
theorem State.raise_unseen_head (s : State) {code : ErrCode} (info planned : Nat)
    (h : code.spoilsDestination = true) :
    ∃ rest, (s.raise code info planned).unseen = ⟨s.regs.dstBase.toNat, planned⟩ :: rest := by
  obtain ⟨rest, hr⟩ := State.publish_unseen_head ((s.endWithError code info).drawDestination planned) planned
  refine ⟨rest, ?_⟩
  unfold State.raise
  simp only [h, if_true]
  split
  · exact hr
  · exact hr

/-- Settles O19: the read of `STATUS` releases the first unread range, which is the ended command's. -/
theorem completionReleasesWrites : Obligations.CompletionReleasesWrites := by
  intro s a ha
  refine ⟨fun p rest hu hd hb => hostLoad_after_status ha hu hd hb,
    hostLoad_of_published (t := s.complete) ha s.complete_unseen_head rfl rfl,
    fun code info planned hc hlo hhi => ?_⟩
  have hspoils := (ErrCode.spoilsDestination_iff code).2 hc
  apply hostLoad_of_published (len := planned)
  · simpa [State.hostAccess] using ha
  · simpa using s.raise_unseen_head info planned hspoils
  · simp
  · simp
  · simpa [State.dstAddr] using hlo
  · simpa [State.dstAddr] using hhi

end Sys2Proof.Machine

/-! PROOFS. The command word: which words decode, and to which command (spec/30_encoding.md R54, R55, R65). -/

namespace Sys2Proof

/-! ## The two fields of a word -/

/-- `MBZ` above `OPCODE` is the whole word (R54). -/
theorem mbzField_append_opcodeField (w : Word) : mbzField w ++ opcodeField w = w :=
  BitVec.extractLsb'_append_extractLsb' (w := 56) (len := 8)

@[simp] theorem mbzField_append (m : BitVec 56) (b : BitVec 8) : mbzField (m ++ b) = m :=
  BitVec.extractLsb'_append_eq_left

@[simp] theorem opcodeField_append (m : BitVec 56) (b : BitVec 8) : opcodeField (m ++ b) = b :=
  BitVec.extractLsb'_append_eq_right

/-- A command's legal word is the one with its `OPCODE` below a zero `MBZ` (R55). -/
theorem eq_encode_iff {w : Word} {i : Instr} :
    w = encode i ↔ mbzField w = 0 ∧ opcodeField w = opcodeOf i := by
  constructor
  · rintro rfl
    exact ⟨mbzField_append _ _, opcodeField_append _ _⟩
  · rintro ⟨hmbz, hop⟩
    rw [← mbzField_append_opcodeField w, hmbz, hop, encode]

/-! ## The decoder -/

@[simp] theorem ofOpcode_opcodeOf (i : Instr) : ofOpcode (opcodeOf i) = some i := by
  cases i <;> rfl

/-- The opcode map of R55 read both ways. -/
theorem ofOpcode_eq_some_iff {b : BitVec 8} {i : Instr} : ofOpcode b = some i ↔ b = opcodeOf i := by
  constructor
  · fun_cases ofOpcode b <;> rintro ⟨⟩ <;> assumption
  · rintro rfl
    exact ofOpcode_opcodeOf i

theorem decode_eq_ok_iff {w : Word} {i : Instr} :
    decode w = .ok i ↔ mbzField w = 0 ∧ opcodeField w = opcodeOf i := by
  rw [← ofOpcode_eq_some_iff]
  fun_cases decode w with
  | case1 hmbz j hop => simp [hmbz, hop]
  | case2 hmbz hop => simp [hmbz, hop]
  | case3 hmbz => exact iff_of_false nofun fun ⟨hzero, _⟩ => hmbz hzero

/-- A word whose bits 63:8 are not zero is illegal (R65). -/
theorem decode_of_mbzField_ne_zero {w : Word} (hmbz : mbzField w ≠ 0) : decode w = .error .mbzNotZero :=
  if_neg hmbz

/-- A word whose `OPCODE` selects no command is illegal (R65). -/
theorem decode_of_opcode_unassigned {w : Word} (hmbz : mbzField w = 0) (hop : ofOpcode (opcodeField w) = none) :
    decode w = .error .opcodeUnassigned := by
  simp [decode, hmbz, hop]

/-- Settles O2: both sides say that `MBZ` is zero and `OPCODE` is the command's. -/
theorem onlyLegalWordsDecode : Obligations.OnlyLegalWordsDecode := fun _ _ =>
  decode_eq_ok_iff.trans eq_encode_iff.symm

theorem decode_encode (i : Instr) : decode (encode i) = .ok i := (onlyLegalWordsDecode _ i).2 rfl

/-- Settles O1: four of the words are the commands' legal words, 0x4 has an unassigned `OPCODE`, and two have a bit
set above it. -/
theorem commandWordsDecode : Obligations.CommandWordsDecode :=
  ⟨decode_encode .nop, decode_encode .compress, decode_encode .decompress, decode_encode .analyze,
    decode_of_opcode_unassigned (by decide) (by decide),
    decode_of_mbzField_ne_zero (by decide), decode_of_mbzField_ne_zero (by decide)⟩

end Sys2Proof

/-! PROOFS. Whose turn it is, what the engine's turn runs, and the host's register accesses
(spec/40_host_access.md). -/

namespace Sys2Proof.Machine

open Sys2Proof

/-! ## An uncontested run as single engine steps -/

section

variable {f : State → Answer State} {k : Nat} {s t : State}

/-- A run that answers stays where it starts, or makes the engine's step and goes on from there. -/
theorem runToEnd_succ_cases (h : runToEnd f (k + 1) s = .next t) :
    t = s ∨ (s.eng.phase ≠ .idle ∧ ∃ u, f s = .ok u ∧ runToEnd f k u = .next t) := by
  by_cases hp : s.eng.phase = .idle
  · rw [runToEnd_idle hp] at h
    exact .inl (Host.Outcome.next.inj h).symm
  · cases hu : f s with
    | ok u =>
      simp only [runToEnd, if_neg hp, hu] at h
      exact .inr ⟨hp, u, rfl, h⟩
    | stuck =>
      rw [runToEnd_of_stuck hu] at h
      exact .inl (Host.Outcome.next.inj h).symm
    | fault e => simp [runToEnd, hp, hu] at h
    | refused r => simp [runToEnd, hp, hu] at h

/-- What an uncontested run of at most `k` steps answers, some number of engine steps up to `k` leads to
(spec/46_codec_commands.md R127). -/
theorem exists_runs_of_runToEnd (h : runToEnd f k s = .next t) : ∃ j, j ≤ k ∧ Runs f j s t := by
  induction k generalizing s with
  | zero =>
    obtain rfl : s = t := Host.Outcome.next.inj h
    exact ⟨0, le_rfl, .refl s⟩
  | succ k ih =>
    rcases runToEnd_succ_cases h with rfl | ⟨hp, u, hu, hrest⟩
    · exact ⟨0, Nat.zero_le _, .refl t⟩
    · obtain ⟨j, hj, hruns⟩ := ih hrest
      exact ⟨j + 1, Nat.succ_le_succ hj, .cons hp hu hruns⟩

theorem State.popTurn_cons {u : Turn} {rest : List Turn} (h : s.sched = u :: rest) :
    s.popTurn = { s with sched := rest } := by
  rw [State.popTurn, h, List.tail_cons]

/-- A scheduled engine turn is one engine step. -/
theorem State.engineRun_engine {rest : List Turn} (h : s.sched = .engine :: rest) :
    s.engineRun f = settle s.popTurn (f s.popTurn) := by
  simp [State.engineRun, State.popTurn, h]

end

/-- Settles O6: the run is a chain of its steps, and a scheduled turn settles one. -/
theorem execIsEngineSteps : Obligations.ExecIsEngineSteps := by
  intro s t i
  rw [exec_eq_engineRun]
  refine ⟨fun hs h => ?_, fun rest hs h => ?_⟩
  · rw [State.engineRun_nil hs] at h
    obtain ⟨k, hk, hruns⟩ := exists_runs_of_runToEnd h
    exact ⟨k, hk, hruns.engineSteps⟩
  · rw [State.engineRun_engine hs, State.popTurn_cons hs, h, settle]

/-! ## Turns -/

/-- Settles O3: the engine's turn on a word that decodes. -/
theorem stepRunsDecodedCommand : Obligations.StepRunsDecodedCommand := fun _ _ _ hb hd hn =>
  (step_of_busy hb hn).trans (engineTurn_of_command hb hd)

section

variable {s : State} {rest : List Turn}

theorem step_of_reset (h : s.sched = .reset :: rest) : step s = .next s.popTurn.assertReset := by
  simp [step, turn, h]

/-- An idle engine's scheduled turn passes (spec/60_exceptions.md R144). -/
theorem step_of_idle_engine (h : s.sched = .engine :: rest) (hb : s.regs.busy = false) : step s = .next s.popTurn := by
  simp [step, turn, engineTurn, h, hb]

/-- With nothing scheduled an idle core leaves the move to the host. -/
theorem step_of_idle (h : s.sched = []) (hb : s.regs.busy = false) : step s = hostStep s := by
  simp [step, turn, h, hb]

/-- A host with no program does nothing. -/
theorem hostStep_of_nil (h : s.host = []) : hostStep s = .next s := by
  simp [hostStep, h]

end

/-- Settles O4: one clause for each agent the schedule can name, and two for an empty schedule. -/
theorem stepFollowsSchedule : Obligations.StepFollowsSchedule := by
  intro s rest
  refine ⟨fun hs => ?_, fun hs => ?_, fun hs hb => ?_, fun hs hb => step_of_idle hs hb, fun hs hb hh => ?_⟩
  · rw [step_of_host hs, State.popTurn_cons hs]
  · rw [step_of_reset hs, State.popTurn_cons hs]
  · rw [step_of_idle_engine hs hb, State.popTurn_cons hs]
  · rw [step_of_idle hs hb, hostStep_of_nil hh]

/-- Placing a 64-bit word places that word. -/
theorem State.withFetchWord_toNat (s : State) (w : Word) : s.withFetchWord 64 w.toNat = s.withCommand w := by
  rw [State.withFetchWord, Nat.mod_eq_of_lt w.isLt, BitVec.ofNat_toNat, BitVec.setWidth_eq]

/-- Settles O5: the placed word is in `CMD` with `BUSY = 1` and nothing scheduled, and it decodes to its command. -/
theorem placedCommandRuns : Obligations.PlacedCommandRuns := by
  intro s i hwf
  rw [State.withFetchWord_toNat]
  exact ⟨stepRunsDecodedCommand _ i hwf rfl (decode_encode i) (.inl rfl), rfl, rfl, rfl, rfl, rfl⟩

/-! ## Register accesses in a host turn -/

section

variable {s : State} {rest : List Turn} {o : BitVec 14} {ops : List HostOp}

theorem accessWf_eq_true (h : o.toNat % 8 = 0) : accessWf o .w64 = true := by
  simp [accessWf, h]

theorem step_of_read (hs : s.sched = .host :: rest) (hh : s.host = .read o .w64 :: ops) (ho : o.toNat % 8 = 0) :
    step s = .next (hostRead o.toNat (s.popTurn.setHost ops)) := by
  rw [step_of_host hs, hostStep, State.popTurn_host, hh]
  exact if_pos (accessWf_eq_true ho)

theorem step_of_write {v : Word} (hs : s.sched = .host :: rest) (hh : s.host = .write o .w64 v :: ops)
    (ho : o.toNat % 8 = 0) : step s = .next (hostWrite o.toNat v (s.popTurn.setHost ops)) := by
  rw [step_of_host hs, hostStep, State.popTurn_host, hh]
  exact if_pos (accessWf_eq_true ho)

end

/-! ## Register reads -/

/-- A read leaves everything but the count of draws and what the host is not yet promised to see (R68). -/
theorem State.exists_afterRead_eq (s : State) (o : Nat) :
    ∃ d spans, s.afterRead o = { s with draws := d, unseen := spans } := by
  unfold State.afterRead
  simp only
  split_ifs <;> exact ⟨_, _, rfl⟩

/-- Settles O7: the read's frame, and the value it hands to the host. -/
theorem registerReadHasNoSideEffect : Obligations.RegisterReadHasNoSideEffect := by
  intro s rest o ops hs hh ho
  obtain ⟨d, spans, hread⟩ := (s.popTurn.setHost ops).exists_afterRead_eq o.toNat
  refine ⟨_, step_of_read hs hh ho, ?_⟩
  rw [hostRead, hread]
  exact ⟨rfl, rfl, rfl, rfl, rfl, rfl, by simp [hs], rfl⟩

/-! ## Register writes -/

theorem hostWrite_ctrl (v : Word) (s : State) : hostWrite 0x008 v s = { s with regs := s.regs.writeCtrl v } :=
  if_pos rfl

/-- While `BUSY = 1` a write elsewhere than to `CTRL` has no effect (R72). -/
theorem hostWrite_busy {s : State} {o : Nat} (v : Word) (ho : o ≠ 0x008) (hb : s.regs.busy = true) :
    hostWrite o v s = s := by
  simp [hostWrite, ho, hb]

/-- While `BUSY = 0` a write to `CMD` issues the word (R71). -/
theorem hostWrite_cmd {s : State} (v : Word) (hb : s.regs.busy = false) : hostWrite 0x010 v s = s.issue v := by
  simp [hostWrite, hb]

/-- While `BUSY = 0` a write to `STATUS` is an acknowledgement (R70). -/
theorem hostWrite_status {s : State} (v : Word) (hb : s.regs.busy = false) :
    hostWrite 0x018 v s = s.acknowledge v := by
  simp [hostWrite, hb]

/-- While `BUSY = 0` a write elsewhere can reach an operand register only (R69). -/
theorem hostWrite_idle {s : State} {o : Nat} (v : Word) (hb : s.regs.busy = false)
    (ho : o ∉ [0x008, 0x010, 0x018]) : hostWrite o v s = { s with regs := s.regs.writeOperand o v } := by
  simp only [List.mem_cons, List.not_mem_nil, or_false, not_or] at ho
  obtain ⟨hctrl, hcmd, hstatus⟩ := ho
  simp [hostWrite, hctrl, hcmd, hstatus, hb]

/-- An offset of no operand register takes no operand (R21). -/
theorem Regs.writeOperand_of_not_operand (r : Regs) {o : Nat} (v : Word) (ho : o ∉ [0x020, 0x028, 0x030, 0x038]) :
    r.writeOperand o v = r := by
  unfold Regs.writeOperand
  cases hreg : regAt o with
  | none => rfl
  | some reg =>
    have hoff := regOffset_of_regAt hreg
    cases reg with
    | srcBase | srcLen | dstBase | dstCap => subst hoff; simp [regOffset] at ho
    | _ => rfl

/-- Settles O13: `CTRL` takes its bit, every other offset nothing. -/
theorem writesIgnoredWhileBusy : Obligations.WritesIgnoredWhileBusy := by
  intro s rest o v ops hs hh ho hb
  refine ⟨_, step_of_write hs hh ho, ?_⟩
  by_cases hctrl : o = 0x008
  · subst hctrl
    exact ⟨rfl, rfl, rfl, rfl, rfl⟩
  · have hoff : o.toNat ≠ 0x008 := fun h => hctrl (BitVec.eq_of_toNat_eq h)
    rw [hostWrite_busy (s := s.popTurn.setHost ops) v hoff hb, if_neg hctrl]
    exact ⟨rfl, rfl, rfl, rfl, rfl⟩

/-- Settles O14: the four operand registers, `CTRL`, and the offsets that are neither, `CMD` nor `STATUS`. -/
theorem idleWrites : Obligations.IdleWrites := by
  intro s o v hb
  refine ⟨hostWrite_idle v hb (by decide), hostWrite_idle v hb (by decide), hostWrite_idle v hb (by decide),
    hostWrite_idle v hb (by decide), hostWrite_ctrl v s, fun ho => ?_⟩
  have hidle : o ∉ [0x008, 0x010, 0x018] := fun h => ho (List.mem_append_left [0x020, 0x028, 0x030, 0x038] h)
  have hoperand : o ∉ [0x020, 0x028, 0x030, 0x038] := fun h => ho (List.mem_append_right [0x008, 0x010, 0x018] h)
  rw [hostWrite_idle v hb hidle, s.regs.writeOperand_of_not_operand v hoperand]

/-- Settles O15: while `BUSY = 1` the write is ignored, and otherwise bit 1 decides. -/
theorem acknowledgeClearsDone : Obligations.AcknowledgeClearsDone := by
  intro s v
  cases hb : s.regs.busy with
  | true => simp [hostWrite_busy v (show 0x018 ≠ 0x008 by decide) hb]
  | false => simp [hostWrite_status v hb, State.acknowledge, hb]

/-- Settles O16: the host's turn is the issue. -/
theorem writeToCmdIssues : Obligations.WriteToCmdIssues := by
  intro s rest v ops hs hh hb
  refine ⟨(s.popTurn.setHost ops).issue v, ?_,
    rfl, rfl, rfl, rfl, rfl, rfl, rfl, rfl, rfl, rfl, rfl, rfl, rfl, rfl, rfl, rfl, rfl⟩
  rw [step_of_write hs hh (by decide)]
  exact congrArg _ (hostWrite_cmd v hb)

end Sys2Proof.Machine

/-! PROOFS. The frequency table: the counts, their sum and the order of the bytes (spec/41_frequency_table.md). -/

namespace Sys2Proof.Machine

open Sys2Proof

/-- Counting from the cleared table: fewer than 2^64 bytes wrap no count (R75). -/
theorem countBytes_count_and_sum {bytes : List Byte} (hlen : bytes.length < 2 ^ 64) :
    (∀ b, (tableGet (countBytes bytes) b).toNat = bytes.count b) ∧ freqSum (countBytes bytes) = bytes.length := by
  obtain ⟨hcount, hsum⟩ := countFrom_spec bytes zeroFreq (by simpa using hlen)
  refine ⟨fun b => ?_, ?_⟩
  · simp [countBytes, hcount]
  · simp [countBytes, hsum]

/-- The table depends on the bytes up to rearrangement, at any length: any two counting steps commute (R77). -/
theorem countBytes_eq_of_perm {bytes other : List Byte} (h : bytes.Perm other) :
    countBytes other = countBytes bytes :=
  (h.foldl_eq' (fun a _ b _ t => countByte_comm t a b) zeroFreq).symm

/-- Settles O31: what `countFrom_spec` says of the cleared table, and `countByte_comm` for the order. -/
theorem countsAreOccurrences : Obligations.CountsAreOccurrences :=
  fun _ => ⟨countBytes_count_and_sum, fun _ => countBytes_eq_of_perm⟩

end Sys2Proof.Machine

/-! PROOFS. The tree builder: the choice of the smallest key, the keys, the size and the frequencies of a built tree
(spec/42_tree_builder.md R79 to R85). -/

namespace Sys2Proof.Machine

open Sys2Proof

/-- Settles O32: membership and leastness of what is chosen, and the order and the keys as the model defines them. -/
theorem minKeyIsLeast : Obligations.MinKeyIsLeast :=
  ⟨fun _ _ _ h => ⟨minKey_mem h, minKey_least h⟩, fun _ _ _ _ _ _ => keyLt_iff, fun _ _ => rfl, fun _ _ _ _ => rfl⟩

/-- A table without symbols has no leaf, so there is nothing to merge. -/
theorem length_buildTree_of_distinct_eq_zero {t : Table Word} (h : distinct t = 0) : (buildTree t).1.length = 0 := by
  have harena : (buildTree t).1 = leaves t := by
    rw [buildTree, h]
    rfl
  rw [harena, length_leaves, h]

/-- Only a table with a symbol has a node in its arena. -/
theorem distinct_pos_of_lt_length_buildTree {t : Table Word} {x : Nat} (hx : x < (buildTree t).1.length) :
    1 ≤ distinct t :=
  Nat.one_le_iff_ne_zero.2 fun h => by
    rw [length_buildTree_of_distinct_eq_zero h] at hx
    exact Nat.not_lt_zero x hx

/-- Settles O33: the merges keep the keys distinct, by the symbols of the leaves and the creation numbers of the
internal nodes. -/
theorem treeKeysAreDistinct : Obligations.TreeKeysAreDistinct := fun _ _ _ hx hy hk =>
  (buildTree_spec (distinct_pos_of_lt_length_buildTree hx)).1.key_inj hx hy hk

/-- Settles O34: each merge adds a node and takes one off `Q`, and the last node left is the last one made. -/
theorem treeSize : Obligations.TreeSize := fun _ h => ⟨length_buildTree h, (buildTree_spec h).2⟩

/-- An internal node's frequency is the sum of its children's: it was when the merge made it, and no later merge
rewrites a node. -/
theorem MergeInv.freq_eq_sum {t : Table Word} {nodes : List Node} {q : List Nat} {seq : Nat}
    (h : MergeInv t nodes q seq) {x f k l r : Nat} (hx : x < nodes.length)
    (hn : nodeAt nodes x = .internal f k l r) : f = (nodeAt nodes l).freq + (nodeAt nodes r).freq := by
  rw [h.length] at hx
  by_cases hleaf : x < distinct t
  · rw [h.leaf x hleaf] at hn
    cases hn
  · obtain ⟨j, rfl⟩ := Nat.exists_eq_add_of_le (Nat.le_of_not_lt hleaf)
    obtain ⟨_, _, _, _, hmerged⟩ := h.internal j (Nat.lt_of_add_lt_add_left hx)
    rw [hmerged] at hn
    cases hn
    rfl

/-- The root is all that is left in `Q`, whose frequencies sum to the table's (R85). -/
theorem root_freq_buildTree {t : Table Word} (h : 1 ≤ distinct t) :
    (nodeAt (buildTree t).1 (buildTree t).2).freq = freqSum t := by
  simpa using (buildTree_spec h).1.freqs

/-- Settles O35: the invariant of the merges gives each internal node's sum, the place and the order of its children,
and the root's frequency. -/
theorem treeFrequencies : Obligations.TreeFrequencies := by
  intro t
  refine ⟨fun x f k l r hx hn => ?_, root_freq_buildTree⟩
  have hinv := (buildTree_spec (distinct_pos_of_lt_length_buildTree hx)).1
  obtain ⟨hl, hr⟩ := hinv.children x f k l r hx hn
  exact ⟨hinv.freq_eq_sum hx hn, hl, hr, hinv.order x f k l r hx hn⟩

end Sys2Proof.Machine

/-! PROOFS. The code table: no code begins another, the lengths of the codes, completeness and the reverse lookup
(spec/43_code_table.md R87 to R94). -/

namespace Sys2Proof.Machine

open Sys2Proof

/-- Settles O37: the codes of two symbols are the paths of two leaves, and no leaf's path begins another's. -/
theorem codesArePrefixFree : Obligations.CodesArePrefixFree := by
  intro t x y hx hy hne
  have h := distinct_pos_of_mem hx
  exact (assignments_prefixFree h).not_prefix ((codesOf_get h x).1 hx) ((codesOf_get h y).1 hy)
    fun he => hne (congrArg Prod.fst he)

/-- Settles O36: a symbol that occurs has the code assigned to it, the others keep the empty code. -/
theorem codeLengths : Obligations.CodeLengths := by
  intro t s h
  obtain ⟨hocc, hnone⟩ := codesOf_get h s
  exact ⟨fun hs => assignments_length h (hocc hs), fun hs => List.length_eq_zero_iff.2 (hnone hs)⟩

/-- The codes of the symbols present are the codes assigned, each once and in whatever order: a sum over either is the
same. -/
theorem sum_present_code_eq_sum_assignments {t : Table Word} (h : 1 ≤ distinct t) (f : Bits → Nat) :
    ((present t).map fun s => f (tableGet (codesOf t) s)).sum =
      ((assignments (buildTree t).1 (buildTree t).2).map fun a => f a.2).sum := by
  rw [← ((assignments_symbols h).map _).sum_eq, List.map_map]
  exact congrArg List.sum (List.map_congr_left fun a ha => congrArg f (codesOf_of_mem h ha).2)

/-- At most 256 leaves have paths of at most 255 bits, so the scale 2^255 of `leavesUnder_complete` is deep enough. -/
theorem sum_two_pow_codeLen {t : Table Word} (h : 2 ≤ distinct t) :
    ((present t).map fun s => 2 ^ (255 - codeLen (codesOf t) s)).sum = 2 ^ 255 := by
  have h1 : 1 ≤ distinct t := Nat.le_of_succ_le h
  have hleaves : (leavesUnder (buildTree t).1 (buildTree t).2).length = distinct t := by
    simpa [distinct] using (buildTree_symbols h1).length_eq
  calc ((present t).map fun s => 2 ^ (255 - codeLen (codesOf t) s)).sum
      = ((leavesUnder (buildTree t).1 (buildTree t).2).map fun a => 2 ^ (255 - a.2.length)).sum := by
        rw [← assignments_of_two h]
        exact sum_present_code_eq_sum_assignments h1 fun c => 2 ^ (255 - c.length)
    _ = 2 ^ 255 := leavesUnder_complete (buildTree_spec h1).1.children (buildTree_root_lt h1) 255
        (hleaves.trans_le (distinct_le t))

/-- The code of a table's only symbol (R88). -/
theorem codesOf_of_present_eq_singleton {t : Table Word} {s : Byte} (hs : present t = [s]) :
    tableGet (codesOf t) s = [false] := by
  have hone : distinct t = 1 := congrArg List.length hs
  obtain ⟨s', hs', ha⟩ := assignments_of_one hone
  obtain rfl : s = s' := List.singleton_inj.1 (hs.symm.trans hs')
  exact (codesOf_of_mem hone.ge (ha ▸ List.mem_singleton_self _)).2

/-- Settles O38: the tree's paths are complete, and a tree of one leaf is given the code "0". -/
theorem codesAreComplete : Obligations.CodesAreComplete :=
  fun _ => ⟨sum_two_pow_codeLen, fun _ => codesOf_of_present_eq_singleton⟩

/-- A pair was assigned exactly if the symbol occurs and the code table gives it that code (R89). -/
theorem mem_assignments_iff {t : Table Word} (h : 1 ≤ distinct t) {s : Byte} {c : Bits} :
    (s, c) ∈ assignments (buildTree t).1 (buildTree t).2 ↔ tableGet t s ≠ 0 ∧ tableGet (codesOf t) s = c := by
  refine ⟨codesOf_of_mem h, ?_⟩
  rintro ⟨hs, rfl⟩
  exact (codesOf_get h s).1 hs

/-- Settles O39: no code begins another, so a bit string has one entry at most and the lookup finds exactly the
assignments. -/
theorem reverseLookupInverts : Obligations.ReverseLookupInverts := fun _ _ _ h =>
  (reverseLookup_decodeMap (assignments_prefixFree h)).trans (mem_assignments_iff h)

end Sys2Proof.Machine

/-! PROOFS. pack and unpack: the padding, the bits of the payload and the identity of the two
(spec/44_bit_packer.md R95 to R101). -/

namespace Sys2Proof.Machine

open Sys2Proof

theorem padOf_of_aligned {b : Nat} (h : b % 8 = 0) : padOf b = 0 := by
  rw [padOf, h]

@[simp] theorem length_bitsOfByte (b : Byte) : (bitsOfByte b).length = 8 := by
  rw [bitsOfByte, List.length_map, List.length_range]

theorem length_flatMap_bitsOfByte (l : List Byte) : (l.flatMap bitsOfByte).length = 8 * l.length := by
  simp [List.length_flatMap, Nat.mul_comm]

/-- Bit `7 - t mod 8` of byte `t div 8` is bit `t` of the bytes' stream (R62). -/
theorem getLsbD_getD_eq_getD_flatMap {l : List Byte} {t : Nat} (h : t < 8 * l.length) :
    (l.getD (t / 8) 0).getLsbD (7 - t % 8) = (l.flatMap bitsOfByte).getD t false := by
  have hbyte : t / 8 < l.length := Nat.div_lt_of_lt_mul h
  have hbit : t < (l.flatMap bitsOfByte).length := (length_flatMap_bitsOfByte l).symm ▸ h
  rw [List.getD_eq_getElem _ _ hbyte, List.getD_eq_getElem _ _ hbit, getElem_flatMap_bitsOfByte l t hbyte hbit]

/-- Zero padding reads like the default past the end of the string. -/
theorem getD_append_replicate_false (bs : Bits) (k t : Nat) :
    (bs ++ List.replicate k false).getD t false = bs.getD t false := by
  rcases Nat.lt_or_ge t bs.length with h | h
  · exact List.getD_append _ _ _ _ h
  · rw [List.getD_append_right _ _ _ _ h, List.getD_eq_default _ _ h, List.getD_eq_getElem?_getD,
      List.getElem?_getD_replicate_default_eq]

/-- The payload's bits are the string's, and zero in the padding (R62, R95). -/
theorem getLsbD_pack (bs : Bits) {t : Nat} (h : t < 8 * (pack bs).1.length) :
    ((pack bs).1.getD (t / 8) 0).getLsbD (7 - t % 8) = bs.getD t false := by
  rw [getLsbD_getD_eq_getD_flatMap h, flatMap_pack, getD_append_replicate_false]

/-- Settles O40: the padding is `padOf` of the length, and the payload's stream is the string and the padding. -/
theorem packLength : Obligations.PackLength := fun bs =>
  ⟨Nat.le_of_lt_succ (padOf_lt bs.length), length_pack_mul bs, padOf_of_aligned, fun _ => getLsbD_pack bs⟩

/-- Settles O41: the payload has room for its padding, and the stream without the padding is the string. -/
theorem unpackInvertsPack : Obligations.UnpackInvertsPack := by
  intro bs
  have hlen : 8 * (pack bs).1.length = bs.length + (pack bs).2 := length_pack_mul bs
  have hroom : ¬ 8 * (pack bs).1.length < (pack bs).2 := by omega
  rw [unpack, if_neg hroom, hlen, Nat.add_sub_cancel, flatMap_pack, List.take_left]

end Sys2Proof.Machine

/-! PROOFS. The container: the deserializer on serialized headers, and an artifact's bytes at their offsets
(spec/45_container.md R103 to R107). -/

namespace Sys2Proof.Machine

open Sys2Proof

/-! ## Deserializing an artifact -/

/-- The entries of a serialized table put the table together again and add up to its sum (R106 steps 4 to 7). -/
theorem parseEntries_headerBytes {maxLen : Nat} {t : Table Word} (hsum : freqSum t ≤ maxLen) (pad : Nat) (e : Bool)
    (payload : List Byte) :
    parseEntries maxLen (headerBytes t (distinct t) pad e ++ payload) (distinct t) 0 zeroFreq 0 none =
      .ok (t, freqSum t) := by
  have h := parseEntries_spec t maxLen (headerBytes t (distinct t) pad e ++ payload) (present t) 0 zeroFreq 0 none
    ⟨beBytes 4 (distinct t), [BitVec.ofNat 8 pad, if e then 1 else 0] ++ payload, by simp [headerBytes], by simp⟩
    (present_sorted t) (by simp) (fun _ => mem_present.1)
    (by rw [Nat.zero_add, ← freqSum_eq_present]; exact hsum)
  rwa [putEntries_present, ← freqSum_eq_present, Nat.zero_add] at h

/-- On a serialized header only the checks of `pad` and `emptyFlag` are left to make (R106 steps 8 to 12). -/
theorem parseHeader_headerBytes {maxLen : Nat} {t : Table Word} (hsum : freqSum t ≤ maxLen) (pad : Nat) (e : Bool)
    (payload : List Byte) :
    parseHeader maxLen (headerBytes t (distinct t) pad e ++ payload) =
      parseTail (headerLen (distinct t) + payload.length) (distinct t) (BitVec.ofNat 8 pad).toNat
        (if e then 1 else 0) t (freqSum t) := by
  have hlen : (headerBytes t (distinct t) pad e ++ payload).length = headerLen (distinct t) + payload.length := by
    rw [List.length_append, length_headerBytes]
  have hcount := distinct_le t
  have hfour : 4 ≤ headerLen (distinct t) := by rw [headerLen]; omega
  obtain ⟨hpad, hflag⟩ := fieldAt_tail t pad e payload
  unfold parseHeader
  simp only [fieldAt_count, hlen, parseEntries_headerBytes hsum, hpad, hflag]
  rw [if_neg (by omega), if_neg (by omega), if_neg (by omega)]

/-- The tail of a non-empty artifact passes (R106 steps 8 to 12). -/
theorem parseTail_table {n pad p : Nat} (hn : n ≠ 0) (hpad : pad ≤ 7) (hp : pad ≤ 8 * p) (t : Table Word)
    (total : Nat) : parseTail (headerLen n + p) n pad 0 t total = .table t n total pad p := by
  unfold parseTail
  simp only [Nat.add_sub_cancel_left]
  rw [if_neg (by omega), if_neg (by omega), if_neg (by omega), if_neg hn, if_neg (by omega)]

/-- The artifact of a non-empty input deserializes to what it was made of (R107). -/
theorem parseHeader_artifact {bytes : List Byte} {maxLen : Nat} (hne : bytes ≠ []) (hle : bytes.length ≤ maxLen)
    (hlt : bytes.length < 2 ^ 64) :
    parseHeader maxLen (artifact bytes) =
      .table (countBytes bytes) (distinct (countBytes bytes)) bytes.length
        (pack (bytes.flatMap (tableGet (codesOf (countBytes bytes))))).2
        (pack (bytes.flatMap (tableGet (codesOf (countBytes bytes))))).1.length := by
  obtain ⟨hdist, hsum, -⟩ := countBytes_spec hne hlt
  have hflag : bytes.isEmpty = false := List.isEmpty_eq_false_iff.2 hne
  simp only [artifact]
  generalize bytes.flatMap (tableGet (codesOf (countBytes bytes))) = stream
  have hpad := padOf_lt stream.length
  have hroom := length_pack_mul stream
  rw [parseHeader_headerBytes (hsum.trans_le hle), hsum, hflag, pack_pad, BitVec.toNat_ofNat,
    Nat.mod_eq_of_lt (by omega)]
  exact parseTail_table (by omega) (by omega) (by omega) _ _

@[simp] theorem present_zeroFreq : present zeroFreq = [] := by simp [present]

/-- The empty artifact is a header without entries and with `emptyFlag` 1 (R104). -/
theorem artifact_nil : artifact [] = headerBytes zeroFreq (distinct zeroFreq) 0 true := by
  simp [artifact, pack, packBytes, padOf, countBytes]

/-- The six bytes of the empty artifact (R104). -/
theorem artifact_nil_bytes : artifact [] = [0, 0, 0, 0, 0, 1] := by
  rw [artifact_nil, headerBytes, present_zeroFreq, distinct_zeroFreq]
  rfl

/-- Settles O43: the entries of a serialized header pass and give the table, and then the tail passes. -/
theorem headerReadsBack : Obligations.HeaderReadsBack := by
  refine ⟨fun bytes maxLen hne hle hmax => parseHeader_artifact hne hle (hle.trans_lt hmax), fun maxLen => ?_⟩
  rw [artifact_nil, ← List.append_nil (headerBytes _ _ _ _),
    parseHeader_headerBytes (freqSum_zeroFreq.trans_le (Nat.zero_le _))]
  simp [parseTail]

/-! ## The bytes of an artifact -/

/-- A big-endian field byte by byte, the most significant first (R12). -/
theorem getElem?_beBytes {k j : Nat} (v : Nat) (h : j < k) :
    (beBytes k v)[j]? = some (BitVec.ofNat 8 (v / 256 ^ (k - 1 - j))) := by
  simp [beBytes, h]

/-- Byte `j` of block `i`, where every block has `k` bytes. -/
theorem getElem?_flatMap_of_length {α β : Type} {f : α → List β} {k : Nat} (hf : ∀ x, (f x).length = k) :
    ∀ {l : List α} {i : Nat} {x : α} {j : Nat}, l[i]? = some x → j < k → (l.flatMap f)[k * i + j]? = (f x)[j]?
  | [], _, _, _, h, _ => by simp at h
  | y :: l, 0, x, j, h, hj => by
    obtain rfl : y = x := by simpa using h
    rw [List.flatMap_cons, Nat.mul_zero, Nat.zero_add, List.getElem?_append_left (by rw [hf]; exact hj)]
  | y :: l, i + 1, x, j, h, hj => by
    have hoff : k * (i + 1) + j = k + (k * i + j) := by rw [Nat.mul_succ]; omega
    rw [List.flatMap_cons, hoff, List.getElem?_append_right (by rw [hf]; omega), hf, Nat.add_sub_cancel_left]
    exact getElem?_flatMap_of_length hf (by simpa using h) hj

section

variable {t : Table Word} {n pad : Nat} {e : Bool} {payload : List Byte}

/-- `symbolCount` (R103). -/
theorem getElem?_header_count {j : Nat} (h : j < 4) :
    (headerBytes t n pad e ++ payload)[j]? = some (BitVec.ofNat 8 (n / 256 ^ (3 - j))) := by
  simp only [headerBytes, List.append_assoc]
  rw [List.getElem?_append_left (by simpa using h), getElem?_beBytes n h]

/-- The entry of the `i`-th symbol (R103). -/
theorem getElem?_header_entry {i j : Nat} {s : Byte} (hs : (present t)[i]? = some s) (h : j < 12) :
    (headerBytes t n pad e ++ payload)[4 + 12 * i + j]? = (entryBytes t s)[j]? := by
  have hentry := getElem?_flatMap_of_length (length_entryBytes t) hs h
  obtain ⟨hi, -⟩ := List.getElem?_eq_some_iff.1 hs
  have hin : 12 * i + j < ((present t).flatMap (entryBytes t)).length := by
    simp only [List.length_flatMap, length_entryBytes, List.map_const', List.sum_replicate, smul_eq_mul]
    omega
  simp only [headerBytes, List.append_assoc]
  rw [List.getElem?_append_right (by rw [length_beBytes]; omega), length_beBytes,
    show 4 + 12 * i + j - 4 = 12 * i + j by omega, List.getElem?_append_left hin, hentry]

/-- What follows the entries: `paddingCount`, `emptyFlag` and the payload (R103, R56). -/
theorem drop_header_entries :
    (headerBytes t n pad e ++ payload).drop (4 + 12 * distinct t) =
      BitVec.ofNat 8 pad :: (if e then 1 else 0) :: payload := by
  simp only [headerBytes, List.append_assoc _ [_, _]]
  refine List.drop_left' ?_
  simp [List.length_flatMap, distinct, Nat.mul_comm]

/-- `paddingCount` (R103). -/
theorem getElem?_header_pad :
    (headerBytes t n pad e ++ payload)[4 + 12 * distinct t]? = some (BitVec.ofNat 8 pad) := by
  rw [← Nat.add_zero (4 + _), ← List.getElem?_drop, drop_header_entries]
  rfl

/-- `emptyFlag` (R103, R104). -/
theorem getElem?_header_flag :
    (headerBytes t n pad e ++ payload)[5 + 12 * distinct t]? = some (if e then 1 else 0) := by
  rw [show 5 + 12 * distinct t = 4 + 12 * distinct t + 1 by omega, ← List.getElem?_drop, drop_header_entries]
  rfl

/-- The payload follows the header (R56). -/
theorem drop_header : (headerBytes t n pad e ++ payload).drop (headerLen (distinct t)) = payload :=
  List.drop_left' (length_headerBytes t n pad e)

end

/-- A symbol's entry: three zero bytes, the symbol, and its frequency (R103). -/
theorem getElem?_entryBytes (t : Table Word) (s : Byte) :
    (∀ j, j < 3 → (entryBytes t s)[j]? = some 0) ∧ (entryBytes t s)[3]? = some s ∧
    ∀ j, j < 8 → (entryBytes t s)[4 + j]? = some (BitVec.ofNat 8 ((tableGet t s).toNat / 256 ^ (7 - j))) := by
  refine ⟨fun j hj => ?_, ?_, fun j hj => ?_⟩
  · have hpow : 256 ^ 1 ≤ 256 ^ (3 - j) := Nat.pow_le_pow_right (by decide) (by omega)
    rw [entryBytes, List.getElem?_append_left (by rw [length_beBytes]; omega), getElem?_beBytes _ (by omega),
      Nat.div_eq_of_lt (s.isLt.trans_le hpow)]
    rfl
  · rw [entryBytes, List.getElem?_append_left (by simp), getElem?_beBytes _ (by decide)]
    simp
  · rw [entryBytes, List.getElem?_append_right (by simp), length_beBytes, Nat.add_sub_cancel_left,
      getElem?_beBytes _ hj]

/-- The symbols counted are those of the input: no count below 2^64 wraps to 0 (R75). -/
theorem mem_present_countBytes {bytes : List Byte} (hlt : bytes.length < 2 ^ 64) {s : Byte} :
    s ∈ present (countBytes bytes) ↔ s ∈ bytes := by
  obtain ⟨hcount, -⟩ := countBytes_count_and_sum hlt
  rw [mem_present, ← List.count_pos_iff, ← hcount s, Nat.pos_iff_ne_zero, ne_eq, ne_eq, not_iff_not]
  exact ⟨fun h => h ▸ rfl, fun h => BitVec.eq_of_toNat_eq h⟩

/-- Settles O42: the header's parts one after the other, and the payload behind them. -/
theorem artifactLength : Obligations.ArtifactLength := by
  refine ⟨fun bytes hne hlt => ?_, artifact_nil_bytes⟩
  have hbits := length_stream hne hlt
  have hflag : bytes.isEmpty = false := List.isEmpty_eq_false_iff.2 hne
  refine ⟨?_, fun j => getElem?_header_count, fun i s hs => ?_, ?_, ?_, drop_header, rfl,
    present_sorted _, fun s => mem_present_countBytes hlt⟩
  · rw [length_artifact, length_pack, hbits, headerLen]
  · obtain ⟨hzero, hsym, hfreq⟩ := getElem?_entryBytes (countBytes bytes) s
    have hentry : ∀ j, j < 12 → (artifact bytes)[4 + 12 * i + j]? = (entryBytes (countBytes bytes) s)[j]? :=
      fun j => getElem?_header_entry hs
    refine ⟨fun j hj => (hentry j (by omega)).trans (hzero j hj), ?_, fun j hj => ?_⟩
    · rw [show 7 + 12 * i = 4 + 12 * i + 3 by omega, hentry 3 (by decide), hsym]
    · rw [show 8 + 12 * i + j = 4 + 12 * i + (4 + j) by omega, hentry (4 + j) (by omega), hfreq j hj]
  · rw [artifact, getElem?_header_pad, pack_pad, hbits]
  · rw [artifact, getElem?_header_flag, hflag]
    rfl

end Sys2Proof.Machine

/-! PROOFS. DECOMPRESS of any source: its phases run one after the other to what the deserializer and the walk say
(spec/46_codec_commands.md R119 to R123). -/

namespace Sys2Proof.Machine

open Sys2Proof

/-! ## How a command ends -/

/-- The registers of an error termination (spec/60_exceptions.md R133). -/
theorem State.raise_failed (s : State) (code : ErrCode) (info planned : Nat) :
    (s.raise code info planned).regs.Failed code info := by
  rw [State.raise_regs]
  exact ⟨rfl, rfl, rfl, rfl, rfl, rfl, rfl, rfl⟩

@[simp] theorem State.raise_phase (s : State) (code : ErrCode) (info planned : Nat) :
    (s.raise code info planned).eng.phase = .idle := by
  rw [State.raise_eng]

/-- The registers after FINISH of DECOMPRESS (R120). -/
theorem finishDecompress_completed (s : State) :
    (finishDecompress s).regs.Completed s.eng.total s.eng.streamBits s.eng.n s.eng.pad :=
  ⟨rfl, rfl, rfl, rfl, rfl, rfl, rfl, rfl⟩

/-- The windows after FINISH of DECOMPRESS (R120). -/
theorem finishDecompress_shows (s : State) : (finishDecompress s).Shows s.eng.freq s.eng.codes := ⟨rfl, rfl, rfl⟩

/-! ## The phases of DECOMPRESS -/

section

variable {s : State}

theorem stepOf_decompress_check (h : s.eng.phase = .check) :
    stepOf .decompress s = .ok (checkDecompress s) := by simp only [stepOf, decompressStep, h]

theorem stepOf_decompress_plan (h : s.eng.phase = .plan) :
    stepOf .decompress s = .ok (planDecompress s) := by simp only [stepOf, decompressStep, h]

theorem stepOf_decompress_tree (h : s.eng.phase = .tree) : stepOf .decompress s = treeStep s := by
  simp only [stepOf, decompressStep, h]

theorem stepOf_decompress_codes (h : s.eng.phase = .codes) :
    stepOf .decompress s = codesStep Engine.startDecode s := by simp only [stepOf, decompressStep, h]

theorem stepOf_decompress_finish (h : s.eng.phase = .finish) :
    stepOf .decompress s = .ok (finishDecompress s) := by simp only [stepOf, decompressStep, h]

/-- Accepted buffers lead into READ_HDR (R109, R119). -/
theorem checkDecompress_reaches (hp : s.eng.phase = .check) (hc : s.checkBoth = none) :
    Reaches (stepOf .decompress) 1 s { s with eng := s.eng.startRead } := by
  refine Reaches.step (by simp [hp]) ?_
  rw [stepOf_decompress_check hp, checkDecompress, hc]

/-- FINISH is the command's last step. -/
theorem finishDecompress_reaches (hp : s.eng.phase = .finish) :
    Reaches (stepOf .decompress) 1 s (finishDecompress s) :=
  Reaches.step (by simp [hp]) (stepOf_decompress_finish hp)

/-- A DECOMPRESS on accepted buffers that ends after READ_HDR began is what the uncontested turn answers, and it
leaves the operands. -/
theorem exec_decompress_of_reaches {t : State} {b : Nat} (hf : s.Fresh) (hc : s.checkBoth = none)
    (h : Reaches (stepOf .decompress) b { s with eng := s.eng.startRead } t) (hb : b < s.allSteps)
    (ht : t.eng.phase = .idle) : exec .decompress s = .next t ∧ s.SameOperands t := by
  obtain ⟨hsched, hp⟩ := hf
  have hexec : exec .decompress s = .next t :=
    exec_of_reaches hsched ((checkDecompress_reaches hp hc).trans h (Nat.le_refl _)) (by omega) ht
  obtain ⟨hops, -⟩ := decompressFrame s t (by simp [State.DecompressWf, hp]) hexec
  exact ⟨hexec, hops⟩

/-- A table of more bytes than the destination takes ends in PLAN (R122). -/
theorem planDecompress_reaches_overflow (hp : s.eng.phase = .plan) (h : s.regs.dstCap.toNat < s.eng.total) :
    Reaches (stepOf .decompress) 1 s (s.raise .outputOverflow s.eng.total 0) := by
  refine Reaches.step (by simp [hp]) ?_
  rw [stepOf_decompress_plan hp, planDecompress, if_pos h]

/-! ## From PLAN to the end -/

/-- The engine in front of the first stream bit: the tree of the header's table, and the codes of the tree. What the
merges leave in `Q` and `SEQ` is not looked at again. -/
def Engine.atDecode (e : Engine) (queue : List Nat) (seq : Nat) : Engine :=
  (({ e.startTree with nodes := (buildTree e.freq).1, queue := queue, seq := seq } : Engine).setRoot
    (buildTree e.freq).2).derive.startDecode

/-- A table that fits is planned, its tree built and its codes derived (R120). -/
theorem plan_reaches_decode {e : Engine} (hp : e.phase = .plan) (hn : e.n = distinct e.freq) (h1 : 1 ≤ e.n)
    (hfit : e.total ≤ s.regs.dstCap.toNat) :
    ∃ queue seq, Reaches (stepOf .decompress) 259 { s with eng := e } { s with eng := e.atDecode queue seq } := by
  have hplan : stepOf .decompress { s with eng := e } = .ok { s with eng := e.startTree } := by
    rw [stepOf_decompress_plan hp, planDecompress, if_neg (Nat.not_lt.2 hfit)]
  obtain ⟨queue, seq, htree⟩ := tree_reaches (fun _ => stepOf_decompress_tree)
    (s := { s with eng := e.startTree }) rfl hn h1 rfl rfl rfl
  have hcodes := htree.trans (Reaches.step (t := { s with eng := e.atDecode queue seq }) (by simp [Engine.setRoot])
    (stepOf_decompress_codes rfl)) (Nat.le_refl 258)
  exact ⟨queue, seq, Reaches.cons (by simp [hp]) hplan hcodes (Nat.le_refl _)⟩

/-- What an ended DECOMPRESS shows of the walk over the payload, `e` being the engine that worked on the artifact
(R120, R123). -/
def State.ShowsWalk (t : State) (e : Engine) : WalkResult → Prop
  | .output out =>
    t.regs.Completed e.total e.streamBits e.n e.pad ∧ t.Holds out ∧ t.Shows e.freq e.codes
  | .lengthMismatch info => t.regs.Failed .lengthMismatch info
  | .undecodable info => t.regs.Failed .undecodableStream info

/-- A late error after at most `T` symbols keeps what lies outside the planned range (spec/60_exceptions.md R134). -/
theorem raise_after_walk {u : State} {e : Engine} {out : List Byte} {b info : Nat} {code : ErrCode}
    (h : Reaches (stepOf .decompress) b u
      (({ s with mem := memPutAll s.mem (s.dstAddr 0) out, eng := e } : State).raise code info s.eng.total))
    (hlen : out.length ≤ s.eng.total) :
    ∃ t, Reaches (stepOf .decompress) (b + 1) u t ∧ t.eng.phase = .idle ∧ s.KeepsOutside t s.eng.total ∧
      t.regs.Failed code info := by
  refine ⟨_, h.mono (Nat.le_succ b), State.raise_phase .., ?_, State.raise_failed ..⟩
  refine keeps_raise ?_ ?_ hlen _ _ <;> rfl

/-- However the engine's walk ends, the command ends with it, and only the first `T` destination bytes have changed. -/
theorem WalkEnds.reaches_end {b : Nat} {u : State} {r : WalkResult} (h : WalkEnds s b u r) :
    ∃ t, Reaches (stepOf .decompress) (b + 1) u t ∧ t.eng.phase = .idle ∧ s.KeepsOutside t s.eng.total ∧
      t.ShowsWalk s.eng r := by
  cases r with
  | output out =>
    obtain ⟨e, hr, hp, hn, hpayload, hpad, htotal, hfreq, hcodes, hlen⟩ := h
    have hdone := finishDecompress_completed { s with mem := memPutAll s.mem (s.dstAddr 0) out, eng := e }
    have hshow := finishDecompress_shows { s with mem := memPutAll s.mem (s.dstAddr 0) out, eng := e }
    simp only [Engine.streamBits, hn, hpayload, hpad, htotal, hfreq, hcodes] at hdone hshow
    exact ⟨_, hr.trans (finishDecompress_reaches hp) (Nat.le_refl _), rfl, keeps_of_putAll rfl hlen.le, hdone,
      holds_of_putAll rfl rfl, hshow⟩
  | lengthMismatch info =>
    obtain ⟨e, out, hr, hlen⟩ := h
    exact raise_after_walk hr hlen
  | undecodable info =>
    obtain ⟨e, out, hr, hlen⟩ := h
    exact raise_after_walk hr hlen

/-- DECODE from its first bit on ends as the walk over the unpacked payload does (R123). -/
theorem WalkReady.walkEnds {e : Engine} {queue : List Nat} {seq : Nat}
    (h : WalkReady { s with eng := e.atDecode queue seq }) :
    WalkEnds { s with eng := e.atDecode queue seq } (2 * (8 * e.payload - e.pad) + 1)
      { s with eng := e.atDecode queue seq } (decodeArtifact s.sourceBytes e.freq e.n e.total e.pad) := by
  have hlen : (streamOf s.sourceBytes e.n e.pad).length = 8 * e.payload - e.pad :=
    length_streamOf (by rw [length_sourceBytes]; exact h.parts) h.pad
  have hwalk := walk_reaches h (streamOf s.sourceBytes e.n e.pad) 0 [] 0 [] false e.cur rfl (Nat.zero_le _)
    (Nat.zero_le _) (.inl rfl)
  rw [hlen] at hwalk
  exact hwalk

/-- A table that fits leads to what the walk over the artifact's payload gives (R120, R122, R123). -/
theorem plan_reaches_end {e : Engine} (hc : s.checkBoth = none) (hsrc : s.AdmitsSource)
    (hdest : s.AdmitsDest e.total) (hp : e.phase = .plan) (hn : e.n = distinct e.freq) (h1 : 1 ≤ e.n)
    (hpad : e.pad ≤ 8 * e.payload) (hparts : headerLen e.n + e.payload = s.sourceBytes.length)
    (hfit : e.total ≤ s.regs.dstCap.toNat) :
    ∃ t, Reaches (stepOf .decompress) (16 * s.regs.srcLen.toNat + 261) { s with eng := e } t ∧
      t.eng.phase = .idle ∧ s.KeepsOutside t e.total ∧
      t.ShowsWalk { e with codes := codesOf e.freq } (decodeArtifact s.sourceBytes e.freq e.n e.total e.pad) := by
  rw [length_sourceBytes] at hparts
  obtain ⟨queue, seq, hdecode⟩ := plan_reaches_decode (s := s) hp hn h1 hfit
  have hready : WalkReady { s with eng := e.atDecode queue seq } :=
    ⟨rfl, hsrc, hc, hparts, hpad, hdest, hfit⟩
  obtain ⟨t, hr, hidle, hkeep, hshow⟩ := hready.walkEnds.reaches_end
  exact ⟨t, hdecode.trans hr (by omega), hidle, hkeep, hshow⟩

end

/-- The parameters keep every length below 2^64 (spec/00_scope.md R7). -/
theorem Config.maxSrcLen_lt {c : Config} (h : c.wf = true) : c.maxSrcLen < 2 ^ 64 := by
  simp only [Config.wf, Bool.and_eq_true, decide_eq_true_eq] at h
  omega

/-- Settles O49: READ_HDR does what the deserializer says of the source, PLAN what the capacity says, and DECODE what
the walk says. -/
theorem decompressFollowsArtifact : Obligations.DecompressFollowsArtifact := by
  intro s hf hwf hc hsrc hdest
  have hsteps : s.allSteps = 512 * (s.regs.srcLen.toNat + 16) := rfl
  have hread := readHdr_reaches hsrc
  cases hparse : parseHeader s.cfg.maxSrcLen s.sourceBytes with
  | error code info =>
    rw [hparse] at hread
    obtain ⟨e, hr⟩ := hread
    obtain ⟨hexec, hops⟩ := exec_decompress_of_reaches hf hc hr (by omega) (State.raise_phase ..)
    exact ⟨_, hexec, State.raise_phase .., hops, State.raise_failed ..,
      State.raise_mem_early _ _ _ _ (parseHeader_code hparse)⟩
  | empty =>
    rw [hparse] at hread
    obtain ⟨e, hr, hp, hn, htotal, hpad, hpayload, hfreq, hcodes⟩ := hread
    obtain ⟨hexec, hops⟩ := exec_decompress_of_reaches hf hc
      (hr.trans (finishDecompress_reaches hp) (Nat.le_refl _)) (by omega) rfl
    have hdone := finishDecompress_completed { s with eng := e }
    have hshow := finishDecompress_shows { s with eng := e }
    simp only [Engine.streamBits, hn, htotal, hpad, hpayload, hfreq, hcodes] at hdone hshow
    exact ⟨_, hexec, rfl, hops, hdone, rfl, hshow⟩
  | table f n total pad p =>
    rw [hparse] at hread
    obtain ⟨e, hr, hp, rfl, rfl, rfl, rfl, rfl, hn, h1, hpad, hparts⟩ := hread
    dsimp only
    split
    next hfull =>
      obtain ⟨hexec, hops⟩ := exec_decompress_of_reaches hf hc
        (hr.trans (planDecompress_reaches_overflow hp hfull) (Nat.le_refl _)) (by omega) (State.raise_phase ..)
      exact ⟨_, hexec, State.raise_phase .., hops, State.raise_failed .., State.raise_mem_early _ _ _ _ rfl⟩
    next hnot =>
      have hfit : e.total ≤ s.regs.dstCap.toNat := Nat.le_of_not_lt hnot
      obtain ⟨t, hend, hidle, hkeep, hshow⟩ := plan_reaches_end hc hsrc (fun o ho => hdest o (ho.trans_le hfit)) hp
        (hn (Config.maxSrcLen_lt hwf)) h1 hpad hparts hfit
      obtain ⟨hexec, hops⟩ := exec_decompress_of_reaches hf hc (hr.trans hend (Nat.le_refl _)) (by omega) hidle
      exact ⟨t, hexec, hidle, hops, hkeep, hshow⟩

end Sys2Proof.Machine

/-! PROOFS. The decode walk over an artifact's own stream (spec/46_codec_commands.md R123, R128). -/

namespace Sys2Proof.Machine

open Sys2Proof

/-- A byte of the input has been assigned its code, and the code is not empty (spec/43_code_table.md R89, R91). -/
theorem code_of_mem {bytes : List Byte} (hlt : bytes.length < 2 ^ 64) {b : Byte} (hb : b ∈ bytes) :
    (b, tableGet (codesOf (countBytes bytes)) b) ∈
        assignments (buildTree (countBytes bytes)).1 (buildTree (countBytes bytes)).2 ∧
      tableGet (codesOf (countBytes bytes)) b ≠ [] := by
  have hne : bytes ≠ [] := List.ne_nil_of_mem hb
  obtain ⟨hd, -, -⟩ := countBytes_spec hne hlt
  have hmem := (codesOf_get hd b).1 (countBytes_ne_zero hne hlt hb)
  exact ⟨hmem, List.length_pos_iff.1 (assignments_length hd hmem).1⟩

/-- The stream of an artifact is the input's bits (R99, spec/44_bit_packer.md R101). -/
theorem streamOf_artifact (bytes : List Byte) :
    streamOf (artifact bytes) (distinct (countBytes bytes))
        (pack (bytes.flatMap (tableGet (codesOf (countBytes bytes))))).2 =
      bytes.flatMap (tableGet (codesOf (countBytes bytes))) := by
  rw [streamOf, artifact, drop_header, unpackInvertsPack, Option.getD_some]

/-- Settles O44: the unpacked payload is the input's codes one after the other, and no code begins another. -/
theorem walkDecodesArtifact : Obligations.WalkDecodesArtifact := by
  intro bytes hne hlt
  obtain ⟨hd, -, -⟩ := countBytes_spec hne hlt
  have hwalk := walk_stream (assignments_prefixFree hd) (tableGet (codesOf (countBytes bytes))) bytes.length bytes
    0 0 [] (fun _ => code_of_mem hlt) (Nat.zero_add _)
  rw [← streamOf_artifact] at hwalk
  exact hwalk

end Sys2Proof.Machine

/-! PROOFS. The checks of the dispatch, and the commands that end there: words that are no command, refused buffers,
NOP (spec/46_codec_commands.md R109 to R113). -/

namespace Sys2Proof.Machine

open Sys2Proof

/-! ## Runs from the issue to the end -/

/-- There is room for at least 8192 engine steps. -/
theorem State.allSteps_eq (s : State) : s.allSteps = 512 * s.regs.srcLen.toNat + 8192 := by
  rw [State.allSteps, Nat.mul_add]

/-- No command writes an operand register (spec/10_state.md R25, R27). -/
theorem exec_sameOperands {i : Instr} {s t : State} (h : exec i s = .next t) : s.SameOperands t := by
  rw [exec_eq_engineRun] at h
  exact State.engineRun_induction (P := s.SameOperands) (fun _ _ hu hv => hu.trans (stepOf_effect hv).kept.operands)
    (fun _ _ hu => hu) (.refl s) h

/-- A command whose next step ends it. -/
theorem exec_of_last_step {i : Instr} {s t : State} (hs : s.sched = []) (hp : s.eng.phase ≠ .idle)
    (h : stepOf i s = .ok t) (ht : t.eng.phase = .idle) : exec i s = .next t :=
  exec_of_reaches hs (Reaches.step hp h) (by rw [State.allSteps_eq]; omega) ht

/-! ## Errors of the dispatch -/

/-- An error that keeps the windows keeps the destination too. -/
theorem ErrCode.early_of_keepsWindows {code : ErrCode} (h : code.keepsWindows = true) :
    code.spoilsDestination = false := by
  revert h
  cases code <;> decide

/-- ILLEGAL_CMD and BAD_BUFFER leave memory, the windows and the operands (spec/60_exceptions.md R134,
spec/10_state.md R32). -/
theorem State.raise_keeps (s : State) {code : ErrCode} (info planned : Nat) (h : code.keepsWindows = true) :
    (s.raise code info planned).mem = s.mem ∧ (s.raise code info planned).winDraw = s.winDraw ∧
      (s.raise code info planned).eng.freq = s.eng.freq ∧ (s.raise code info planned).eng.codes = s.eng.codes ∧
      s.SameOperands (s.raise code info planned) := by
  have hmem := s.raise_mem_early code info planned (ErrCode.early_of_keepsWindows h)
  have hwin := s.raise_winDraw_kept info planned h
  have hops := (Kept.raise s code info planned).operands
  rw [State.raise_eng]
  exact ⟨hmem, hwin, rfl, rfl, hops⟩

theorem illegalStep_of_check {s : State} (hp : s.eng.phase = .check) :
    illegalStep s = .ok (s.raise .illegalCmd s.regs.cmd.toNat 0) := by
  rw [illegalStep, hp]

/-- The uncontested turn on a word that is no command (R111). -/
theorem step_of_illegal {s : State} {e : DecodeError} (hf : s.Fresh) (hb : s.regs.busy = true)
    (hd : decode s.regs.cmd = .error e) : step s = .next (s.raise .illegalCmd s.regs.cmd.toNat 0) := by
  obtain ⟨hsched, hp⟩ := hf
  rw [step_eq_engineRun hb (.inl hsched), stepOfWord_of_illegal hd]
  refine State.engineRun_of_runs (k := 1) hsched ?_ (Runs.one (by simp [hp]) (illegalStep_of_check hp))
    (State.raise_phase ..)
  rw [State.allSteps_eq]
  omega

/-- `STATUS` of an error termination: `DONE` and the code (spec/10_state.md R26). -/
theorem Regs.statusWord_of_failed {r : Regs} {code : ErrCode} {info : Nat} (h : r.Failed code info) :
    r.statusWord = (2 : Word) ||| ((code.code.setWidth 64) <<< 8) := by
  obtain ⟨hbusy, hdone, herr, -⟩ := h
  simp [Regs.statusWord, hbusy, hdone, herr, flagWord]

/-- Settles O26: the dispatch raises ILLEGAL_CMD, which leaves everything but the results and the status. -/
theorem illegalWordCompletes : Obligations.IllegalWordCompletes := by
  intro s e hf hb hd
  obtain ⟨hmem, hwin, hfreq, hcodes, hops⟩ := s.raise_keeps s.regs.cmd.toNat 0 (code := .illegalCmd) rfl
  have hfail := s.raise_failed .illegalCmd s.regs.cmd.toNat 0
  have hstatus := (Regs.statusWord_of_failed hfail).trans (show _ = (0x102 : Word) by decide)
  exact ⟨_, step_of_illegal hf hb hd, hfail, by simp, hstatus, State.raise_phase .., hmem, hwin,
    hfreq, hcodes, hops⟩

/-! ## The buffer checks -/

/-- Two ranges overlap exactly if some address lies in both (R110). -/
theorem Span.overlaps_iff {p q : Span} :
    p.overlaps q = true ↔ ∃ a, p.contains a = true ∧ q.contains a = true := by
  simp only [Span.overlaps, Bool.and_eq_true, decide_eq_true_eq, Span.contains_iff]
  constructor
  · rintro ⟨⟨⟨hp, hq⟩, hpq⟩, hqp⟩
    exact ⟨max p.base q.base, by omega, by omega⟩
  · rintro ⟨a, hp, hq⟩
    omega

section

variable {s : State}

theorem State.checkSrc_of_outside (h : 2 ^ s.cfg.addrW < s.regs.srcBase.toNat + s.regs.srcLen.toNat) :
    s.checkSrc = some 1 := if_pos h

theorem State.checkSrc_of_long (h : s.regs.srcBase.toNat + s.regs.srcLen.toNat ≤ 2 ^ s.cfg.addrW)
    (hlong : s.cfg.maxSrcLen < s.regs.srcLen.toNat) : s.checkSrc = some 2 :=
  (if_neg (Nat.not_lt.2 h)).trans (if_pos hlong)

theorem State.checkSrc_of_fits (h : s.regs.srcBase.toNat + s.regs.srcLen.toNat ≤ 2 ^ s.cfg.addrW)
    (hlen : s.regs.srcLen.toNat ≤ s.cfg.maxSrcLen) : s.checkSrc = none :=
  (if_neg (Nat.not_lt.2 h)).trans (if_neg (Nat.not_lt.2 hlen))

/-- The source's failure is the first (spec/60_exceptions.md R132). -/
theorem State.checkBoth_of_some {k : Nat} (h : s.checkSrc = some k) : s.checkBoth = some k := by
  rw [State.checkBoth, h]

theorem State.checkBoth_of_none (h : s.checkSrc = none) : s.checkBoth = s.checkDst := by
  rw [State.checkBoth, h]

theorem State.checkDst_of_outside (h : 2 ^ s.cfg.addrW < s.regs.dstBase.toNat + s.regs.dstCap.toNat) :
    s.checkDst = some 3 := if_pos h

theorem State.checkDst_of_inside (h : s.regs.dstBase.toNat + s.regs.dstCap.toNat ≤ 2 ^ s.cfg.addrW) :
    s.checkDst = if s.regs.source.overlaps s.regs.dest then some 4 else none := if_neg (Nat.not_lt.2 h)

end

/-- Settles O27: the checks one after the other, and an overlap is a shared address. -/
theorem bufferChecks : Obligations.BufferChecks := by
  intro s
  refine ⟨fun hout => ?_, fun hin hlong => ?_, fun hin hlen => ?_⟩
  · have hsrc := State.checkSrc_of_outside hout
    exact ⟨hsrc, State.checkBoth_of_some hsrc⟩
  · have hsrc := State.checkSrc_of_long hin hlong
    exact ⟨hsrc, State.checkBoth_of_some hsrc⟩
  · have hsrc := State.checkSrc_of_fits hin hlen
    rw [State.checkBoth_of_none hsrc]
    refine ⟨hsrc, State.checkDst_of_outside, fun hdst => ?_⟩
    rw [State.checkDst_of_inside hdst]
    refine ⟨fun hshared => if_pos (Span.overlaps_iff.2 hshared), fun hapart => if_neg fun hover => ?_⟩
    obtain ⟨a, hs, hd⟩ := Span.overlaps_iff.1 hover
    rw [hapart a hs] at hd
    cases hd

/-- The dispatch refuses the buffers of command `i` with check `k`: COMPRESS and DECOMPRESS look at both buffers,
ANALYZE at the source (R109, R125). -/
abbrev State.Refuses (s : State) (i : Instr) (k : Nat) : Prop :=
  (i = .compress ∨ i = .decompress) ∧ s.checkBoth = some k ∨ i = .analyze ∧ s.checkSrc = some k

/-- Refused buffers end the command in its first step (R109, R110). -/
theorem exec_of_refused {s : State} {i : Instr} {k : Nat} (hf : s.Fresh) (h : s.Refuses i k) :
    exec i s = .next (s.raise .badBuffer k 0) := by
  obtain ⟨hsched, hp⟩ := hf
  refine exec_of_last_step hsched (by simp [hp]) ?_ (State.raise_phase ..)
  rcases h with ⟨rfl | rfl, hk⟩ | ⟨rfl, hk⟩
  · simp only [stepOf, compressStep, hp, checkCompress, hk]
  · simp only [stepOf, decompressStep, hp, checkDecompress, hk]
  · simp only [stepOf, analyzeStep, hp, checkAnalyze, hk]

/-- Settles O28: the dispatch raises BAD_BUFFER, which leaves everything but the results and the status. -/
theorem refusedBuffersComplete : Obligations.RefusedBuffersComplete := by
  intro s k i hf h
  obtain ⟨hmem, hwin, hfreq, hcodes, hops⟩ := s.raise_keeps k 0 (code := .badBuffer) rfl
  exact ⟨_, exec_of_refused hf h, State.raise_failed .., State.raise_phase .., hmem, hwin, hfreq, hcodes, hops⟩

/-! ## NOP -/

/-- NOP's two steps (R113). -/
theorem exec_nop {s : State} (hf : s.Fresh) : exec .nop s = .next (s.goto .finish).complete := by
  obtain ⟨hsched, hp⟩ := hf
  have hfinish : Reaches (stepOf .nop) 1 (s.goto .finish) (s.goto .finish).complete := Reaches.step (by simp) rfl
  refine exec_of_reaches hsched (b := 2) (Reaches.cons (by simp [hp]) ?_ hfinish (Nat.le_refl _)) ?_ rfl
  · simp only [stepOf, nopStep, hp]
  · rw [State.allSteps_eq]
    omega

/-- Settles O30: the results are those of the issue, 0 by the control invariant. -/
theorem nopCompletes : Obligations.NopCompletes := by
  intro s hf hc
  have hexec := exec_nop hf
  obtain ⟨-, hp⟩ := hf
  obtain ⟨hidle, -, -, hres, -⟩ := hc
  have hbusy : s.regs.busy = true := by
    rw [← Bool.not_eq_false, ← hidle, hp]
    decide
  obtain ⟨hdst, -, hbit, hsym, hpad⟩ := hres hbusy
  exact ⟨_, hexec, ⟨rfl, rfl, rfl, rfl, hdst, hbit, hsym, hpad⟩, rfl, rfl, rfl, exec_sameOperands hexec⟩

end Sys2Proof.Machine

/-! PROOFS. COMPRESS: the empty input, the artifact of a source, and the checks of the encoding pass
(spec/46_codec_commands.md R114 to R118). -/

namespace Sys2Proof.Machine

open Sys2Proof

/-! ## The phases of COMPRESS -/

section

variable {s : State}

theorem stepOf_compress_check (h : s.eng.phase = .check) : stepOf .compress s = .ok (checkCompress s) := by
  simp only [stepOf, compressStep, h]

theorem stepOf_compress_count (h : s.eng.phase = .count) : stepOf .compress s = countStep s := by
  simp only [stepOf, compressStep, h]

theorem stepOf_compress_tree (h : s.eng.phase = .tree) : stepOf .compress s = treeStep s := by
  simp only [stepOf, compressStep, h]

theorem stepOf_compress_codes (h : s.eng.phase = .codes) :
    stepOf .compress s = codesStep (fun e => { e with phase := .plan }) s := by
  simp only [stepOf, compressStep, h]

theorem stepOf_compress_plan (h : s.eng.phase = .plan) : stepOf .compress s = .ok (planCompress s) := by
  simp only [stepOf, compressStep, h]

theorem stepOf_compress_writeHdr (h : s.eng.phase = .writeHdr) : stepOf .compress s = writeHdrStep s := by
  simp only [stepOf, compressStep, h]

theorem stepOf_compress_encode (h : s.eng.phase = .encode) : stepOf .compress s = encodeStep s := by
  simp only [stepOf, compressStep, h]

theorem stepOf_compress_finish (h : s.eng.phase = .finish) : stepOf .compress s = .ok (finishCompress s) := by
  simp only [stepOf, compressStep, h]

/-- FINISH is the command's last step. -/
theorem finishCompress_reaches (hp : s.eng.phase = .finish) :
    Reaches (stepOf .compress) 1 s (finishCompress s) := Reaches.step (by simp [hp]) (stepOf_compress_finish hp)

/-- The engine behind the header: an empty source is done, a non-empty one is encoded (R115, R116). -/
def State.behindHeader (s : State) : Engine :=
  if s.emptySource then { s.eng with out := headerLen (distinct s.eng.freq), phase := .finish } else s.eng.startEncode

theorem writeHdrStep_of_end (ho : s.eng.out = headerLen (distinct s.eng.freq)) :
    writeHdrStep s = .ok { s with eng := s.behindHeader } := by
  have hend : (headerBytes s.eng.freq s.eng.n s.eng.pad s.emptySource)[s.eng.out]? = none :=
    List.getElem?_eq_none (by rw [length_headerBytes, ho])
  rw [writeHdrStep, hend, State.behindHeader, ← ho]
  dsimp only
  split <;> rfl

/-- WRITE_HDR leaves the header at the destination's first bytes (R103). -/
theorem writeHdr_reaches (hp : s.eng.phase = .writeHdr) (ho : s.eng.out = 0)
    (ha : s.AdmitsDest (headerLen (distinct s.eng.freq))) :
    Reaches (stepOf .compress) (headerLen (distinct s.eng.freq) + 1) s
      { s with
        mem := memPutAll s.mem (s.dstAddr 0) (headerBytes s.eng.freq s.eng.n s.eng.pad s.emptySource)
        eng := s.behindHeader } := by
  refine (header_reaches (fun _ => stepOf_compress_writeHdr) hp ho ha).trans (Reaches.step (by simp [hp]) ?_)
    (Nat.le_refl _)
  rw [stepOf_compress_writeHdr (by exact hp), writeHdrStep_of_end rfl]
  rfl

end

/-- The registers after FINISH of COMPRESS (R116). -/
theorem finishCompress_completed (s : State) :
    (finishCompress s).regs.Completed s.eng.artifactSize s.eng.bits s.eng.n s.eng.pad :=
  ⟨rfl, rfl, rfl, rfl, rfl, rfl, rfl, rfl⟩

/-- The windows after FINISH of COMPRESS (R116). -/
theorem finishCompress_shows (s : State) : (finishCompress s).Shows s.eng.freq s.eng.codes := ⟨rfl, rfl, rfl⟩

/-- A COMPRESS that has stored `bytes` ends with them at the destination and nothing else changed. -/
theorem finishCompress_stored (s : State) (bytes : List Byte) (e : Engine) :
    (finishCompress { s with mem := memPutAll s.mem (s.dstAddr 0) bytes, eng := e }).Holds bytes ∧
      s.KeepsOutside (finishCompress { s with mem := memPutAll s.mem (s.dstAddr 0) bytes, eng := e }) bytes.length :=
  ⟨holds_of_putAll rfl rfl, keeps_of_putAll rfl (Nat.le_refl _)⟩

theorem State.emptySource_iff {s : State} : s.emptySource = true ↔ s.regs.srcLen = 0 := beq_iff_eq

/-! ## The encoding pass's checks -/

section

variable {s : State}

/-- An error of the encoding pass ends the command and keeps what lies outside the planned range (R118,
spec/60_exceptions.md R134). -/
theorem exec_of_encode_error {code : ErrCode} {info : Nat} (hs : s.sched = []) (hp : s.eng.phase = .encode)
    (h : encodeStep s = .ok (s.raise code info s.eng.artifactSize)) :
    ∃ t, exec .compress s = .next t ∧ t.regs.Failed code info ∧ s.KeepsOutside t s.eng.artifactSize :=
  ⟨_, exec_of_last_step hs (by simp [hp]) ((stepOf_compress_encode hp).trans h) (State.raise_phase ..),
    State.raise_failed .., (MemEffect.raise ..).keepsOutside⟩

/-- With no code in hand ENCODE looks at the next source byte (R118). -/
theorem encodeStep_of_byte (hpend : s.eng.pending = []) (hi : s.eng.idx < s.regs.srcLen.toNat)
    (ha : s.access (s.srcAddr s.eng.idx) false = .ok ()) :
    encodeStep s = .ok (encodeByte (s.byteAt (s.srcAddr s.eng.idx)) s) := by
  rw [encodeStep_of_nil hpend, if_pos hi, State.memRead_eq_ok.2 ⟨ha, rfl⟩, Answer.andThen]

/-- A byte with no code (R118, spec/43_code_table.md R93). -/
theorem encodeByte_of_no_code {b : Byte} (h : codeLen s.eng.codes b = 0) :
    encodeByte b s = s.raise .unsupportedSymbol s.eng.idx s.eng.artifactSize := if_pos h

/-- A code that does not fit into `B` bits (R118). -/
theorem encodeByte_of_long_code {b : Byte} (h : 0 < codeLen s.eng.codes b)
    (hlong : s.eng.bits < s.eng.packed + codeLen s.eng.codes b) :
    encodeByte b s = s.raise .lengthMismatch s.eng.idx s.eng.artifactSize :=
  (if_neg h.ne').trans (if_pos hlong)

/-- A pass that ends short of `B` bits (R118). -/
theorem encodeStep_of_short (hpend : s.eng.pending = []) (hi : s.eng.idx = s.regs.srcLen.toNat)
    (hbits : s.eng.packed ≠ s.eng.bits) :
    encodeStep s = .ok (s.raise .lengthMismatch s.regs.srcLen.toNat s.eng.artifactSize) := by
  rw [encodeStep_of_nil hpend, if_neg hi.not_lt, if_pos hbits]

end

/-- Settles O47: each check ends the pass in the step that makes it. -/
theorem encodeChecks : Obligations.EncodeChecks := by
  intro s hs hp hpend
  refine ⟨fun b hi ha hb => ?_, fun hi hbits => exec_of_encode_error hs hp (encodeStep_of_short hpend hi hbits)⟩
  have hbyte := encodeStep_of_byte hpend hi ha
  rw [hb] at hbyte
  refine ⟨fun hnone => exec_of_encode_error hs hp ?_, fun hcode hlong => exec_of_encode_error hs hp ?_⟩
  · rw [hbyte, encodeByte_of_no_code hnone]
  · rw [hbyte, encodeByte_of_long_code hcode hlong]

/-! ## The empty input -/

section

variable {s : State}

theorem checkCompress_of_empty (hc : s.checkBoth = none) (h0 : s.regs.srcLen = 0) :
    checkCompress s = compressEmpty s := by
  rw [checkCompress, hc]
  exact if_pos (State.emptySource_iff.2 h0)

/-- No room for the empty artifact (R115). -/
theorem compressEmpty_of_full (h : s.regs.dstCap.toNat < 6) :
    compressEmpty s = ({ s with eng := s.eng.clearTables } : State).raise .outputOverflow 6 0 := if_pos h

theorem compressEmpty_of_fits (h : 6 ≤ s.regs.dstCap.toNat) :
    compressEmpty s = { s with eng := s.eng.clearTables.startHeader } := if_neg (Nat.not_lt.2 h)

/-- WRITE_HDR with clear tables writes the empty artifact (R104, R115). -/
theorem emptyHeader_reaches (h0 : s.regs.srcLen = 0) (ha : s.AdmitsDest 6) :
    Reaches (stepOf .compress) 7 { s with eng := s.eng.clearTables.startHeader }
      { s with
        mem := memPutAll s.mem (s.dstAddr 0) (artifact [])
        eng := { s.eng.clearTables with out := 6, phase := .finish } } := by
  have hlen : headerLen (distinct zeroFreq) = 6 := by rw [distinct_zeroFreq, headerLen]
  have hempty : s.emptySource = true := State.emptySource_iff.2 h0
  have hbytes : headerBytes zeroFreq 0 0 s.emptySource = artifact [] := by
    rw [artifact_nil, distinct_zeroFreq, hempty]
  have hbehind : State.behindHeader { s with eng := s.eng.clearTables.startHeader } =
      { s.eng.clearTables with out := 6, phase := .finish } := by
    rw [← hlen]
    exact if_pos hempty
  have hheader := writeHdr_reaches (s := { s with eng := s.eng.clearTables.startHeader }) rfl rfl (hlen.symm ▸ ha)
  rw [hbehind] at hheader
  rw [← hbytes]
  exact hheader.mono (by rw [show s.eng.clearTables.startHeader.freq = zeroFreq from rfl, hlen])

/-- COMPRESS of the empty input, whose artifact fits (R115). -/
theorem compress_empty_reaches (hp : s.eng.phase = .check) (hc : s.checkBoth = none) (h0 : s.regs.srcLen = 0)
    (hfit : 6 ≤ s.regs.dstCap.toNat) (ha : s.AdmitsDest 6) :
    Reaches (stepOf .compress) 9 s
      (finishCompress { s with
        mem := memPutAll s.mem (s.dstAddr 0) (artifact [])
        eng := { s.eng.clearTables with out := 6, phase := .finish } }) := by
  refine Reaches.cons (by simp [hp]) ?_ ((emptyHeader_reaches h0 ha).trans (finishCompress_reaches rfl) (Nat.le_refl 8))
    (Nat.le_refl 9)
  rw [stepOf_compress_check hp, checkCompress_of_empty hc h0, compressEmpty_of_fits hfit]

end

/-- Settles O45: the header of clear tables is the six bytes, and OUTPUT_OVERFLOW comes before any write. -/
theorem compressOfEmptyInput : Obligations.CompressOfEmptyInput := by
  intro s hf hc h0
  obtain ⟨hsched, hp⟩ := hf
  refine ⟨fun hfit ha => ?_, fun hfull => ?_⟩
  · have hexec := exec_of_reaches hsched (compress_empty_reaches hp hc h0 hfit ha)
      (by rw [State.allSteps_eq]; omega) rfl
    obtain ⟨hholds, hkeep⟩ :=
      finishCompress_stored s (artifact []) { s.eng.clearTables with out := 6, phase := .finish }
    have hsix : (artifact []).length = 6 := by rw [artifact_nil_bytes]; rfl
    rw [hsix] at hkeep
    rw [← artifact_nil_bytes]
    exact ⟨_, hexec, finishCompress_completed _, rfl, hholds, hkeep, finishCompress_shows _, exec_sameOperands hexec⟩
  · have hstep : stepOf .compress s =
        .ok (({ s with eng := s.eng.clearTables } : State).raise .outputOverflow 6 0) := by
      rw [stepOf_compress_check hp, checkCompress_of_empty hc h0, compressEmpty_of_full hfull]
    have hexec := exec_of_last_step hsched (by simp [hp]) hstep (State.raise_phase ..)
    exact ⟨_, hexec, State.raise_failed .., State.raise_phase .., State.raise_mem_early _ _ _ _ rfl,
      exec_sameOperands hexec⟩

end Sys2Proof.Machine

/-! PROOFS. COMPRESS and ANALYZE of a source with bytes: the tables, PLAN, and what each command makes of them
(spec/46_codec_commands.md R116 to R118, R125). -/

namespace Sys2Proof.Machine

open Sys2Proof

/-! ## The engine in PLAN -/

/-- The engine enters PLAN with the tables of `x`. -/
structure Engine.AtPlan (e : Engine) (x : List Byte) : Prop where
  phase : e.phase = .plan
  freq : e.freq = countBytes x
  n : e.n = distinct (countBytes x)
  codes : e.codes = codesOf (countBytes x)

section

variable {s : State} {e : Engine} {x : List Byte}

theorem State.sourceBytes_ne_nil (h : s.regs.srcLen ≠ 0) : s.sourceBytes ≠ [] := by
  intro hnil
  have hlen := length_sourceBytes s
  rw [hnil, List.length_nil] at hlen
  exact h (BitVec.eq_of_toNat_eq hlen.symm)

theorem State.length_sourceBytes_lt (s : State) : s.sourceBytes.length < 2 ^ 64 := by
  rw [length_sourceBytes]
  exact s.regs.srcLen.isLt

/-- COUNT, TREE and CODES of a non-empty source (R116, R125). -/
theorem reaches_atPlan {f : State → Answer State} (h1 : ∀ u, u.eng.phase = .count → f u = countStep u)
    (h2 : ∀ u, u.eng.phase = .tree → f u = treeStep u)
    (h3 : ∀ u, u.eng.phase = .codes → f u = codesStep (fun e => { e with phase := .plan }) u)
    (hcheck : f s = .ok { s with eng := s.eng.startCount }) (hp : s.eng.phase = .check) (ha : s.AdmitsSource)
    (hne : s.regs.srcLen ≠ 0) :
    ∃ e : Engine, Reaches f (s.regs.srcLen.toNat + 260) s { s with eng := e } ∧ e.AtPlan s.sourceBytes := by
  obtain ⟨e, hr, hphase, hfreq, hn, hcodes⟩ := tables_reach h1 h2 h3 s ha hne
  exact ⟨e, Reaches.cons (by simp [hp]) hcheck hr (Nat.le_refl _), ⟨hphase, hfreq, hn, hcodes⟩⟩

/-- What PLAN adds to the tables of `x`: `B`, `pad` and the length of the artifact (R117). -/
structure Engine.Planned (e : Engine) (x : List Byte) : Prop where
  freq : e.freq = countBytes x
  n : e.n = distinct (countBytes x)
  codes : e.codes = codesOf (countBytes x)
  bits : e.bits = payloadBits (countBytes x) (codesOf (countBytes x))
  pad : e.pad = padOf (payloadBits (countBytes x) (codesOf (countBytes x)))
  size : e.artifactSize = (artifact x).length

theorem Engine.AtPlan.planned (h : e.AtPlan x) (hne : x ≠ []) (hlt : x.length < 2 ^ 64) : e.planned.Planned x := by
  obtain ⟨-, hfreq, hn, hcodes⟩ := h
  constructor <;> simp only [Engine.planned, Engine.artifactSize, hfreq, hn, hcodes]
  rw [length_artifact, length_pack, length_stream hne hlt]

/-- The sequencer is no result. -/
theorem Engine.Planned.withPhase (h : e.Planned x) (p : Phase) : ({ e with phase := p } : Engine).Planned x :=
  ⟨h.freq, h.n, h.codes, h.bits, h.pad, h.size⟩

end

/-! ## COMPRESS -/

section

variable {s : State} {e : Engine}

theorem compress_reaches_atPlan (hp : s.eng.phase = .check) (hc : s.checkBoth = none) (hne : s.regs.srcLen ≠ 0)
    (ha : s.AdmitsSource) :
    ∃ e : Engine, Reaches (stepOf .compress) (s.regs.srcLen.toNat + 260) s { s with eng := e } ∧
      e.AtPlan s.sourceBytes := by
  refine reaches_atPlan (fun _ => stepOf_compress_count) (fun _ => stepOf_compress_tree)
    (fun _ => stepOf_compress_codes) ?_ hp ha hne
  rw [stepOf_compress_check hp, checkCompress, hc]
  exact congrArg Answer.ok (if_neg fun h => hne (State.emptySource_iff.1 h))

/-- An artifact that does not fit ends in PLAN (R117). -/
theorem planCompress_reaches_overflow (hp : e.phase = .plan) (h : s.regs.dstCap.toNat < e.planned.artifactSize) :
    Reaches (stepOf .compress) 1 { s with eng := e }
      (({ s with eng := e.planned } : State).raise .outputOverflow e.planned.artifactSize 0) := by
  refine Reaches.step (by simp [hp]) ?_
  rw [stepOf_compress_plan hp]
  exact congrArg Answer.ok (if_pos h)

theorem planCompress_reaches_header (hp : e.phase = .plan) (h : e.planned.artifactSize ≤ s.regs.dstCap.toNat) :
    Reaches (stepOf .compress) 1 { s with eng := e } { s with eng := e.planned.startHeader } := by
  refine Reaches.step (by simp [hp]) ?_
  rw [stepOf_compress_plan hp]
  exact congrArg Answer.ok (if_neg (Nat.not_lt.2 h))

/-- The engine `e` enters ENCODE with the header `hdr` at the destination (R103, R118). -/
def State.behind (s : State) (hdr : List Byte) (e : Engine) : State :=
  { s with mem := memPutAll s.mem (s.dstAddr 0) hdr, eng := e.startEncode }

/-- The header of a source's artifact is written, and ENCODE is entered (R103). -/
theorem header_reaches_encode (hplan : e.Planned s.sourceBytes) (hne : s.regs.srcLen ≠ 0)
    (ha : s.AdmitsDest (headerLen e.n)) :
    Reaches (stepOf .compress) (headerLen e.n + 1) { s with eng := e.startHeader }
      (s.behind (headerBytes e.freq e.n e.pad false) e) := by
  have hfull : s.emptySource = false := by
    rw [← Bool.not_eq_true, State.emptySource_iff]
    exact hne
  have hn : e.n = distinct e.freq := by rw [hplan.freq, hplan.n]
  rw [hn] at ha
  have hheader := writeHdr_reaches (s := { s with eng := e.startHeader }) rfl rfl ha
  have hbehind : State.behindHeader { s with eng := e.startHeader } = e.startEncode := by
    rw [State.behindHeader]
    exact if_neg (Bool.eq_false_iff.1 hfull)
  rw [hbehind] at hheader
  rw [← hfull]
  exact hheader.mono (by rw [hn]; exact Nat.le_refl _)

/-- The payload stored behind the header is stored with it. -/
theorem State.memPutAll_behind {hdr : List Byte} (h : hdr.length = headerLen e.n) (payload : List Byte) :
    memPutAll (s.behind hdr e).mem ((s.behind hdr e).dstAddr (headerLen (s.behind hdr e).eng.n)) payload =
      memPutAll s.mem (s.dstAddr 0) (hdr ++ payload) := by
  rw [memPutAll_append, h]
  rfl

/-- ENCODE of a source whose header stands at the destination leaves the whole artifact there (R118). -/
theorem encode_reaches_finish {hdr : List Byte} (hplan : e.Planned s.sourceBytes) (hc : s.checkBoth = none)
    (hne : s.regs.srcLen ≠ 0) (hsrc : s.AdmitsSource) (hdest : s.AdmitsDest (artifact s.sourceBytes).length)
    (hfit : (artifact s.sourceBytes).length ≤ s.regs.dstCap.toNat) (hhdr : hdr.length = headerLen e.n) :
    ∃ e' : Engine, Reaches (stepOf .compress) (s.regs.srcLen.toNat + e.bits + 2) (s.behind hdr e)
      (finishCompress { s with
        mem := memPutAll s.mem (s.dstAddr 0)
          (hdr ++ (pack (s.sourceBytes.flatMap (tableGet (codesOf (countBytes s.sourceBytes))))).1)
        eng := e' }) ∧
      e'.Planned s.sourceBytes := by
  have hlt := s.length_sourceBytes_lt
  have hnil := State.sourceBytes_ne_nil hne
  have hroom : headerLen e.n + (e.bits + padOf e.bits) / 8 = (artifact s.sourceBytes).length := by
    rw [length_artifact, length_pack, length_stream hnil hlt, hplan.n, hplan.bits]
  have hsame : (s.behind hdr e).sourceBytes = s.sourceBytes := sourceBytes_of_memPutAll hc rfl rfl (by omega)
  have hcodes : (s.behind hdr e).eng.codes = codesOf (countBytes s.sourceBytes) := hplan.codes
  obtain ⟨e', hr, hp, hn, hpayload, hbits, hpad, hfreq, hcodes'⟩ :=
    encode_reaches (fun _ => stepOf_compress_encode) (s.behind hdr e) e rfl _ hdest hsrc hc hroom.le hfit
      (by rw [hsame, hcodes]; exact fun b hb => (code_of_mem hlt hb).2)
      (by rw [hsame, hcodes, length_stream hnil hlt]; exact hplan.bits.symm)
  rw [hsame, hcodes, State.memPutAll_behind hhdr] at hr
  refine ⟨e', hr.trans (finishCompress_reaches hp) (Nat.le_refl _), hfreq.trans hplan.freq, hn.trans hplan.n,
    hcodes'.trans hplan.codes, hbits.trans hplan.bits, hpad.trans hplan.pad, ?_⟩
  rw [Engine.artifactSize, hn, hpayload]
  exact hplan.size

/-- COMPRESS reports what PLAN has found (R116). -/
theorem finishCompress_of_planned {x : List Byte} (h : s.eng.Planned x) :
    (finishCompress s).regs.Completed (artifact x).length (payloadBits (countBytes x) (codesOf (countBytes x)))
        (distinct (countBytes x)) (padOf (payloadBits (countBytes x) (codesOf (countBytes x)))) ∧
      (finishCompress s).Shows (countBytes x) (codesOf (countBytes x)) := by
  have hdone := finishCompress_completed s
  have hshow := finishCompress_shows s
  rw [h.size, h.bits, h.n, h.pad] at hdone
  rw [h.freq, h.codes] at hshow
  exact ⟨hdone, hshow⟩

/-- The header of the planned tables and the packed codes are the artifact (R103). -/
theorem Engine.Planned.artifact_eq {x : List Byte} (h : e.Planned x) (hne : x ≠ []) (hlt : x.length < 2 ^ 64) :
    headerBytes e.freq e.n e.pad false ++ (pack (x.flatMap (tableGet (codesOf (countBytes x))))).1 = artifact x := by
  rw [artifact, pack_pad, length_stream hne hlt, List.isEmpty_eq_false_iff.2 hne, h.freq, h.n, h.pad]

/-- A planned artifact that fits is written, header and payload, and the command ends with it (R116). -/
theorem planned_reaches_finish (hplan : e.Planned s.sourceBytes) (hc : s.checkBoth = none)
    (hne : s.regs.srcLen ≠ 0) (hsrc : s.AdmitsSource) (hdest : s.AdmitsDest (artifact s.sourceBytes).length)
    (hfit : (artifact s.sourceBytes).length ≤ s.regs.dstCap.toNat) :
    ∃ e' : Engine, Reaches (stepOf .compress) (256 * s.regs.srcLen.toNat + 3081) { s with eng := e.startHeader }
      (finishCompress { s with mem := memPutAll s.mem (s.dstAddr 0) (artifact s.sourceBytes), eng := e' }) ∧
      e'.Planned s.sourceBytes := by
  have hlt := s.length_sourceBytes_lt
  have hnil := State.sourceBytes_ne_nil hne
  have hhdr : (headerBytes e.freq e.n e.pad false).length = headerLen e.n := by
    rw [length_headerBytes, hplan.freq, hplan.n]
  have hinside : headerLen e.n ≤ (artifact s.sourceBytes).length := by
    rw [length_artifact, hplan.n]
    exact Nat.le_add_right _ _
  have hdistinct := distinct_le (countBytes s.sourceBytes)
  have hbits := payloadBits_le hnil hlt
  rw [← hplan.n] at hdistinct
  rw [← hplan.bits, length_sourceBytes] at hbits
  obtain ⟨e', hencode, hplan'⟩ := encode_reaches_finish hplan hc hne hsrc hdest hfit hhdr
  rw [hplan.artifact_eq hnil hlt] at hencode
  refine ⟨e', (header_reaches_encode hplan hne fun o ho => hdest o (ho.trans_le hinside)).trans hencode ?_, hplan'⟩
  rw [headerLen]
  omega

end

/-- Settles O46: the tables of the source, PLAN, and then the artifact written byte by byte, or OUTPUT_OVERFLOW before
any write. -/
theorem compressWritesArtifact : Obligations.CompressWritesArtifact := by
  intro s hf _ hc hne hsrc
  obtain ⟨hsched, hp⟩ := hf
  obtain ⟨e, htables, hat⟩ := compress_reaches_atPlan hp hc hne hsrc
  have hplan := hat.planned (State.sourceBytes_ne_nil hne) s.length_sourceBytes_lt
  refine ⟨fun hfit hdest => ?_, fun hfull => ?_⟩
  · obtain ⟨e', hend, hplan'⟩ := planned_reaches_finish hplan hc hne hsrc hdest hfit
    rw [← hplan.size] at hfit
    have hexec := exec_of_reaches hsched
      ((htables.trans (planCompress_reaches_header hat.phase hfit) (Nat.le_refl _)).trans hend (Nat.le_refl _))
      (by rw [State.allSteps_eq]; omega) rfl
    obtain ⟨hholds, hkeep⟩ := finishCompress_stored s (artifact s.sourceBytes) e'
    obtain ⟨hdone, hshow⟩ := finishCompress_of_planned
      (s := { s with mem := memPutAll s.mem (s.dstAddr 0) (artifact s.sourceBytes), eng := e' }) hplan'
    exact ⟨_, hexec, hdone, rfl, hholds, hkeep, hshow, exec_sameOperands hexec⟩
  · rw [← hplan.size] at hfull
    have hexec := exec_of_reaches hsched
      (htables.trans (planCompress_reaches_overflow hat.phase hfull) (Nat.le_refl _))
      (by rw [State.allSteps_eq]; omega) (State.raise_phase ..)
    rw [hplan.size] at hexec
    exact ⟨_, hexec, State.raise_failed .., State.raise_phase .., State.raise_mem_early _ _ _ _ rfl,
      exec_sameOperands hexec⟩

end Sys2Proof.Machine

/-! PROOFS. ANALYZE of a source, DECOMPRESS of an artifact, and the completion of every command
(spec/46_codec_commands.md R119 to R128). -/

namespace Sys2Proof.Machine

open Sys2Proof

/-! ## ANALYZE -/

section

variable {s : State}

theorem stepOf_analyze_check (h : s.eng.phase = .check) : stepOf .analyze s = .ok (checkAnalyze s) := by
  simp only [stepOf, analyzeStep, h]

theorem stepOf_analyze_count (h : s.eng.phase = .count) : stepOf .analyze s = countStep s := by
  simp only [stepOf, analyzeStep, h]

theorem stepOf_analyze_tree (h : s.eng.phase = .tree) : stepOf .analyze s = treeStep s := by
  simp only [stepOf, analyzeStep, h]

theorem stepOf_analyze_codes (h : s.eng.phase = .codes) :
    stepOf .analyze s = codesStep (fun e => { e with phase := .plan }) s := by
  simp only [stepOf, analyzeStep, h]

theorem stepOf_analyze_plan (h : s.eng.phase = .plan) : stepOf .analyze s = .ok (planAnalyze s) := by
  simp only [stepOf, analyzeStep, h]

theorem stepOf_analyze_finish (h : s.eng.phase = .finish) : stepOf .analyze s = .ok (finishAnalyze s) := by
  simp only [stepOf, analyzeStep, h]

/-- FINISH is the command's last step. -/
theorem finishAnalyze_reaches (hp : s.eng.phase = .finish) :
    Reaches (stepOf .analyze) 1 s (finishAnalyze s) := Reaches.step (by simp [hp]) (stepOf_analyze_finish hp)

/-- The empty source goes from the dispatch to FINISH with clear tables (R125). -/
theorem checkAnalyze_of_empty (hc : s.checkSrc = none) (h0 : s.regs.srcLen = 0) :
    checkAnalyze s = { s with eng := { s.eng.clearTables with phase := .finish } } := by
  rw [checkAnalyze, hc]
  exact if_pos (State.emptySource_iff.2 h0)

theorem checkAnalyze_of_nonempty (hc : s.checkSrc = none) (hne : s.regs.srcLen ≠ 0) :
    checkAnalyze s = { s with eng := s.eng.startCount } := by
  rw [checkAnalyze, hc]
  exact if_neg fun h => hne (State.emptySource_iff.1 h)

/-- PLAN and FINISH (R125). -/
theorem planAnalyze_reaches_finish (hp : s.eng.phase = .plan) :
    Reaches (stepOf .analyze) 2 s (finishAnalyze (planAnalyze s)) :=
  Reaches.cons (by simp [hp]) (stepOf_analyze_plan hp) (finishAnalyze_reaches rfl) (Nat.le_refl _)

end

/-- The registers after FINISH of ANALYZE (R125). -/
theorem finishAnalyze_completed (s : State) :
    (finishAnalyze s).regs.Completed 0 s.eng.bits s.eng.n s.eng.pad := ⟨rfl, rfl, rfl, rfl, rfl, rfl, rfl, rfl⟩

/-- The windows after FINISH of ANALYZE (R125). -/
theorem finishAnalyze_shows (s : State) : (finishAnalyze s).Shows s.eng.freq s.eng.codes := ⟨rfl, rfl, rfl⟩

/-- ANALYZE reports what PLAN has found (R125). -/
theorem finishAnalyze_of_planned {s : State} {x : List Byte} (h : s.eng.Planned x) :
    (finishAnalyze s).regs.Completed 0 (payloadBits (countBytes x) (codesOf (countBytes x))) (distinct (countBytes x))
        (padOf (payloadBits (countBytes x) (codesOf (countBytes x)))) ∧
      (finishAnalyze s).Shows (countBytes x) (codesOf (countBytes x)) := by
  have hdone := finishAnalyze_completed s
  have hshow := finishAnalyze_shows s
  rw [h.bits, h.n, h.pad] at hdone
  rw [h.freq, h.codes] at hshow
  exact ⟨hdone, hshow⟩

/-- An ANALYZE touches no memory (spec/20_memory.md R46). -/
theorem exec_analyze_mem {s t : State} (h : exec .analyze s = .next t) : t.mem = s.mem := by
  obtain ⟨-, hanalyze⟩ := nopAndAnalyzeFrame s t
  obtain ⟨-, hmem⟩ := hanalyze h
  exact hmem

/-- Settles O52: the dispatch of the empty source, and the tables and sizes of any other. -/
theorem analyzeReportsTables : Obligations.AnalyzeReportsTables := by
  intro s hf _ hc
  obtain ⟨hsched, hp⟩ := hf
  refine ⟨fun h0 => ?_, fun hne hsrc => ?_⟩
  · have hcheck := (stepOf_analyze_check hp).trans (congrArg Answer.ok (checkAnalyze_of_empty hc h0))
    have hexec := exec_of_reaches hsched
      (Reaches.cons (by simp [hp]) hcheck (finishAnalyze_reaches rfl) (Nat.le_refl 2))
      (by rw [State.allSteps_eq]; omega) rfl
    exact ⟨_, hexec, finishAnalyze_completed _, rfl, rfl, finishAnalyze_shows _, exec_sameOperands hexec⟩
  · have hcheck := (stepOf_analyze_check hp).trans (congrArg Answer.ok (checkAnalyze_of_nonempty hc hne))
    obtain ⟨e, htables, hat⟩ := reaches_atPlan (fun _ => stepOf_analyze_count) (fun _ => stepOf_analyze_tree)
      (fun _ => stepOf_analyze_codes) hcheck hp hsrc hne
    have hplan := hat.planned (State.sourceBytes_ne_nil hne) s.length_sourceBytes_lt
    have hexec := exec_of_reaches hsched
      (htables.trans (planAnalyze_reaches_finish (s := { s with eng := e }) hat.phase) (Nat.le_refl _))
      (by rw [State.allSteps_eq]; omega) rfl
    obtain ⟨hdone, hshow⟩ := finishAnalyze_of_planned (s := planAnalyze { s with eng := e }) (hplan.withPhase .finish)
    exact ⟨_, hexec, hdone, rfl, exec_analyze_mem hexec, hshow, exec_sameOperands hexec⟩

/-! ## DECOMPRESS of an artifact -/

section

variable {s : State}

/-- DECOMPRESS of a source that deserializes to EMPTY (R121). -/
theorem exec_decompress_of_empty (hf : s.Fresh) (hc : s.checkBoth = none) (hsrc : s.AdmitsSource)
    (hparse : parseHeader s.cfg.maxSrcLen s.sourceBytes = .empty) :
    ∃ t, exec .decompress s = .next t ∧ t.regs.Completed 0 0 0 0 ∧ t.mem = s.mem := by
  have hread := readHdr_reaches hsrc
  rw [hparse] at hread
  obtain ⟨e, hr, hp, hn, htotal, hpad, hpayload, -⟩ := hread
  obtain ⟨hexec, -⟩ := exec_decompress_of_reaches hf hc (hr.trans (finishDecompress_reaches hp) (Nat.le_refl _))
    (by rw [State.allSteps_eq]; omega) rfl
  have hdone := finishDecompress_completed { s with eng := e }
  simp only [Engine.streamBits, hn, htotal, hpad, hpayload] at hdone
  exact ⟨_, hexec, hdone, rfl⟩

/-- DECOMPRESS of a source whose table fits the destination and whose stream the walk decodes (R120, R123). Only the
planned range has to answer writes. -/
theorem exec_decompress_of_output {f : Table Word} {n total pad p : Nat} {out : List Byte} (hf : s.Fresh)
    (hwf : s.cfg.wf = true) (hc : s.checkBoth = none) (hsrc : s.AdmitsSource) (hdest : s.AdmitsDest total)
    (hfit : total ≤ s.regs.dstCap.toNat)
    (hparse : parseHeader s.cfg.maxSrcLen s.sourceBytes = .table f n total pad p)
    (hwalk : decodeArtifact s.sourceBytes f n total pad = .output out) :
    ∃ t, exec .decompress s = .next t ∧ t.regs.Completed total (8 * p - pad) n pad ∧ t.Holds out ∧
      s.KeepsOutside t total := by
  have hread := readHdr_reaches hsrc
  rw [hparse] at hread
  obtain ⟨e, hr, hp, rfl, rfl, rfl, rfl, rfl, hn, h1, hpad, hparts⟩ := hread
  obtain ⟨t, hend, hidle, hkeep, hshow⟩ := plan_reaches_end hc hsrc hdest hp (hn (Config.maxSrcLen_lt hwf)) h1 hpad
    hparts hfit
  rw [hwalk] at hshow
  obtain ⟨hdone, hholds, -⟩ := hshow
  obtain ⟨hexec, -⟩ := exec_decompress_of_reaches hf hc (hr.trans hend (Nat.le_refl _))
    (by rw [State.allSteps_eq]; omega) hidle
  exact ⟨t, hexec, hdone, hholds, hkeep⟩

end

theorem payloadBits_zeroFreq (codes : Table Bits) : payloadBits zeroFreq codes = 0 := by
  unfold payloadBits
  refine List.sum_eq_zero fun x hx => ?_
  obtain ⟨s, _, rfl⟩ := List.mem_map.1 hx
  rw [tableGet_zeroFreq]
  exact Nat.zero_mul _

/-- Settles O50: the artifact of `x` deserializes to the tables of `x`, and the walk over its stream gives `x`. -/
theorem decompressInvertsCompress : Obligations.DecompressInvertsCompress := by
  intro s x hf hwf hc hsrc hdest hlen hx hfit
  have hlt : x.length < 2 ^ 64 := hlen.trans_lt (Config.maxSrcLen_lt hwf)
  by_cases hne : x = []
  · subst hne
    obtain ⟨-, hempty⟩ := headerReadsBack
    have hparse := hempty s.cfg.maxSrcLen
    rw [← hx] at hparse
    obtain ⟨t, hexec, hdone, hmem⟩ := exec_decompress_of_empty hf hc hsrc hparse
    refine ⟨t, hexec, ?_, fun o ho => absurd ho (Nat.not_lt_zero o), .of_mem hmem _⟩
    rw [show countBytes [] = zeroFreq from rfl, payloadBits_zeroFreq, distinct_zeroFreq]
    exact hdone
  · have hparse := parseHeader_artifact hne hlen hlt
    have hwalk := walkDecodesArtifact x hne hlt
    rw [← hx] at hparse hwalk
    obtain ⟨t, hexec, hdone, hholds, hkeep⟩ := exec_decompress_of_output hf hwf hc hsrc hdest hfit hparse hwalk
    rw [length_pack_mul, pack_pad, length_stream hne hlt, Nat.add_sub_cancel] at hdone
    exact ⟨t, hexec, hdone, hholds, hkeep⟩

/-! ## Every command completes -/

theorem idle_not_mem_phasesOf (i : Instr) : Phase.idle ∉ phasesOf i := by cases i <;> decide

/-- A run that leaves the engine idle has completed its command: only a completion enters IDLE (R112,
spec/60_exceptions.md R133). -/
theorem exec_hasEnded {i : Instr} {s t : State} (hp : s.eng.phase ≠ .idle) (h : exec i s = .next t)
    (ht : t.eng.phase = .idle) : HasEnded t := by
  rw [exec_eq_engineRun] at h
  have hrun := State.engineRun_induction (P := fun u => u.eng.phase ≠ .idle ∨ HasEnded u) (fun u v hu hv => ?_)
    (fun _ _ hu => hu) (.inl hp) h
  · exact hrun.resolve_left (not_not_intro ht)
  · rcases hu with hu | hu
    · refine (stepOf_leads hu hv).imp (fun hgoes hidle => ?_) id
      obtain ⟨-, hmem⟩ := hgoes
      rw [hidle] at hmem
      exact idle_not_mem_phasesOf i hmem
    · rw [stepOf_idle hu.1 hv]
      exact .inr hu

/-- Memory answers every access (R127). -/
abbrev State.AdmitsAll (s : State) : Prop := ∀ a w, a < 2 ^ s.cfg.addrW → s.access a w = .ok ()

section

variable {s : State}

theorem State.AdmitsAll.source (h : s.AdmitsAll) (hc : s.checkSrc = none) : s.AdmitsSource :=
  fun _ hi => h _ _ (State.srcAddr_lt hc hi)

theorem State.AdmitsAll.dest (h : s.AdmitsAll) (hc : s.checkBoth = none) {len : Nat}
    (hlen : len ≤ s.regs.dstCap.toNat) : s.AdmitsDest len :=
  fun _ ho => h _ _ (State.dstAddr_lt hc (ho.trans_le hlen))

variable (hf : s.Fresh) (hwf : s.cfg.wf = true) (hall : s.AdmitsAll)
include hf hwf hall

/-- COMPRESS on accepted buffers. -/
theorem exec_compress_reaches_idle (hc : s.checkBoth = none) :
    ∃ t, exec .compress s = .next t ∧ t.eng.phase = .idle := by
  by_cases h0 : s.regs.srcLen = 0
  · obtain ⟨hfits, hfull⟩ := compressOfEmptyInput s hf hc h0
    rcases Nat.lt_or_ge s.regs.dstCap.toNat 6 with hcap | hcap
    · obtain ⟨t, hexec, -, hidle, -⟩ := hfull hcap
      exact ⟨t, hexec, hidle⟩
    · obtain ⟨t, hexec, -, hidle, -⟩ := hfits hcap (hall.dest hc hcap)
      exact ⟨t, hexec, hidle⟩
  · obtain ⟨hfits, hfull⟩ := compressWritesArtifact s hf hwf hc h0 (hall.source (State.checkSrc_of_checkBoth hc))
    rcases Nat.lt_or_ge s.regs.dstCap.toNat (artifact s.sourceBytes).length with hcap | hcap
    · obtain ⟨t, hexec, -, hidle, -⟩ := hfull hcap
      exact ⟨t, hexec, hidle⟩
    · obtain ⟨t, hexec, -, hidle, -⟩ := hfits hcap (hall.dest hc hcap)
      exact ⟨t, hexec, hidle⟩

/-- DECOMPRESS on accepted buffers. -/
theorem exec_decompress_reaches_idle (hc : s.checkBoth = none) :
    ∃ t, exec .decompress s = .next t ∧ t.eng.phase = .idle := by
  obtain ⟨t, hexec, hidle, -⟩ := decompressFollowsArtifact s hf hwf hc
    (hall.source (State.checkSrc_of_checkBoth hc)) (hall.dest hc (Nat.le_refl _))
  exact ⟨t, hexec, hidle⟩

/-- ANALYZE on an accepted source. -/
theorem exec_analyze_reaches_idle (hc : s.checkSrc = none) :
    ∃ t, exec .analyze s = .next t ∧ t.eng.phase = .idle := by
  obtain ⟨hempty, hfull⟩ := analyzeReportsTables s hf hwf hc
  by_cases h0 : s.regs.srcLen = 0
  · obtain ⟨t, hexec, -, hidle, -⟩ := hempty h0
    exact ⟨t, hexec, hidle⟩
  · obtain ⟨t, hexec, -, hidle, -⟩ := hfull h0 (hall.source hc)
    exact ⟨t, hexec, hidle⟩

end

/-- The dispatch refuses the buffers or accepts them; either way the command ends. -/
theorem exec_reaches_idle {s : State} (i : Instr) (hf : s.Fresh) (hwf : s.cfg.wf = true) (hall : s.AdmitsAll) :
    ∃ t, exec i s = .next t ∧ t.eng.phase = .idle := by
  by_cases hrefused : ∃ k, s.Refuses i k
  · obtain ⟨k, hk⟩ := hrefused
    exact ⟨_, exec_of_refused hf hk, State.raise_phase ..⟩
  · rw [not_exists] at hrefused
    cases i with
    | nop => exact ⟨_, exec_nop hf, rfl⟩
    | compress =>
      exact exec_compress_reaches_idle hf hwf hall
        (Option.eq_none_iff_forall_ne_some.2 fun k hk => hrefused k (.inl ⟨.inl rfl, hk⟩))
    | decompress =>
      exact exec_decompress_reaches_idle hf hwf hall
        (Option.eq_none_iff_forall_ne_some.2 fun k hk => hrefused k (.inl ⟨.inr rfl, hk⟩))
    | analyze =>
      exact exec_analyze_reaches_idle hf hwf hall
        (Option.eq_none_iff_forall_ne_some.2 fun k hk => hrefused k (.inr ⟨rfl, hk⟩))

/-- Settles O60: each command's results say that its run ends in IDLE, and only a completion does. -/
theorem everyCommandCompletes : Obligations.EveryCommandCompletes := by
  intro s i hf hwf hall
  obtain ⟨t, hexec, hidle⟩ := exec_reaches_idle i hf hwf hall
  obtain ⟨-, hp⟩ := hf
  exact ⟨t, hexec, exec_hasEnded (by simp [hp]) hexec hidle⟩

end Sys2Proof.Machine

/-! PROOFS. Error termination: what it writes, and what it leaves of the destination (spec/60_exceptions.md R133,
R134). -/

namespace Sys2Proof.Machine

open Sys2Proof

/-- Settles O24: an error termination draws the planned range at most, and an early one nothing. -/
theorem destinationAfterError : Obligations.DestinationAfterError := by
  intro s code info planned
  rw [← ErrCode.spoilsDestination_iff, Bool.not_eq_true]
  exact ⟨(MemEffect.raise s code info planned).keepsOutside, s.raise_mem_early code info planned⟩

/-- Settles O23: the registers of a failed command, and what every engine step leaves. -/
theorem errorTermination : Obligations.ErrorTermination := by
  intro s code info planned
  obtain ⟨hops, hsched⟩ := Kept.raise s code info planned
  exact ⟨s.raise_failed code info planned, State.raise_phase .., hops, hsched⟩

end Sys2Proof.Machine

/-! PROOFS. The reset input, the range an abandoned command leaves unconstrained, and the host's duty while a command
runs (spec/70_reset_and_hazards.md R145, R148). -/

namespace Sys2Proof.Machine

open Sys2Proof

/-! ## The abandoned range -/

section

variable {s : State}

theorem abandonedLen_of_compress (hd : decode s.regs.cmd = .ok .compress) : abandonedLen s = abandonedCompress s := by
  rw [abandonedLen, hd]

theorem abandonedLen_of_decompress (hd : decode s.regs.cmd = .ok .decompress) :
    abandonedLen s = abandonedDecompress s := by
  rw [abandonedLen, hd]

/-- A command that writes no byte, and a word that is no command, abandon nothing (spec/20_memory.md R46). -/
theorem abandonedLen_of_no_write (hd : decode s.regs.cmd = .ok .nop ∨ decode s.regs.cmd = .ok .analyze ∨
    ∃ e, decode s.regs.cmd = .error e) : abandonedLen s = 0 := by
  rcases hd with hd | hd | ⟨e, hd⟩ <;> rw [abandonedLen, hd]

/-- Before PLAN is done a reset abandons COMPRESS's whole destination buffer. -/
theorem abandonedCompress_before_plan (hp : s.eng.phase ∈ [.check, .count, .tree, .codes, .plan]) :
    abandonedCompress s = s.regs.dstCap.toNat := by
  simp only [List.mem_cons, List.not_mem_nil, or_false] at hp
  rcases hp with hp | hp | hp | hp | hp <;> rw [abandonedCompress, hp]

/-- After it, the planned artifact. -/
theorem abandonedCompress_after_plan (hp : s.eng.phase ∈ [.writeHdr, .encode, .finish]) :
    abandonedCompress s = s.eng.artifactSize := by
  simp only [List.mem_cons, List.not_mem_nil, or_false] at hp
  rcases hp with hp | hp | hp <;> rw [abandonedCompress, hp]

/-- Before PLAN is done a reset abandons DECOMPRESS's whole destination buffer. -/
theorem abandonedDecompress_before_plan (hp : s.eng.phase ∈ [.check, .readHdr, .plan]) :
    abandonedDecompress s = s.regs.dstCap.toNat := by
  simp only [List.mem_cons, List.not_mem_nil, or_false] at hp
  rcases hp with hp | hp | hp <;> rw [abandonedDecompress, hp]

/-- After it, the `T` bytes of the decoded text. -/
theorem abandonedDecompress_after_plan (hp : s.eng.phase ∈ [.tree, .codes, .decode, .finish]) :
    abandonedDecompress s = s.eng.total := by
  simp only [List.mem_cons, List.not_mem_nil, or_false] at hp
  rcases hp with hp | hp | hp | hp <;> rw [abandonedDecompress, hp]

/-- An idle core has no command to abandon. -/
theorem abandonedLen_of_idle (hp : s.eng.phase = .idle) : abandonedLen s = 0 := by
  cases hd : decode s.regs.cmd with
  | error e => exact abandonedLen_of_no_write (.inr (.inr ⟨e, hd⟩))
  | ok i =>
    cases i with
    | nop => exact abandonedLen_of_no_write (.inl hd)
    | analyze => exact abandonedLen_of_no_write (.inr (.inl hd))
    | compress => rw [abandonedLen_of_compress hd, abandonedCompress, hp]
    | decompress => rw [abandonedLen_of_decompress hd, abandonedDecompress, hp]

end

/-! ## The reset input -/

@[simp] theorem State.assertReset_host (s : State) : s.assertReset.host = s.host := by
  unfold State.assertReset
  split <;> rfl

@[simp] theorem State.assertReset_hostReads (s : State) : s.assertReset.hostReads = s.hostReads := by
  unfold State.assertReset
  split <;> rfl

/-- The reset input draws the abandoned range, or leaves memory alone. -/
theorem MemEffect.assertReset (s : State) : MemEffect s s.assertReset (abandonedLen s) := by
  by_cases h : 0 < abandonedLen s
  · exact .drawn _ le_rfl (by simp only [State.assertReset, if_pos h])
  · exact .same (by simp only [State.assertReset, if_neg h])

/-- Settles O21: the core is at its reset values whatever it was, and memory has the effect of the abandoned range,
which is empty for an idle core. -/
theorem resetInputRestoresTheCore : Obligations.ResetInputRestoresTheCore := by
  intro s rest hs
  have hmem := MemEffect.assertReset s.popTurn
  refine ⟨s.popTurn.assertReset, step_of_reset hs, rfl, rfl, rfl,
    fun o ho _ => State.readValue_of_reset rfl rfl rfl ho, State.assertReset_cfg _, State.assertReset_host _,
    State.assertReset_hostReads _, hmem.keepsOutside, fun hp => ?_⟩
  rw [abandonedLen_of_idle (s := s.popTurn) hp] at hmem
  exact hmem.mem_of_zero

/-- Settles O22: each command's range before and after its PLAN. -/
theorem abandonedRange : Obligations.AbandonedRange := fun _ =>
  ⟨fun hd hp => (abandonedLen_of_compress hd).trans (abandonedCompress_before_plan hp),
    fun hd hp => (abandonedLen_of_compress hd).trans (abandonedCompress_after_plan hp),
    fun hd hp => (abandonedLen_of_decompress hd).trans (abandonedDecompress_before_plan hp),
    fun hd hp => (abandonedLen_of_decompress hd).trans (abandonedDecompress_after_plan hp),
    abandonedLen_of_no_write⟩

/-! ## The host's duty while a command runs -/

section

variable {s : State} {a : Nat}

theorem hostStore_eq_refused (v : Byte) (h : s.mayStore a = false) : hostStore a v s = .refused .busyBufferAccess := by
  simp [hostStore, h]

theorem hostLoad_eq_refused (h : s.mayLoad a = false) : hostLoad a s = .refused .busyBufferAccess := by
  simp [hostLoad, h]

theorem State.mayStore_of_source (hb : s.regs.busy = true) (ha : s.regs.source.contains a = true) :
    s.mayStore a = false := by
  simp [State.mayStore, hb, ha]

theorem State.mayStore_of_dest (hb : s.regs.busy = true) (ha : s.regs.dest.contains a = true) :
    s.mayStore a = false := by
  simp [State.mayStore, hb, ha]

theorem State.mayLoad_of_dest (hb : s.regs.busy = true) (ha : s.regs.dest.contains a = true) :
    s.mayLoad a = false := by
  simp [State.mayLoad, hb, ha]

end

/-- Settles O18: a byte of either buffer may not be stored, and one of the destination not be loaded. -/
theorem busyBuffersAreRefused : Obligations.BusyBuffersAreRefused := fun _ _ v hb =>
  ⟨fun ha => hostStore_eq_refused v (State.mayStore_of_source hb ha),
    fun ha => ⟨hostStore_eq_refused v (State.mayStore_of_dest hb ha),
      hostLoad_eq_refused (State.mayLoad_of_dest hb ha)⟩⟩

end Sys2Proof.Machine
